-- ==== Sys2Proof/Word.lean ====
section
/-! DEFINITION. The word and byte types of the block: a 32-bit command or register word (spec/00_scope.md R8, CMD_BITS and
RDATA_BITS) and an 8-bit symbol or stream byte (R6, SYM_BITS). -/

namespace Sys2Proof

/-- One command word, register value or response `rdata` (R8: `CMD_BITS = RDATA_BITS = 32`). -/
abbrev Word := BitVec 32

/-- One symbol, or one byte of a stream (R6: `SYM_BITS = 8`). -/
abbrev Byte := BitVec 8

/-- One code or code counter (R8: `CODE_BITS = 16`). -/
abbrev Code := BitVec 16

end Sys2Proof
end

