-- ==== Sys2Proof/Config.lean ====
section
/-! DEFINITION. What an instance of the block fixes: the two OPEN parameters of spec/00_scope.md R7, MAX_CODE and
BIT_PLACEMENT, as plain data, and the three reserved codes of R6. No command changes a configuration (spec/10_state.md R20). -/

namespace Sys2Proof

/-- BIT_PLACEMENT (R7, R52): where the first stream bit of a byte is stored. -/
inductive BitPlacement where
  /-- The first stream bit of a byte is its bit 0. -/
  | lsb0
  /-- The first stream bit of a byte is its bit 7. -/
  | msb0
deriving DecidableEq, Repr

/-- The configuration of one instance (R7). The model takes both parameters as arguments: they stand in the state as a field
that no command writes, so that every statement holds for every legal value of them (assumption log 1). -/
structure Config where
  /-- MAX_CODE: the counter value that forces a dictionary reset. -/
  maxCode : Nat
  /-- BIT_PLACEMENT. -/
  bitPlacement : BitPlacement
deriving DecidableEq, Repr

/-- The legal range of MAX_CODE (R7): `3 ≤ MAX_CODE ≤ 65536`. -/
abbrev Config.Legal (c : Config) : Prop := 3 ≤ c.maxCode ∧ c.maxCode ≤ 65536

/-- The defaults R7 gives for the two OPEN parameters: MAX_CODE 65535 and LSB0 (assumption log 2). -/
def Config.standard : Config := { maxCode := 65535, bitPlacement := .lsb0 }

/-- EMPTY_CODE (R6): the root, the empty sequence. -/
def emptyCode : Code := 0

/-- STOP_CODE (R6): the explicit end-of-stream marker. -/
def stopCode : Code := 1

/-- START_CODE (R6): the first code assignable to a new dictionary entry. -/
def startCode : Code := 2

end Sys2Proof
end

