-- ==== Sys2Proof/Syntax.lean ====
section
/-! DEFINITION. The LZPC command set, version 1: one constructor per row of spec/opcode_table.json
(spec/30_encoding.md R73), with the operands of the assembler syntax (R84). -/

namespace Sys2Proof

/-- The two channels of the block (spec/10_state.md R20): E packs, D unpacks. -/
inductive Channel where
  | e
  | d
deriving DecidableEq, Repr

/-- The 13 commands. A width operand is the width itself, 1 to 16 (R72); the field `wf` that encodes it is `width - 1`. -/
inductive Instr where
  /-- `WCALC n` (spec/40_code_width.md R101). -/
  | wcalc (n : Code)
  /-- `E.INIT` (spec/41_pack.md R111). -/
  | eInit
  /-- `E.PUT code, sym, width` (R112). -/
  | ePut (code : Code) (sym : Byte) (width : Nat)
  /-- `E.PUTA code, sym` (R113). -/
  | ePuta (code : Code) (sym : Byte)
  /-- `E.ADV` (spec/43_reset_arbiter.md R152). -/
  | eAdv
  /-- `E.FLUSH` (R114). -/
  | eFlush
  /-- `E.WIDTH` (R102). -/
  | eWidth
  /-- `RD reg` (spec/44_register_access.md R170). -/
  | rd (reg : Byte)
  /-- `D.INIT` (spec/42_unpack.md R131). -/
  | dInit
  /-- `D.GET width` (R132). -/
  | dGet (width : Nat)
  /-- `D.GETA` (R133). -/
  | dGeta
  /-- `D.ADV` (R153). -/
  | dAdv
  /-- `D.WIDTH` (R103). -/
  | dWidth
deriving DecidableEq, Repr

/-- The channel a command addresses (R73, column `channel`); WCALC and RD name none. -/
def Instr.channel : Instr → Option Channel
  | .wcalc _ => none
  | .eInit => some .e
  | .ePut _ _ _ => some .e
  | .ePuta _ _ => some .e
  | .eAdv => some .e
  | .eFlush => some .e
  | .eWidth => some .e
  | .rd _ => none
  | .dInit => some .d
  | .dGet _ => some .d
  | .dGeta => some .d
  | .dAdv => some .d
  | .dWidth => some .d

end Sys2Proof
end

