-- ==== Sys2Proof/WellFormed.lean ====
section
/-! DEFINITION. Which terms of `Instr` are commands: an operand outside the range of the assembler syntax is no command
(spec/30_encoding.md R72, R84). The code, symbol, register and n operands carry their ranges in their types. -/

namespace Sys2Proof

/-- A width operand is 1 to 16 (R72: a width of 0 cannot be encoded; R84: `width: 1 .. 16`). -/
abbrev legalWidth (width : Nat) : Prop := 1 ≤ width ∧ width ≤ 16

/-- The check on one command. -/
def Instr.wellFormed : Instr → Bool
  | .wcalc _ => true
  | .eInit => true
  | .ePut _ _ width => decide (legalWidth width)
  | .ePuta _ _ => true
  | .eAdv => true
  | .eFlush => true
  | .eWidth => true
  | .rd _ => true
  | .dInit => true
  | .dGet width => decide (legalWidth width)
  | .dGeta => true
  | .dAdv => true
  | .dWidth => true

/-- The check as a proposition. -/
abbrev Instr.WellFormed (i : Instr) : Prop := i.wellFormed = true

end Sys2Proof
end

