-- ==== Sys2Proof/Decode.lean ====
section
/-! DEFINITION. Decoding of a command word, total on all 32-bit words and rejecting by name (spec/30_encoding.md R70 to R77),
and the encoder written from the same map. -/

namespace Sys2Proof

/-- The four fields of a command word (R70). -/
structure Fields where
  op : BitVec 4
  wf : BitVec 4
  code : Code
  sym : Byte
deriving DecidableEq, Repr

/-- Field extraction (R71): `op = w[31:28]`, `wf = w[27:24]`, `code = w[23:8]`, `sym = w[7:0]`. -/
def fieldsOf (w : Word) : Fields :=
  { op := w.extractLsb' 28 4, wf := w.extractLsb' 24 4, code := w.extractLsb' 8 16, sym := w.extractLsb' 0 8 }

/-- The word that holds four given fields (R70). -/
def wordOf (f : Fields) : Word := f.op ++ f.wf ++ f.code ++ f.sym

/-- The width operand a `wf` field encodes (R71): `width <- wf + 1`. -/
def widthOf (wf : BitVec 4) : Nat := wf.toNat + 1

/-- The `wf` field that encodes a width (R70: `width - 1`). -/
def wfOf (width : Nat) : BitVec 4 := BitVec.ofNat 4 (width - 1)

/-- Which of the three operand fields an opcode uses (R73, column `used fields`). -/
structure Used where
  wf : Bool
  code : Bool
  sym : Bool
deriving DecidableEq, Repr

/-- The used fields of each opcode (R73); a reserved opcode uses none. -/
def usedFields (op : BitVec 4) : Used :=
  match op.toNat with
  | 0x0 => { wf := false, code := true, sym := false }
  | 0x2 => { wf := true, code := true, sym := true }
  | 0x3 => { wf := false, code := true, sym := true }
  | 0x8 => { wf := false, code := false, sym := true }
  | 0xA => { wf := true, code := false, sym := false }
  | _ => { wf := false, code := false, sym := false }

/-- The command an opcode names, with its operands taken from the fields (R71, R73); none for the reserved opcodes 0x7, 0xD
and 0xF. -/
def commandOf (f : Fields) : Option Instr :=
  match f.op.toNat with
  | 0x0 => some (.wcalc f.code)
  | 0x1 => some .eInit
  | 0x2 => some (.ePut f.code f.sym (widthOf f.wf))
  | 0x3 => some (.ePuta f.code f.sym)
  | 0x4 => some .eAdv
  | 0x5 => some .eFlush
  | 0x6 => some .eWidth
  | 0x8 => some (.rd f.sym)
  | 0x9 => some .dInit
  | 0xA => some (.dGet (widthOf f.wf))
  | 0xB => some .dGeta
  | 0xC => some .dAdv
  | 0xE => some .dWidth
  | _ => none

/-- The channel an opcode addresses, when its command faults before it is decoded (R73; spec/60_exceptions.md R181: opcodes
0x1 to 0x6 name E, 0x9 to 0xE name D). The reserved opcodes name none (R74). -/
def channelOfOp (op : BitVec 4) : Option Channel :=
  match op.toNat with
  | 0x1 | 0x2 | 0x3 | 0x4 | 0x5 | 0x6 => some .e
  | 0x9 | 0xA | 0xB | 0xC | 0xE => some .d
  | _ => none

/-- What a word means (R76). -/
inductive Decoded where
  /-- A command with its operands. -/
  | command (i : Instr)
  /-- A word with a reserved opcode (R74). -/
  | illegalCommand
  /-- A word of opcode `op` with a nonzero field that `op` does not use (R75). -/
  | reservedField (op : BitVec 4)
deriving DecidableEq, Repr

/-- A field that the opcode does not use is nonzero (R75). -/
def reservedFieldSet (f : Fields) : Bool :=
  let u := usedFields f.op
  (!u.wf && f.wf != 0) || (!u.code && f.code != 0) || (!u.sym && f.sym != 0)

/-- The decoder (R76). -/
def decode (w : Word) : Decoded :=
  let f := fieldsOf w
  match commandOf f with
  | none => .illegalCommand
  | some i => if reservedFieldSet f then .reservedField f.op else .command i

/-- The fields of a command (R70, R73): its opcode, its operands in the fields it uses, and zero in every other field. -/
def encodeFields : Instr → Fields
  | .wcalc n => { op := 0x0, wf := 0, code := n, sym := 0 }
  | .eInit => { op := 0x1, wf := 0, code := 0, sym := 0 }
  | .ePut code sym width => { op := 0x2, wf := wfOf width, code := code, sym := sym }
  | .ePuta code sym => { op := 0x3, wf := 0, code := code, sym := sym }
  | .eAdv => { op := 0x4, wf := 0, code := 0, sym := 0 }
  | .eFlush => { op := 0x5, wf := 0, code := 0, sym := 0 }
  | .eWidth => { op := 0x6, wf := 0, code := 0, sym := 0 }
  | .rd reg => { op := 0x8, wf := 0, code := 0, sym := reg }
  | .dInit => { op := 0x9, wf := 0, code := 0, sym := 0 }
  | .dGet width => { op := 0xA, wf := wfOf width, code := 0, sym := 0 }
  | .dGeta => { op := 0xB, wf := 0, code := 0, sym := 0 }
  | .dAdv => { op := 0xC, wf := 0, code := 0, sym := 0 }
  | .dWidth => { op := 0xE, wf := 0, code := 0, sym := 0 }

/-- The word of a command: every command is exactly one word (R77). -/
def encode (i : Instr) : Word := wordOf (encodeFields i)

/-- The instruction the decoder reads from an opcode-table word of `nbits` bits; bits at or above `nbits` are 0. A command
word is a parallel port value with no byte order (spec/20_memory.md R57), so the table's bit numbering is the port's. -/
def decodeTableWord (nbits w : Nat) : Option Instr :=
  match decode (BitVec.ofNat 32 (w % 2 ^ nbits)) with
  | .command i => some i
  | .illegalCommand => none
  | .reservedField _ => none

end Sys2Proof
end

