-- ==== Sys2Proof/Machine/State.lean ====
section
/-! DEFINITION. The state of the machine as plain data: the two channel records of spec/10_state.md R20, the instance's
configuration, and the ports of R42 as the host sees them; the reasons a step can stop; the state after reset (R43). -/

namespace Sys2Proof.Machine

/-- A channel's state (spec/10_state.md R24, R31). Each of the four values of the 2-bit field has a name. -/
inductive ChanState where
  /-- No stream open: the state after hardware reset. -/
  | idle
  /-- A stream is open. -/
  | active
  /-- The stream was flushed (E), or a STOP pair was read or the input was exhausted (D). -/
  | done
  /-- A command to this channel faulted. -/
  | faulted
deriving DecidableEq, Repr

/-- Why channel D became DONE (R32). The value 3 of the 2-bit field is never written, so it has no name here. -/
inductive DoneReason where
  | notDone
  | stop
  | exhausted
deriving DecidableEq, Repr

/-- The fault causes (spec/60_exceptions.md R182). The codes 0x09 to 0xFF are never produced. A fault of this block is an
outcome of one command (R180): a NEXT state that holds the fault record and a FAULT response, not a stop of the machine. -/
inductive Cause where
  | illegalCommand
  | reservedField
  | notActive
  | codeTooWide
  | codeDomain
  | invalidCode
  | cursorOverflow
  | badRegister
deriving DecidableEq, Repr

/-- `rkind`, the kind of a response (spec/30_encoding.md R78). -/
inductive RKind where
  | ok
  | stop
  | exhausted
  | fault
deriving DecidableEq, Repr

/-- One response (R78): `rkind` and `rdata`. -/
structure Response where
  rkind : RKind
  rdata : Word
deriving DecidableEq, Repr

/-- Channel E, pack (spec/10_state.md R24 to R30). -/
structure EChannel where
  /-- `E.state` (R24). -/
  state : ChanState
  /-- `E.cause` (R25): the first fault's cause; `none` is the code 0, no fault. -/
  cause : Option Cause
  /-- `E.next` (R26): the code counter. -/
  next : Code
  /-- `E.cursor` (R27): the number of stream bits appended. -/
  cursor : BitVec 64
  /-- `E.acc` (R28): the partial output byte. -/
  acc : Byte
  /-- `E.resets` (R29): dictionary resets signalled, modulo 2^32. -/
  resets : BitVec 32
  /-- `E.out` (R30): the bytes emitted since the last `E.INIT`, in emission order. -/
  out : List Byte
deriving DecidableEq, Repr

/-- Channel D, unpack (R31 to R37). -/
structure DChannel where
  /-- `D.state` (R31). -/
  state : ChanState
  /-- `D.reason` (R32). -/
  reason : DoneReason
  /-- `D.cause` (R33); `none` is the code 0, no fault. -/
  cause : Option Cause
  /-- `D.next` (R34): the code counter. -/
  next : Code
  /-- `D.cursor` (R35): the number of stream bits consumed. -/
  cursor : BitVec 64
  /-- `D.resets` (R36). -/
  resets : BitVec 32
  /-- `D.src` (R37): the whole byte content of the current input stream. -/
  src : List Byte
deriving DecidableEq, Repr

/-- What the host does next at the block's inputs between two commands (R42, ports `cmd` and `rst`). -/
inductive HostMove where
  /-- Present one command word on `cmd`. -/
  | command (w : Word)
  /-- Assert and release `rst`. -/
  | rst
deriving DecidableEq, Repr

/-- The ports of the block (R42) as the host sees them: what it has still to send, and the record of what it has received
(spec/70_reset_and_hazards.md R223, the model's observations). -/
structure Ports where
  /-- The host's moves not yet performed, oldest first: its command sequence, with any hardware resets between commands. -/
  pending : List HostMove
  /-- The byte sequences the host delivers on `in_byte` for the streams it has still to open, one for each `D.INIT` that
  opens a stream, oldest first (R223; assumption log 4). -/
  deliveries : List (List Byte)
  /-- How many commands have been performed: the index of the next command in the host's command sequence (R22). -/
  index : Nat
  /-- The responses on `resp`, oldest first (R78, R80). -/
  responses : List Response
  /-- The DictReset pulses on `e_dict_reset` and `d_dict_reset`, oldest first (R39, spec/43_reset_arbiter.md R151). -/
  pulses : List Channel
  /-- The bytes offered on `out_byte` for streams that are no longer the current one, oldest first (R223: a byte emitted by an
  abandoned stream stays with the host). The whole history of the port is this list and then `E.out`. -/
  earlierOut : List Byte
deriving DecidableEq, Repr

/-- The state of the machine. -/
structure State where
  /-- The instance's configuration (spec/00_scope.md R7): no command changes it (R20). -/
  cfg : Config
  /-- Channel E. -/
  e : EChannel
  /-- Channel D. -/
  d : DChannel
  /-- The ports. -/
  ports : Ports
deriving DecidableEq, Repr

/-- The reasons the machine itself stops with a fault: THERE IS NONE. The block has no trap, and every fault of the spec is an
outcome of one command, a next state (spec/60_exceptions.md R180, R183). Nobody raises a value of this type; a machine that
never stops where the hardware goes on is neither safe nor unsafe for that. -/
inductive Fault where
deriving DecidableEq, Repr

/-- The reasons the machine has no meaning for a step. -/
inductive Refusal where
  /-- Raised by an arm of `exec` whose instruction has no meaning yet. No arm raises it. Safe. -/
  | notModelled (mnemonic : String)
  /-- Raised by `D.INIT` when the host delivers 2^61 bytes or more: the spec refuses that input (spec/93_implementation_defined.md
  U21; spec/70_reset_and_hazards.md R220, a host duty: the model has no move that breaks it). Safe: the model stops where a
  block might go on. -/
  | inputTooLong
deriving DecidableEq, Repr

/-- Channel E after hardware reset (R43). -/
def EChannel.reset : EChannel :=
  { state := .idle, cause := none, next := startCode, cursor := 0, acc := 0, resets := 0, out := [] }

/-- Channel D after hardware reset (R43). -/
def DChannel.reset : DChannel :=
  { state := .idle, reason := .notDone, cause := none, next := startCode, cursor := 0, resets := 0, src := [] }

/-- A run (R223): an instance of configuration `cfg`, released from reset, to which the host will present `pending` and for
whose input streams it will deliver `deliveries`. -/
def State.start (cfg : Config) (pending : List HostMove) (deliveries : List (List Byte)) : State :=
  { cfg := cfg, e := EChannel.reset, d := DChannel.reset,
    ports := { pending := pending, deliveries := deliveries, index := 0, responses := [], pulses := [], earlierOut := [] } }

/-- The machine right after reset: the instance with the spec's default parameters (R7; assumption log 2), every register at
the value of R43, and a host that has presented nothing (assumption log 3). -/
def State.reset : State := State.start Config.standard [] []

end Sys2Proof.Machine
end

