-- ==== Sys2Proof/Machine/Operands.lean ====
section
/-! DEFINITION. The codes of the enumerated fields and the layouts of `rdata` (spec/30_encoding.md R78, R79). -/

namespace Sys2Proof.Machine

/-- The code of `rkind` (R78). -/
def rkindCode : RKind → BitVec 2
  | .ok => 0
  | .stop => 1
  | .exhausted => 2
  | .fault => 3

/-- The code of a cause (spec/60_exceptions.md R182). -/
def causeCode : Cause → Byte
  | .illegalCommand => 0x01
  | .reservedField => 0x02
  | .notActive => 0x03
  | .codeTooWide => 0x04
  | .codeDomain => 0x05
  | .invalidCode => 0x06
  | .cursorOverflow => 0x07
  | .badRegister => 0x08

/-- PAIRDATA (R79): `[28:24]` width, `[23:8]` code, `[7:0]` symbol. -/
def pairData (width : Nat) (code : Code) (sym : Byte) : Word := 0#3 ++ BitVec.ofNat 5 width ++ code ++ sym

/-- WIDTHDATA (R79): `[4:0]` width. -/
def widthData (width : Nat) : Word := 0#27 ++ BitVec.ofNat 5 width

/-- ADVDATA (R79): `[16]` the dictionary reset fired, `[15:0]` the new counter value. -/
def advData (fired : Bool) (next : Code) : Word := 0#15 ++ BitVec.ofBool fired ++ next

/-- PADDATA (R79): `[2:0]` number of pad bits. -/
def padData (pad : Nat) : Word := 0#29 ++ BitVec.ofNat 3 pad

/-- EXHDATA (R79): `[4:0]` stream bits remaining. -/
def exhData (rem : Nat) : Word := 0#27 ++ BitVec.ofNat 5 rem

/-- FAULTDATA (R79): `[7:0]` the cause code. -/
def faultData (c : Cause) : Word := 0#24 ++ causeCode c

end Sys2Proof.Machine
end

