-- ==== Sys2Proof/Machine/Flags.lean ====
section
/-! DEFINITION. The status flags of the block (spec/10_state.md R41): the channel states, the first-cause rule, and the status
words RD reads them through (spec/44_register_access.md R171). The block has no condition codes. -/

namespace Sys2Proof.Machine

/-- The code of a channel state (R24, R31). -/
def chanStateCode : ChanState → BitVec 2
  | .idle => 0
  | .active => 1
  | .done => 2
  | .faulted => 3

/-- The code of `D.reason` (R32). -/
def doneReasonCode : DoneReason → BitVec 2
  | .notDone => 0
  | .stop => 1
  | .exhausted => 2

/-- The code a cause register holds (R25): 0 when no fault has occurred. -/
def causeRegister : Option Cause → Byte
  | none => 0
  | some c => causeCode c

/-- E_STATUS (R171): `[1:0]` E.state, `[15:8]` E.cause. -/
def eStatusWord (c : EChannel) : Word := 0#16 ++ causeRegister c.cause ++ 0#6 ++ chanStateCode c.state

/-- D_STATUS (R171): `[1:0]` D.state, `[3:2]` D.reason, `[15:8]` D.cause. -/
def dStatusWord (c : DChannel) : Word :=
  0#16 ++ causeRegister c.cause ++ 0#4 ++ doneReasonCode c.reason ++ chanStateCode c.state

/-- The cause a channel holds after a fault (spec/60_exceptions.md R181): the first cause is kept. -/
def causeAfterFault (state : ChanState) (held : Option Cause) (c : Cause) : Option Cause :=
  if state = .faulted then held else some c

/-- The fault record of channel E (R181). -/
def EChannel.faultedBy (ch : EChannel) (c : Cause) : EChannel :=
  { ch with cause := causeAfterFault ch.state ch.cause c, state := .faulted }

/-- The fault record of channel D (R181). -/
def DChannel.faultedBy (ch : DChannel) (c : Cause) : DChannel :=
  { ch with cause := causeAfterFault ch.state ch.cause c, state := .faulted }

/-- The state of the channel an opcode names (spec/60_exceptions.md R186). -/
def State.channelState (s : State) : Channel → ChanState
  | .e => s.e.state
  | .d => s.d.state

end Sys2Proof.Machine
end

