-- ==== Sys2Proof/Machine/Ops.lean ====
section
/-! DEFINITION. The operations the commands share: the code-width function, the two stream primitives, the response, raising a
fault and the one way out of it, the pair procedures of both channels, the arbiter, and the host's moves at the ports. -/

namespace Sys2Proof.Machine

/-! ### The code-width function -/

/-- `W(n)` (spec/40_code_width.md R100): the number of bits needed to encode `n`. -/
def codeWidth (n : Nat) : Nat := if n < 2 then 1 else Nat.log2 n + 1

/-! ### Streams -/

/-- `Pos(j)` (spec/20_memory.md R52): the bit position, inside a stored byte, of its j-th bit in stream order. -/
def pos (p : BitPlacement) (j : Nat) : Nat :=
  match p with
  | .lsb0 => j
  | .msb0 => 7 - j

/-- The stream bit `k` that a byte sequence stores (spec/00_scope.md R12, R52). -/
def streamBit (p : BitPlacement) (bytes : List Byte) (k : Nat) : Bool :=
  (bytes.getD (k / 8) 0).getLsbD (pos p (k % 8))

/-- One turn of the loop of `AppendBits` (R54): append the bit `b`, and emit the byte when it is complete. -/
def appendBit (p : BitPlacement) (b : Bool) (c : EChannel) : EChannel :=
  let acc := c.acc ||| ((BitVec.ofBool b).setWidth 8 <<< pos p (c.cursor.toNat % 8))
  let cursor := c.cursor + 1
  if cursor.toNat % 8 = 0 then { c with cursor := cursor, out := c.out ++ [acc], acc := 0 }
  else { c with cursor := cursor, acc := acc }

/-- `AppendBits(v, n)` (R54): append `v[0]`, …, `v[n-1]` in that order. -/
def appendBits (p : BitPlacement) (v : Nat) : Nat → EChannel → EChannel
  | 0, c => c
  | n + 1, c => appendBit p (v.testBit n) (appendBits p v n c)

/-- `ReadBits(k, n)` (R55): the n-bit value whose bit `i` is stream bit `k + i`. -/
def readBits (p : BitPlacement) (bytes : List Byte) (k : Nat) : Nat → Nat
  | 0 => 0
  | n + 1 => readBits p bytes k n + (streamBit p bytes (k + n)).toNat * 2 ^ n

/-- Channel D's one-byte input register (spec/10_state.md R38): the byte that contains stream bit `D.cursor`. It is a function of
`D.src` and `D.cursor`, so the state does not carry it, and no command observes it. -/
def DChannel.inputRegister (c : DChannel) : Option Byte := c.src[c.cursor.toNat / 8]?

/-- The number of stream bits channel D has left (spec/42_unpack.md R130, `rem`). -/
def DChannel.remaining (c : DChannel) : Nat := 8 * c.src.length - c.cursor.toNat

/-- The number of pad bits a flush appends (spec/41_pack.md R114). -/
def EChannel.padBits (c : EChannel) : Nat := (8 - c.cursor.toNat % 8) % 8

/-- Every byte offered on `out_byte` so far, in order (spec/20_memory.md R60, spec/70_reset_and_hazards.md R223). -/
def State.outPort (s : State) : List Byte := s.ports.earlierOut ++ s.e.out

/-! ### The response, a fault and the way out of it -/

/-- `respond(rkind, rdata)` (spec/30_encoding.md R80). -/
def respond (k : RKind) (data : Word) (s : State) : State :=
  { s with ports := { s.ports with responses := s.ports.responses ++ [{ rkind := k, rdata := data }] } }

/-- The fault record (spec/60_exceptions.md R181): written in the channel the command names, in none if it names none. -/
def recordFault (ch : Option Channel) (c : Cause) (s : State) : State :=
  match ch with
  | none => s
  | some .e => { s with e := s.e.faultedBy c }
  | some .d => { s with d := s.d.faultedBy c }

/-- `raise Fault(cause)` in a command that names the channel `ch` or none (R181, R185): the fault record, and the FAULT
response. Nothing else is written. -/
def raise (ch : Option Channel) (c : Cause) (s : State) : State :=
  respond .fault (faultData c) (recordFault ch c s)

/-- The check every channel command but INIT makes first (R186): `body` runs in ACTIVE, and NOT_ACTIVE is raised otherwise. -/
def whenActive (ch : Channel) (s body : State) : State :=
  if s.channelState ch = .active then body else raise (some ch) .notActive s

/-- Channel E opened (spec/41_pack.md R111; spec/10_state.md R43: the reset values, but ACTIVE). -/
def EChannel.opened : EChannel := { EChannel.reset with state := .active }

/-- Channel D opened on the stream `src` (spec/42_unpack.md R131). -/
def DChannel.opened (src : List Byte) : DChannel := { DChannel.reset with state := .active, src := src }

/-- `E.INIT`'s effect (R111), the one command that leaves FAULTED on channel E (spec/60_exceptions.md R192). The bytes already
emitted stay with the host, and the partial byte is lost. -/
def openE (s : State) : State :=
  respond .ok 0 { s with e := EChannel.opened, ports := { s.ports with earlierOut := s.outPort } }

/-- The byte sequence the host delivers for the next stream it opens; a host that has named none delivers no byte and signals
end-of-data (assumption log 4). -/
def nextDelivery (s : State) : List Byte := s.ports.deliveries.headD []

/-- `D.INIT`'s effect on the stream `src` (R131), the one command that leaves FAULTED on channel D (R192). -/
def openD (src : List Byte) (s : State) : State :=
  respond .ok 0 { s with d := DChannel.opened src, ports := { s.ports with deliveries := s.ports.deliveries.tail } }

/-! ### The pack channel -/

/-- The channel after one pair is appended (spec/30_encoding.md R81): the code field and then the symbol field. -/
def appendPair (p : BitPlacement) (code : Code) (sym : Byte) (width : Nat) (c : EChannel) : EChannel :=
  appendBits p sym.toNat 8 (appendBits p code.toNat width c)

/-- `PackPair(code, sym, width)` (spec/41_pack.md R110). -/
def packPair (code : Code) (sym : Byte) (width : Nat) (s : State) : State :=
  if s.e.cursor.toNat + width + 8 > 2 ^ 64 - 1 then raise (some .e) .cursorOverflow s
  else respond .ok (pairData width code sym) { s with e := appendPair s.cfg.bitPlacement code sym width s.e }

/-- The effect of `E.FLUSH` in ACTIVE (R114): the zero pad, and DONE. -/
def flushE (s : State) : State :=
  if s.e.cursor.toNat + s.e.padBits > 2 ^ 64 - 1 then raise (some .e) .cursorOverflow s
  else respond .ok (padData s.e.padBits)
    { s with e := { appendBits s.cfg.bitPlacement 0 s.e.padBits s.e with state := .done } }

/-! ### The unpack channel -/

/-- The code field of the pair at `D.cursor` (spec/42_unpack.md R130). -/
def codeAtCursor (s : State) (width : Nat) : Code :=
  BitVec.ofNat 16 (readBits s.cfg.bitPlacement s.d.src s.d.cursor.toNat width)

/-- The symbol field of the pair at `D.cursor` (R130). -/
def symAtCursor (s : State) (width : Nat) : Byte :=
  BitVec.ofNat 8 (readBits s.cfg.bitPlacement s.d.src (s.d.cursor.toNat + width) 8)

/-- Channel D with a pair of code width `width` consumed. -/
def DChannel.consumed (c : DChannel) (width : Nat) : DChannel :=
  { c with cursor := c.cursor + BitVec.ofNat 64 (width + 8) }

/-- Channel D ended, for the reason `r` (R32). -/
def DChannel.ended (c : DChannel) (r : DoneReason) : DChannel := { c with state := .done, reason := r }

/-- `UnpackPair(width, check)` (R130). -/
def unpackPair (width : Nat) (check : Bool) (s : State) : State :=
  if s.d.remaining < width + 8 then respond .exhausted (exhData s.d.remaining) { s with d := s.d.ended .exhausted }
  else if codeAtCursor s width = stopCode then
    respond .stop (pairData width (codeAtCursor s width) (symAtCursor s width))
      { s with d := (s.d.consumed width).ended .stop }
  else if check = true ∧ s.d.next ≤ codeAtCursor s width then raise (some .d) .invalidCode s
  else respond .ok (pairData width (codeAtCursor s width) (symAtCursor s width)) { s with d := s.d.consumed width }

/-! ### The arbiter -/

/-- The arbiter fires: the counter would reach MAX_CODE (spec/43_reset_arbiter.md R150). -/
def counterFires (cfg : Config) (next : Code) : Bool := next.toNat + 1 == cfg.maxCode

/-- The counter after an advance (R150). -/
def counterAfter (cfg : Config) (next : Code) : Code := if counterFires cfg next then startCode else next + 1

/-- The reset counter after an advance (R150); it wraps modulo 2^32. -/
def resetsAfter (cfg : Config) (next : Code) (resets : BitVec 32) : BitVec 32 :=
  if counterFires cfg next then resets + 1 else resets

/-- The DictReset pulse of channel `ch`, if the arbiter fires (R150, R151). -/
def pulseIf (fired : Bool) (ch : Channel) (s : State) : State :=
  if fired then { s with ports := { s.ports with pulses := s.ports.pulses ++ [ch] } } else s

/-- `Advance(E)` (R150). -/
def advanceE (s : State) : State :=
  respond .ok (advData (counterFires s.cfg s.e.next) (counterAfter s.cfg s.e.next))
    (pulseIf (counterFires s.cfg s.e.next) .e
      { s with e := { s.e with next := counterAfter s.cfg s.e.next, resets := resetsAfter s.cfg s.e.next s.e.resets } })

/-- `Advance(D)` (R150). -/
def advanceD (s : State) : State :=
  respond .ok (advData (counterFires s.cfg s.d.next) (counterAfter s.cfg s.d.next))
    (pulseIf (counterFires s.cfg s.d.next) .d
      { s with d := { s.d with next := counterAfter s.cfg s.d.next, resets := resetsAfter s.cfg s.d.next s.d.resets } })

/-! ### The registers RD reads -/

/-- The ID register (spec/44_register_access.md R172): the ASCII bytes "LZ78". -/
def idWord : Word := 0x4C5A3738

/-- The code of BIT_PLACEMENT in PARAM (R171). -/
def placementCode : BitPlacement → BitVec 1
  | .lsb0 => 0
  | .msb0 => 1

/-- PARAM (R171, R173): `[16:0]` MAX_CODE, `[17]` BIT_PLACEMENT. -/
def paramWord (cfg : Config) : Word := 0#14 ++ placementCode cfg.bitPlacement ++ BitVec.ofNat 17 cfg.maxCode

/-- E_ACC (R171): `[7:0]` E.acc, `[10:8]` `E.cursor mod 8`. -/
def eAccWord (c : EChannel) : Word := 0#21 ++ c.cursor.extractLsb' 0 3 ++ c.acc

/-- The register map (R171); `none` for the reserved numbers 0x0E to 0xFF. -/
def registerValue (reg : Byte) (s : State) : Option Word :=
  match reg.toNat with
  | 0x00 => some idWord
  | 0x01 => some (paramWord s.cfg)
  | 0x02 => some (eStatusWord s.e)
  | 0x03 => some (0#16 ++ s.e.next)
  | 0x04 => some (s.e.cursor.extractLsb' 0 32)
  | 0x05 => some (s.e.cursor.extractLsb' 32 32)
  | 0x06 => some (eAccWord s.e)
  | 0x07 => some s.e.resets
  | 0x08 => some (BitVec.ofNat 32 s.e.out.length)
  | 0x09 => some (dStatusWord s.d)
  | 0x0A => some (0#16 ++ s.d.next)
  | 0x0B => some (s.d.cursor.extractLsb' 0 32)
  | 0x0C => some (s.d.cursor.extractLsb' 32 32)
  | 0x0D => some s.d.resets
  | _ => none

/-! ### The host's moves -/

/-- Hardware reset (spec/70_reset_and_hazards.md R210): every piece of the block's state at its value of spec/10_state.md R43. The
configuration is not affected, no byte and no pulse is emitted, and what the host has received it keeps (assumption log 5). -/
def hardwareReset (s : State) : State :=
  { s with e := EChannel.reset, d := DChannel.reset, ports := { s.ports with earlierOut := s.outPort } }

/-- The host's next move, if it has one. -/
def nextMove (s : State) : Option HostMove := s.ports.pending.head?

/-- The host's next move, taken. -/
def takeMove (s : State) : State := { s with ports := { s.ports with pending := s.ports.pending.tail } }

/-- A command taken from the port (spec/10_state.md R22): every command advances the index by one, whatever it does. -/
def acceptCommand (s : State) : State :=
  { s with ports := { s.ports with pending := s.ports.pending.tail, index := s.ports.index + 1 } }

/-- A word with a reserved opcode (spec/30_encoding.md R74): a FAULT response, and no state change. -/
def rejectIllegal (s : State) : State := raise none .illegalCommand s

/-- A word of opcode `op` with a nonzero reserved field (R75). -/
def rejectReserved (op : BitVec 4) (s : State) : State := raise (channelOfOp op) .reservedField s

/-- `s` with the word `w` as the host's next move, in place of the one that stood there. -/
def presentWord (w : Word) (s : State) : State :=
  { s with ports := { s.ports with pending := .command w :: s.ports.pending.tail } }

end Sys2Proof.Machine
end

