-- ==== Sys2Proof/Machine/Arbiter.lean ====
section
/-! DEFINITION. The arbiter commands (spec/43_reset_arbiter.md): E.ADV, D.ADV. -/

namespace Sys2Proof.Machine

/-- `E.ADV` (R152). -/
def execEAdv (s : State) : Host.Outcome State Fault Refusal := .next (whenActive .e s (advanceE s))

/-- `D.ADV` (R153). -/
def execDAdv (s : State) : Host.Outcome State Fault Refusal := .next (whenActive .d s (advanceD s))

end Sys2Proof.Machine
end

