-- ==== Sys2Proof/Machine/Pack.lean ====
section
/-! DEFINITION. The pack commands (spec/41_pack.md): E.INIT, E.PUT, E.PUTA, E.FLUSH. -/

namespace Sys2Proof.Machine

/-- `E.INIT` (R111): accepted in every state. -/
def execEInit (s : State) : Host.Outcome State Fault Refusal := .next (openE s)

/-- `E.PUT code, sym, width` (R112): CODE_DOMAIN, then CODE_TOO_WIDE, then the cursor's check (spec/60_exceptions.md R187). -/
def execEPut (code : Code) (sym : Byte) (width : Nat) (s : State) : Host.Outcome State Fault Refusal :=
  .next (whenActive .e s
    (if s.cfg.maxCode ≤ code.toNat then raise (some .e) .codeDomain s
    else if 2 ^ width ≤ code.toNat then raise (some .e) .codeTooWide s
    else packPair code sym width s))

/-- `E.PUTA code, sym` (R113): the width is `W(E.next)`. -/
def execEPuta (code : Code) (sym : Byte) (s : State) : Host.Outcome State Fault Refusal :=
  .next (whenActive .e s
    (if s.e.next ≤ code then raise (some .e) .invalidCode s
    else packPair code sym (codeWidth s.e.next.toNat) s))

/-- `E.FLUSH` (R114). -/
def execEFlush (s : State) : Host.Outcome State Fault Refusal := .next (whenActive .e s (flushE s))

end Sys2Proof.Machine
end

