-- ==== Sys2Proof/Machine/Register.lean ====
section
/-! DEFINITION. Register access (spec/44_register_access.md): RD. -/

namespace Sys2Proof.Machine

/-- `RD reg` (R170): accepted in every channel state, and writes no state, whether it reads a register or faults. -/
def execRd (reg : Byte) (s : State) : Host.Outcome State Fault Refusal :=
  .next (match registerValue reg s with
    | some v => respond .ok v s
    | none => raise none .badRegister s)

end Sys2Proof.Machine
end

