-- ==== Sys2Proof/Machine/Unpack.lean ====
section
/-! DEFINITION. The unpack commands (spec/42_unpack.md): D.INIT, D.GET, D.GETA. -/

namespace Sys2Proof.Machine

/-- `D.INIT` (R131): accepted in every state. It binds the byte sequence the host delivers for the new stream; an input of 2^61
bytes or more is refused (spec/93_implementation_defined.md U21). -/
def execDInit (s : State) : Host.Outcome State Fault Refusal :=
  if (nextDelivery s).length < 2 ^ 61 then .next (openD (nextDelivery s) s) else .refused .inputTooLong

/-- `D.GET width` (R132): the decoded code is not checked against `D.next`. -/
def execDGet (width : Nat) (s : State) : Host.Outcome State Fault Refusal :=
  .next (whenActive .d s (unpackPair width false s))

/-- `D.GETA` (R133): the width is `W(D.next)`. -/
def execDGeta (s : State) : Host.Outcome State Fault Refusal :=
  .next (whenActive .d s (unpackPair (codeWidth s.d.next.toNat) true s))

end Sys2Proof.Machine
end

