-- ==== Sys2Proof/Machine/Width.lean ====
section
/-! DEFINITION. The code-width commands (spec/40_code_width.md): WCALC, E.WIDTH, D.WIDTH. -/

namespace Sys2Proof.Machine

/-- `WCALC n` (R101): accepted in every channel state, and writes no state. -/
def execWcalc (n : Code) (s : State) : Host.Outcome State Fault Refusal :=
  .next (respond .ok (widthData (codeWidth n.toNat)) s)

/-- `E.WIDTH` (R102). -/
def execEWidth (s : State) : Host.Outcome State Fault Refusal :=
  .next (whenActive .e s (respond .ok (widthData (codeWidth s.e.next.toNat)) s))

/-- `D.WIDTH` (R103). -/
def execDWidth (s : State) : Host.Outcome State Fault Refusal :=
  .next (whenActive .d s (respond .ok (widthData (codeWidth s.d.next.toNat)) s))

end Sys2Proof.Machine
end

