-- ==== Sys2Proof/Machine/Dispatch.lean ====
section
/-! DEFINITION. The dispatch of each command to its meaning: one arm per row of spec/opcode_table.json. -/

namespace Sys2Proof.Machine

/-- The meaning of a command at a state. -/
def exec (i : Instr) (s : State) : Host.Outcome State Fault Refusal :=
  match i with
  | .wcalc n => Sys2Proof.Machine.execWcalc n s
  | .eInit => Sys2Proof.Machine.execEInit s
  | .ePut code sym width => Sys2Proof.Machine.execEPut code sym width s
  | .ePuta code sym => Sys2Proof.Machine.execEPuta code sym s
  | .eAdv => Sys2Proof.Machine.execEAdv s
  | .eFlush => Sys2Proof.Machine.execEFlush s
  | .eWidth => Sys2Proof.Machine.execEWidth s
  | .rd reg => Sys2Proof.Machine.execRd reg s
  | .dInit => Sys2Proof.Machine.execDInit s
  | .dGet width => Sys2Proof.Machine.execDGet width s
  | .dGeta => Sys2Proof.Machine.execDGeta s
  | .dAdv => Sys2Proof.Machine.execDAdv s
  | .dWidth => Sys2Proof.Machine.execDWidth s

end Sys2Proof.Machine
end

