-- ==== Sys2Proof/Machine/Step.lean ====
section
/-! DEFINITION. One step of the machine: the host's next move (spec/10_state.md R22, R42), performed whole before the next one
begins (spec/20_memory.md R63). -/

namespace Sys2Proof.Machine

/-- One step. With no move pending the block does nothing and holds its state (spec/60_exceptions.md R197); a hardware reset is
the reset step (R42); a command word is taken from the port, decoded, and executed or rejected by its fault. -/
def step (s : State) : Host.Outcome State Fault Refusal :=
  match nextMove s with
  | none => .next s
  | some .rst => .next (hardwareReset (takeMove s))
  | some (.command w) =>
    match decode w with
    | .command i => exec i (acceptCommand s)
    | .illegalCommand => .next (rejectIllegal (acceptCommand s))
    | .reservedField op => .next (rejectReserved op (acceptCommand s))

/-- `s` with an opcode-table word as the host's next move on the command port: the block fetches nothing (spec/20_memory.md R67),
so this stands for the host presenting the word (assumption log 3). -/
def State.withFetchWord (s : State) (nbits w : Nat) : State := presentWord (BitVec.ofNat 32 (w % 2 ^ nbits)) s

end Sys2Proof.Machine
end

