-- ==== Sys2Proof/Machine/Assembler.lean ====
section
/-! DEFINITION. The assembler syntax and the pseudo-instructions (spec/30_encoding.md R84, R85): one line of text to the command
words it stands for, or nothing where an assembler refuses the line. Text is a list of characters. -/

namespace Sys2Proof.Machine

/-- The value of a decimal digit. -/
def digitValue (c : Char) : Option Nat :=
  if 48 ≤ c.toNat ∧ c.toNat ≤ 57 then some (c.toNat - 48) else none

/-- The value of a hexadecimal digit, of either case. -/
def hexDigitValue (c : Char) : Option Nat :=
  if 65 ≤ c.toNat ∧ c.toNat ≤ 70 then some (c.toNat - 55)
  else if 97 ≤ c.toNat ∧ c.toNat ≤ 102 then some (c.toNat - 87)
  else digitValue c

/-- The number a list of digits writes in a base, most significant digit first, given the value of the digits before them. -/
def numeralFrom (base : Nat) (digit : Char → Option Nat) (before : Nat) : List Char → Option Nat
  | [] => some before
  | c :: cs => (digit c).bind fun d => numeralFrom base digit (before * base + d) cs

/-- A number (R84): decimal, `0x` hexadecimal, or `'c'`, the byte value of an ASCII character. -/
def number : List Char → Option Nat
  | [] => none
  | ['\'', c, '\''] => if c.toNat < 128 then some c.toNat else none
  | '0' :: 'x' :: d :: ds => numeralFrom 16 hexDigitValue 0 (d :: ds)
  | c :: cs => numeralFrom 10 digitValue 0 (c :: cs)

/-- The register names (spec/44_register_access.md R171), in the order of their numbers from 0x00. -/
def registerNames : List (List Char) :=
  [ ['I', 'D'], ['P', 'A', 'R', 'A', 'M'], ['E', '_', 'S', 'T', 'A', 'T', 'U', 'S'], ['E', '_', 'N', 'E', 'X', 'T'],
    ['E', '_', 'C', 'U', 'R', '_', 'L', 'O'], ['E', '_', 'C', 'U', 'R', '_', 'H', 'I'], ['E', '_', 'A', 'C', 'C'],
    ['E', '_', 'R', 'E', 'S', 'E', 'T', 'S'], ['E', '_', 'O', 'U', 'T', 'L', 'E', 'N'] ] ++
  [ ['D', '_', 'S', 'T', 'A', 'T', 'U', 'S'], ['D', '_', 'N', 'E', 'X', 'T'], ['D', '_', 'C', 'U', 'R', '_', 'L', 'O'],
    ['D', '_', 'C', 'U', 'R', '_', 'H', 'I'], ['D', '_', 'R', 'E', 'S', 'E', 'T', 'S'] ]

/-- A register operand (R84): a number, or a name of the register map. -/
def registerNumber (t : List Char) : Option Nat :=
  if t ∈ registerNames then some (registerNames.idxOf t) else number t

/-- An operand in the range of its field (R84): an assembler refuses one outside it and never wraps it. -/
def inField (w : Nat) (v : Option Nat) : Option (BitVec w) :=
  v.bind fun n => if n < 2 ^ w then some (BitVec.ofNat w n) else none

/-- A width operand (R84): 1 to 16. -/
def widthOperand (v : Option Nat) : Option Nat := v.bind fun n => if legalWidth n then some n else none

/-- The commands `WCALC 0` that NOP stands for, and the other pseudo-instructions (R85). -/
def pseudoNop : List Instr := [.wcalc 0]

/-- `E.EMIT code, sym` (R85): `E.PUTA code, sym` and then `E.ADV`. -/
def pseudoEmit (code : Code) (sym : Byte) : List Instr := [.ePuta code sym, .eAdv]

/-- `E.STOP` (R85): `E.PUTA 1, 0`. -/
def pseudoStop : List Instr := [.ePuta stopCode 0]

/-- `E.END` (R85): `E.PUTA 1, 0` and then `E.FLUSH`. -/
def pseudoEnd : List Instr := [.ePuta stopCode 0, .eFlush]

/-- What a line of assembler can name (R84, R85): the thirteen commands and the four pseudo-instructions. -/
inductive Mnemonic where
  | wcalc | eInit | ePut | ePuta | eAdv | eFlush | eWidth | rd | dInit | dGet | dGeta | dAdv | dWidth
  | nop | eEmit | eStop | eEnd
deriving DecidableEq, Repr

/-- The mnemonics, in upper case (R84, R85). -/
def mnemonicTexts : List (List Char × Mnemonic) :=
  [ (['W', 'C', 'A', 'L', 'C'], .wcalc), (['E', '.', 'I', 'N', 'I', 'T'], .eInit), (['E', '.', 'P', 'U', 'T'], .ePut),
    (['E', '.', 'P', 'U', 'T', 'A'], .ePuta), (['E', '.', 'A', 'D', 'V'], .eAdv), (['E', '.', 'F', 'L', 'U', 'S', 'H'], .eFlush),
    (['E', '.', 'W', 'I', 'D', 'T', 'H'], .eWidth), (['R', 'D'], .rd), (['D', '.', 'I', 'N', 'I', 'T'], .dInit) ] ++
  [ (['D', '.', 'G', 'E', 'T'], .dGet), (['D', '.', 'G', 'E', 'T', 'A'], .dGeta), (['D', '.', 'A', 'D', 'V'], .dAdv),
    (['D', '.', 'W', 'I', 'D', 'T', 'H'], .dWidth), (['N', 'O', 'P'], .nop), (['E', '.', 'E', 'M', 'I', 'T'], .eEmit),
    (['E', '.', 'S', 'T', 'O', 'P'], .eStop), (['E', '.', 'E', 'N', 'D'], .eEnd) ]

/-- The mnemonic a text writes. -/
def mnemonicOf (t : List Char) : Option Mnemonic := (mnemonicTexts.find? fun row => row.1 = t).map fun row => row.2

/-- The operands of E.PUTA and E.EMIT: a code and a symbol (R84). -/
def codeAndSym (code sym : List Char) : Option (Code × Byte) :=
  (inField 16 (number code)).bind fun c => (inField 8 (number sym)).map fun y => (c, y)

/-- The commands a mnemonic stands for with its operands (R84, R85); none where the assembler refuses the operands. -/
def commandsOf : Mnemonic → List (List Char) → Option (List Instr)
  | .wcalc, [n] => (inField 16 (number n)).map fun n => [.wcalc n]
  | .eInit, [] => some [.eInit]
  | .ePut, [code, sym, width] =>
    (codeAndSym code sym).bind fun p => (widthOperand (number width)).map fun w => [.ePut p.1 p.2 w]
  | .ePuta, [code, sym] => (codeAndSym code sym).map fun p => [.ePuta p.1 p.2]
  | .eAdv, [] => some [.eAdv]
  | .eFlush, [] => some [.eFlush]
  | .eWidth, [] => some [.eWidth]
  | .rd, [reg] => (inField 8 (registerNumber reg)).map fun reg => [.rd reg]
  | .dInit, [] => some [.dInit]
  | .dGet, [width] => (widthOperand (number width)).map fun w => [.dGet w]
  | .dGeta, [] => some [.dGeta]
  | .dAdv, [] => some [.dAdv]
  | .dWidth, [] => some [.dWidth]
  | .nop, [] => some pseudoNop
  | .eEmit, [code, sym] => (codeAndSym code sym).map fun p => pseudoEmit p.1 p.2
  | .eStop, [] => some pseudoStop
  | .eEnd, [] => some pseudoEnd
  | _, _ => none

/-- A space or a tab. -/
def isBlank (c : Char) : Bool := c = ' ' || c = '\t'

/-- Text without the blanks before and after it. -/
def trimBlanks (t : List Char) : List Char := ((t.dropWhile isBlank).reverse.dropWhile isBlank).reverse

/-- The line without its comment: `;` starts one (R84), but where it is the character of an operand `';'` (assumption log 8). -/
def withoutComment : List Char → List Char
  | '\'' :: c :: '\'' :: rest => '\'' :: c :: '\'' :: withoutComment rest
  | c :: rest => if c = ';' then [] else c :: withoutComment rest
  | [] => []

/-- A text cut at its commas, but where one is the character of an operand `','` (assumption log 8); `before` is what stands before
it since the last comma. -/
def cutAtCommas (before : List Char) : List Char → List (List Char)
  | '\'' :: c :: '\'' :: rest => cutAtCommas (before ++ ['\'', c, '\'']) rest
  | c :: rest => if c = ',' then before :: cutAtCommas [] rest else cutAtCommas (before ++ [c]) rest
  | [] => [before]

/-- The operands of a line: separated by commas, none if there is no text. -/
def operandsOf (t : List Char) : List (List Char) :=
  if trimBlanks t = [] then [] else (cutAtCommas [] t).map trimBlanks

/-- The commands one line of text stands for (R84): one command, the commands of one pseudo-instruction, or none at all where
the line is empty. -/
def commandsOfLine (line : List Char) : Option (List Instr) :=
  let t := trimBlanks (withoutComment line)
  if t = [] then some []
  else (mnemonicOf (t.takeWhile fun c => !isBlank c)).bind fun m => commandsOf m (operandsOf (t.dropWhile fun c => !isBlank c))

/-- The command words one line assembles to. -/
def assembleLine (line : List Char) : Option (List Word) := (commandsOfLine line).map fun is => is.map encode

end Sys2Proof.Machine
end

