-- ==== Sys2Proof/Machine/Protocol.lean ====
section
/-! DEFINITION. A host that drives the block as the source's encoder and decoder do (spec/43_reset_arbiter.md R156 to R159). The
rules are the host's duties and no behaviour of the block; the dictionaries are the host's own (spec/00_scope.md R4). -/

namespace Sys2Proof.Machine

/-- The host issues one command and takes its response (spec/70_reset_and_hazards.md R217): none if the block gives none. -/
def issue (i : Instr) (s : State) : Option (Response × State) :=
  match step (presentWord (encode i) s) with
  | .next t => t.ports.responses.getLast?.map fun r => (r, t)
  | .fault _ => none
  | .refused _ => none

/-- The host issues one command that must complete with OK; it stops on any other response (R221). -/
def issueOk (i : Instr) (s : State) : Option (Word × State) :=
  (issue i s).bind fun r => if r.1.rkind = .ok then some (r.1.rdata, r.2) else none

/-- The counter value of an ADV response (spec/30_encoding.md R79, ADVDATA). -/
def advCounter (data : Word) : Code := data.extractLsb' 0 16

/-- The dictionary-reset bit of an ADV response (R79). -/
def advFired (data : Word) : Bool := data.getLsbD 16

/-- The code of a pair response (R79, PAIRDATA). -/
def pairCode (data : Word) : Code := data.extractLsb' 8 16

/-- The symbol of a pair response (R79). -/
def pairSym (data : Word) : Byte := data.extractLsb' 0 8

/-! ### The encoder -/

/-- An edge of the encoder's trie: `child` is reached from `parent` by `sym`. -/
structure TrieEdge where
  parent : Code
  sym : Byte
  child : Code
deriving DecidableEq, Repr

/-- The encoder's host state (R156): the trie without its root, the current node, how it was reached (`none` at the root), and
the code of the next entry, which is the counter of the last ADV response, or START_CODE at first. -/
structure EncoderHost where
  trie : List TrieEdge
  cur : Code
  reachedBy : Option (Code × Byte)
  next : Code
deriving DecidableEq, Repr

/-- The encoder at the start of a stream. -/
def EncoderHost.initial : EncoderHost := { trie := [], cur := emptyCode, reachedBy := none, next := startCode }

/-- The child of a node for a symbol. -/
def trieChild (trie : List TrieEdge) (node : Code) (sym : Byte) : Option Code :=
  (trie.find? fun x => x.parent = node ∧ x.sym = sym).map fun x => x.child

/-- The commands of a miss (R156): `E.PUTA code(cur), s`, the new entry, `E.ADV`, and the trie's reset if it fired. -/
def encodeMiss (sym : Byte) (h : EncoderHost) (s : State) : Option (EncoderHost × State) :=
  (issueOk (.ePuta h.cur sym) s).bind fun put =>
    (issueOk .eAdv put.2).map fun adv =>
      let trie := h.trie ++ [{ parent := h.cur, sym := sym, child := h.next }]
      ({ trie := if advFired adv.1 then [] else trie, cur := emptyCode, reachedBy := none, next := advCounter adv.1 }, adv.2)

/-- One input symbol (R156): a hit moves to the child and issues no command. -/
def encodeSymbol (sym : Byte) (h : EncoderHost) (s : State) : Option (EncoderHost × State) :=
  match trieChild h.trie h.cur sym with
  | some child => some ({ h with cur := child, reachedBy := some (h.cur, sym) }, s)
  | none => encodeMiss sym h s

/-- All the input symbols, in order. -/
def encodeSymbols : List Byte → EncoderHost → State → Option (EncoderHost × State)
  | [], h, s => some (h, s)
  | sym :: rest, h, s => (encodeSymbol sym h s).bind fun r => encodeSymbols rest r.1 r.2

/-- The pending match at the end of the input (R157): `E.PUTA code(parent(cur)), last(cur)` and then `E.ADV`. -/
def encodePending (h : EncoderHost) (s : State) : Option State :=
  match h.reachedBy with
  | none => some s
  | some (parent, last) => (issueOk (.ePuta parent last) s).bind fun put => (issueOk .eAdv put.2).map fun adv => adv.2

/-- The end of the stream (R158): `E.PUTA 1, 0` and then `E.FLUSH`, with no ADV after the STOP pair. -/
def encodeEnd (s : State) : Option State :=
  (issueOk (.ePuta stopCode 0) s).bind fun put => (issueOk .eFlush put.2).map fun flush => flush.2

/-- The encoder on the open channel E of a block, from `E.INIT` to `E.FLUSH`. -/
def encodeOn (input : List Byte) (s : State) : Option State :=
  (issueOk .eInit s).bind fun init =>
    (encodeSymbols input EncoderHost.initial init.2).bind fun r => (encodePending r.1 r.2).bind encodeEnd

/-- The bytes an instance of configuration `cfg`, fresh from reset, emits for an input. -/
def encodeStream (cfg : Config) (input : List Byte) : Option (List Byte) :=
  (encodeOn input (State.start cfg [] [])).map fun s => s.e.out

/-! ### The decoder -/

/-- The decoder's host state (R159): its word table without `T[0]`, the code of the next entry, and the output so far. -/
structure DecoderHost where
  table : List (Code × List Byte)
  next : Code
  output : List Byte
deriving DecidableEq, Repr

/-- The decoder at the start of a stream: the table holds only `T[0]`, the empty sequence. -/
def DecoderHost.initial : DecoderHost := { table := [], next := startCode, output := [] }

/-- `T[c]` (R159). -/
def tableWord (table : List (Code × List Byte)) (c : Code) : Option (List Byte) :=
  if c = emptyCode then some [] else (table.find? fun x => x.1 = c).map fun x => x.2

/-- The commands after an OK read of `(c, y)` (R159): store and output the word, `D.ADV`, and reset the table if it fired. -/
def decodePair (c : Code) (y : Byte) (h : DecoderHost) (s : State) : Option (DecoderHost × State) :=
  (tableWord h.table c).bind fun prefixWord =>
    (issueOk .dAdv s).map fun adv =>
      let word := prefixWord ++ [y]
      ({ table := if advFired adv.1 then [] else h.table ++ [(h.next, word)], next := advCounter adv.1,
         output := h.output ++ word }, adv.2)

/-- The decoder's loop (R159), for at most `fuel` reads: it stops on STOP or EXHAUSTED, with no ADV. -/
def decodeLoop : Nat → DecoderHost → State → Option (List Byte × State)
  | 0, _, _ => none
  | fuel + 1, h, s =>
    (issue .dGeta s).bind fun r =>
      match r.1.rkind with
      | .ok => (decodePair (pairCode r.1.rdata) (pairSym r.1.rdata) h r.2).bind fun n => decodeLoop fuel n.1 n.2
      | .stop => some (h.output, r.2)
      | .exhausted => some (h.output, r.2)
      | .fault => none

/-- The decoder on channel D of a block that the host delivers `bytes` to. Each read but the last consumes at least one bit. -/
def decodeStream (cfg : Config) (bytes : List Byte) : Option (List Byte) :=
  (issueOk .dInit (State.start cfg [] [bytes])).bind fun init =>
    (decodeLoop (8 * bytes.length + 1) DecoderHost.initial init.2).map fun r => r.1

end Sys2Proof.Machine
end

