-- ==== Sys2Proof/Safety.lean ====
section
/-! DEFINITION. What every state of a run satisfies (the invariants the spec states of the two channels), and the states a run
reaches. -/

namespace Sys2Proof.Machine

/-- The counter's range (spec/10_state.md R26, R34): `START_CODE ≤ next < MAX_CODE`. -/
abbrev counterInRange (cfg : Config) (next : Code) : Prop := startCode.toNat ≤ next.toNat ∧ next.toNat < cfg.maxCode

/-- The invariants of channel E. -/
structure EChannel.Inv (cfg : Config) (c : EChannel) : Prop where
  /-- R26. -/
  counter : counterInRange cfg c.next
  /-- R40: every completed byte has been emitted, and only the partial byte is held. -/
  cursor : c.cursor.toNat = 8 * c.out.length + c.cursor.toNat % 8
  /-- R28: every bit of `E.acc` beyond the stream bits it holds is 0. -/
  acc : ∀ j, c.cursor.toNat % 8 ≤ j → j < 8 → c.acc.getLsbD (pos cfg.bitPlacement j) = false
  /-- R25: the cause is 0 exactly when no fault has occurred since the channel was last opened or reset. -/
  cause : c.state = .faulted ↔ c.cause ≠ none
  /-- spec/41_pack.md R114: a flushed stream ends on a byte boundary. -/
  flushed : c.state = .done → c.cursor.toNat % 8 = 0

/-- The invariants of channel D. -/
structure DChannel.Inv (cfg : Config) (c : DChannel) : Prop where
  /-- R34. -/
  counter : counterInRange cfg c.next
  /-- R35. -/
  cursor : c.cursor.toNat ≤ 8 * c.src.length
  /-- spec/20_memory.md R50: the input stream holds less than 2^61 bytes. -/
  src : c.src.length < 2 ^ 61
  /-- R33. -/
  cause : c.state = .faulted ↔ c.cause ≠ none
  /-- R32: DONE has a reason. -/
  done : c.state = .done → c.reason ≠ .notDone
  /-- R32: a stream that is not open, or is still open, has none. -/
  notDone : c.state = .idle ∨ c.state = .active → c.reason = .notDone

/-- The invariant of the machine: a legal configuration and both channels' invariants. -/
structure State.Inv (s : State) : Prop where
  legal : s.cfg.Legal
  e : s.e.Inv s.cfg
  d : s.d.Inv s.cfg

/-- The states a run reaches (spec/70_reset_and_hazards.md R213, R223): a run starts at a released reset of a legal instance,
and goes on by steps. -/
inductive Reachable : State → Prop where
  | start (cfg : Config) (legal : cfg.Legal) (pending : List HostMove) (deliveries : List (List Byte)) :
      Reachable (State.start cfg pending deliveries)
  | step (s t : State) (reached : Reachable s) (stepped : step s = .next t) : Reachable t

end Sys2Proof.Machine
end

