-- ==== Sys2Proof/Certificates/Slice0/Obligations.lean ====
section
/-! DEFINITION. The statements for the provers. First the vocabulary they are written in, from the spec's own words and apart
from the model's operations; then the statements, section file by section file. -/

namespace Sys2Proof.Spec

open Sys2Proof.Machine

/-! ### Vocabulary -/

/-- The bit position in a stored byte of its `j`-th stream bit (spec/20_memory.md R52). -/
def placed (p : BitPlacement) (j : Nat) : Nat := if p = .lsb0 then j else 7 - j

/-- The stream bit `k` a byte sequence holds: in byte `k div 8`, at position `Pos(k mod 8)` (R52). -/
def storedBit (p : BitPlacement) (bytes : List Byte) (k : Nat) : Bool := (bytes.getD (k / 8) 0).getLsbD (placed p (k % 8))

/-- Stream bit `k` of channel E: in an emitted byte, or in the partial byte after them (spec/10_state.md R28, R30). -/
def eBit (p : BitPlacement) (c : EChannel) (k : Nat) : Bool := storedBit p (c.out ++ [c.acc]) k

/-- `s` with one more response on the port. -/
def answered (s : State) (k : RKind) (data : Word) : State :=
  { s with ports := { s.ports with responses := s.ports.responses ++ [{ rkind := k, rdata := data }] } }

/-- The code of a cause (spec/60_exceptions.md R182). -/
def codeOfCause (c : Cause) : Nat :=
  match c with
  | .illegalCommand => 1
  | .reservedField => 2
  | .notActive => 3
  | .codeTooWide => 4
  | .codeDomain => 5
  | .invalidCode => 6
  | .cursorOverflow => 7
  | .badRegister => 8

/-- The code of a channel's state (spec/10_state.md R24, R31). -/
def codeOfState (c : ChanState) : Nat :=
  match c with
  | .idle => 0
  | .active => 1
  | .done => 2
  | .faulted => 3

/-- The code of the reason channel D is DONE for (spec/10_state.md R32). -/
def codeOfReason (r : DoneReason) : Nat :=
  match r with
  | .notDone => 0
  | .stop => 1
  | .exhausted => 2

/-- A fault that names no channel: only the response (R185). -/
def faultNone (s : State) (c : Cause) : State := answered s .fault (BitVec.ofNat 32 (codeOfCause c))

/-- A fault of channel E: the fault record and the response (R181). -/
def faultE (s : State) (c : Cause) : State :=
  faultNone { s with e := { s.e with state := .faulted, cause := if s.e.state = .faulted then s.e.cause else some c } } c

/-- A fault of channel D (R181). -/
def faultD (s : State) (c : Cause) : State :=
  faultNone { s with d := { s.d with state := .faulted, cause := if s.d.state = .faulted then s.d.cause else some c } } c

/-- `s` with the command at the port taken, and the index of the next command advanced (spec/10_state.md R22). -/
def taken (s : State) (rest : List HostMove) : State :=
  { s with ports := { s.ports with pending := rest, index := s.ports.index + 1 } }

/-- PAIRDATA (spec/30_encoding.md R79) as a number. -/
def pairNumber (width : Nat) (code : Code) (sym : Byte) : Word :=
  BitVec.ofNat 32 (width * 2 ^ 24 + code.toNat * 2 ^ 8 + sym.toNat)

/-- A row of the opcode map (R73): the opcode, its channel, the fields it uses, the command made of a word's fields (R71), and
its match and mask in opcode_table.json. -/
structure OpRow where
  op : BitVec 4
  channel : Option Channel
  usesWf : Bool
  usesCode : Bool
  usesSym : Bool
  command : Word → Instr
  matchWord : Word
  mask : Word

/-- The opcode map (R73), without the reserved opcodes. -/
def opcodeMap : List OpRow :=
  [ ⟨0x0, none, false, true, false, fun w => .wcalc (w.extractLsb' 8 16), 0x00000000, 0xFF0000FF⟩,
    ⟨0x1, some .e, false, false, false, fun _ => .eInit, 0x10000000, 0xFFFFFFFF⟩,
    ⟨0x2, some .e, true, true, true,
      fun w => .ePut (w.extractLsb' 8 16) (w.extractLsb' 0 8) ((w.extractLsb' 24 4).toNat + 1), 0x20000000, 0xF0000000⟩,
    ⟨0x3, some .e, false, true, true, fun w => .ePuta (w.extractLsb' 8 16) (w.extractLsb' 0 8), 0x30000000, 0xFF000000⟩,
    ⟨0x4, some .e, false, false, false, fun _ => .eAdv, 0x40000000, 0xFFFFFFFF⟩,
    ⟨0x5, some .e, false, false, false, fun _ => .eFlush, 0x50000000, 0xFFFFFFFF⟩,
    ⟨0x6, some .e, false, false, false, fun _ => .eWidth, 0x60000000, 0xFFFFFFFF⟩ ] ++
  [ ⟨0x8, none, false, false, true, fun w => .rd (w.extractLsb' 0 8), 0x80000000, 0xFFFFFF00⟩,
    ⟨0x9, some .d, false, false, false, fun _ => .dInit, 0x90000000, 0xFFFFFFFF⟩,
    ⟨0xA, some .d, true, false, false, fun w => .dGet ((w.extractLsb' 24 4).toNat + 1), 0xA0000000, 0xF0FFFFFF⟩,
    ⟨0xB, some .d, false, false, false, fun _ => .dGeta, 0xB0000000, 0xFFFFFFFF⟩,
    ⟨0xC, some .d, false, false, false, fun _ => .dAdv, 0xC0000000, 0xFFFFFFFF⟩,
    ⟨0xE, some .d, false, false, false, fun _ => .dWidth, 0xE0000000, 0xFFFFFFFF⟩ ]

/-- The opcode of a word (R70). -/
def opOf (w : Word) : BitVec 4 := w.extractLsb' 28 4

/-- The channel a word's opcode names (R73, R181): that of its row; a reserved opcode names none (R74). -/
def namedChannel (w : Word) : Option Channel := (opcodeMap.find? fun r => opOf w = r.op).bind fun r => r.channel

/-- A fault of a command that names the channel `ch`, or none (R181, R185). -/
def faultNamed (ch : Option Channel) (s : State) (c : Cause) : State :=
  match ch with
  | none => faultNone s c
  | some .e => faultE s c
  | some .d => faultD s c

/-- A field that the row does not use is nonzero in the word (R75). -/
def reservedSet (r : OpRow) (w : Word) : Prop :=
  (r.usesWf = false ∧ w.extractLsb' 24 4 ≠ 0) ∨ (r.usesCode = false ∧ w.extractLsb' 8 16 ≠ 0) ∨
    (r.usesSym = false ∧ w.extractLsb' 0 8 ≠ 0)

/-- Commands executed one after another, as long as each gives a next state. -/
def execAll : List Instr → State → Host.Outcome State Fault Refusal
  | [], s => .next s
  | i :: rest, s =>
    match exec i s with
    | .next t => execAll rest t
    | .fault r => .fault r
    | .refused r => .refused r

/-- A pair to pack or unpack, with its width. -/
structure Pair where
  code : Code
  sym : Byte
  width : Nat

/-- The number of stream bits of a list of pairs (R81: `width + 8` each). -/
def pairBits : List Pair → Nat
  | [] => 0
  | p :: ps => p.width + 8 + pairBits ps

/-- The `E.PUT` command of a pair. -/
def putOf (p : Pair) : Instr := .ePut p.code p.sym p.width

/-- The `D.GET` command that reads a pair back. -/
def getOf (p : Pair) : Instr := .dGet p.width

/-- A pair `E.PUT` accepts in configuration `cfg` (spec/41_pack.md R112). -/
def Packable (cfg : Config) (p : Pair) : Prop :=
  legalWidth p.width ∧ p.code.toNat < cfg.maxCode ∧ p.code.toNat < 2 ^ p.width

/-- The command that opens channel `c`. -/
def initOf (c : Channel) : Instr := if c = .e then .eInit else .dInit

/-- The command that advances the counter of channel `c`. -/
def advOf (c : Channel) : Instr := if c = .e then .eAdv else .dAdv

/-- The code counter of channel `c`. -/
def counterOf (c : Channel) (s : State) : Code := if c = .e then s.e.next else s.d.next

/-- Channel `c` as its INIT leaves its state and its counters (spec/10_state.md R43). -/
def JustOpened (c : Channel) (s : State) : Prop :=
  s.channelState c = .active ∧ counterOf c s = 2 ∧ (if c = .e then s.e.resets else s.d.resets) = 0

/-- Channel E with a stream open and no bit in it yet. -/
def FreshStream (c : EChannel) : Prop := c.state = .active ∧ c.cursor = 0 ∧ c.acc = 0 ∧ c.out = []

/-- `c'` is channel E `c` with exactly one pair appended at its cursor (spec/30_encoding.md R81, spec/20_memory.md R51, R54): the
code and then the symbol, bit 0 first, no other stream bit changed, the completed bytes emitted, and the rest of the partial byte
zero. -/
def PairAppended (p : BitPlacement) (c c' : EChannel) (code : Code) (sym : Byte) (width : Nat) : Prop :=
  c'.state = c.state ∧ c'.cause = c.cause ∧ c'.next = c.next ∧ c'.resets = c.resets ∧
  c'.cursor.toNat = c.cursor.toNat + width + 8 ∧
  c'.out.length = c'.cursor.toNat / 8 ∧
  (∀ i, i < width → eBit p c' (c.cursor.toNat + i) = code.getLsbD i) ∧
  (∀ i, i < 8 → eBit p c' (c.cursor.toNat + width + i) = sym.getLsbD i) ∧
  (∀ k, k < c.cursor.toNat → eBit p c' k = eBit p c k) ∧
  (∀ k, c'.cursor.toNat ≤ k → eBit p c' k = false)

/-- What a read command `i` of code width `width` answers at `s` (spec/42_unpack.md R130), with the code check or without it. -/
def Unpacks (i : Instr) (width : Nat) (check : Bool) (s : State) : Prop :=
  let rem := 8 * s.d.src.length - s.d.cursor.toNat
  let consumed := s.d.cursor + BitVec.ofNat 64 (width + 8)
  (rem < width + 8 →
    exec i s = .next (answered { s with d := { s.d with state := .done, reason := .exhausted } } .exhausted
      (BitVec.ofNat 32 rem))) ∧
  (width + 8 ≤ rem → ∃ (c : Code) (y : Byte),
    (∀ j, j < 16 → c.getLsbD j =
      (decide (j < width) && storedBit s.cfg.bitPlacement s.d.src (s.d.cursor.toNat + j))) ∧
    (∀ j, j < 8 → y.getLsbD j = storedBit s.cfg.bitPlacement s.d.src (s.d.cursor.toNat + width + j)) ∧
    (c = 1 → exec i s = .next (answered
      { s with d := { s.d with cursor := consumed, state := .done, reason := .stop } } .stop (pairNumber width c y))) ∧
    (c ≠ 1 → check = true → s.d.next.toNat ≤ c.toNat → exec i s = .next (faultD s .invalidCode)) ∧
    (c ≠ 1 → (check = true → c.toNat < s.d.next.toNat) → exec i s = .next (answered
      { s with d := { s.d with cursor := consumed } } .ok (pairNumber width c y))))

/-- The little-endian integer of a byte sequence (spec/20_memory.md R56). -/
def littleEndian (bytes : List Byte) : Nat := bytes.foldr (fun b n => b.toNat + 256 * n) 0

/-- A byte with its bits in reverse order (R53: bit `j` and bit `7 - j` change places). -/
def reversed (b : Byte) : Byte := b.reverse

/-- The other bit placement. -/
def otherPlacement : BitPlacement → BitPlacement
  | .lsb0 => .msb0
  | .msb0 => .lsb0

/-- The same machine under the other bit placement: every stored byte with its bits reversed (R53). -/
def mirrored (s : State) : State :=
  { cfg := { s.cfg with bitPlacement := otherPlacement s.cfg.bitPlacement }
    e := { s.e with acc := reversed s.e.acc, out := s.e.out.map reversed }
    d := { s.d with src := s.d.src.map reversed }
    ports := { s.ports with deliveries := s.ports.deliveries.map (·.map reversed), earlierOut := s.ports.earlierOut.map reversed } }

/-- A cause is written by a fault (spec/10_state.md R25, R33): the step from `s` to `t` takes the channel from another state to FAULTED
and answers the FAULT whose cause the channel then holds. -/
def FirstFault (s t : State) (before after : ChanState) (cause : Option Cause) : Prop :=
  before ≠ .faulted ∧ after = .faulted ∧ ∃ c : Cause, cause = some c ∧
    t.ports.responses = s.ports.responses ++ [{ rkind := .fault, rdata := BitVec.ofNat 32 (codeOfCause c) }]

/-- The move at the port is the command `i`. -/
def MoveIs (s : State) (i : Instr) : Prop := ∃ w rest, s.ports.pending = .command w :: rest ∧ decode w = .command i

/-- The move at the port is a hardware reset. -/
def MoveIsReset (s : State) : Prop := ∃ rest, s.ports.pending = .rst :: rest

end Sys2Proof.Spec

open Sys2Proof Sys2Proof.Machine Sys2Proof.Spec

/-! ### 30 Encodings -/

/-- Decoding the word of a well-formed command gives the command back, with every operand at every value (R70 to R73). -/
def Obligations.EncodeThenDecodeReturnsTheCommand : Prop :=
  ∀ i : Instr, i.WellFormed → decode (encode i) = .command i

/-- A word that decodes to a command is the word of that command, and the command is well formed: no command has two words
(R76). -/
def Obligations.DecodedCommandEncodesToItsWord : Prop :=
  ∀ (w : Word) (i : Instr), decode w = .command i → i.WellFormed ∧ encode i = w

/-- Decoding follows the opcode map alone (R71, R76): a reserved opcode is illegal; a word of any other opcode is a reserved-field
fault of that opcode if a field the row does not use is nonzero, and otherwise the row's command with its operands from the
word's fields; and the words of a row that are commands are those the row's mask and match select. -/
def Obligations.DecodingFollowsTheOpcodeMap : Prop :=
  ∀ w : Word,
    (opOf w = 0x7 ∨ opOf w = 0xD ∨ opOf w = 0xF → decode w = .illegalCommand) ∧
    (¬ (opOf w = 0x7 ∨ opOf w = 0xD ∨ opOf w = 0xF) → ∃ r ∈ opcodeMap, opOf w = r.op) ∧
    ∀ r ∈ opcodeMap, opOf w = r.op →
      (reservedSet r w → decode w = .reservedField r.op) ∧
      (¬ reservedSet r w → decode w = .command (r.command w)) ∧
      (w &&& r.mask = r.matchWord ↔ ¬ reservedSet r w)

/-- One word of each family, written out from the encoding in its rule, decodes to the command it stands for. -/
def Obligations.WordsOfEveryFamilyDecode : Prop :=
  decode 0x00001000 = .command (.wcalc 16) ∧
  decode 0x280155C3 = .command (.ePut 0x155 0xC3 9) ∧
  decode 0x30000061 = .command (.ePuta 0 0x61) ∧
  decode 0x40000000 = .command .eAdv ∧
  decode 0x80000002 = .command (.rd 2) ∧
  decode 0xA1000000 = .command (.dGet 2) ∧
  decode 0xB0000000 = .command .dGeta ∧
  decode 0x70000000 = .illegalCommand ∧
  decode 0x33000100 = .reservedField 3

/-! ### 10, 20, 60 The step -/

/-- A step with a command word at the port that decodes to a command is the command's meaning, at the state with the word taken
and the index advanced by one (R22). -/
def Obligations.StepRunsTheDecodedCommand : Prop :=
  ∀ (s : State) (w : Word) (rest : List HostMove) (i : Instr),
    s.ports.pending = .command w :: rest → decode w = .command i → step s = exec i (taken s rest)

/-- With no move at the ports the block does nothing and holds its state (R197; as a step, assumption log 9). -/
def Obligations.NoMoveHoldsTheState : Prop :=
  ∀ s : State, s.ports.pending = [] → step s = .next s

/-- A word with a reserved opcode gets the FAULT response 0x01 and changes no state (R74). -/
def Obligations.ReservedOpcodeOnlyAnswers : Prop :=
  ∀ (s : State) (w : Word) (rest : List HostMove), s.ports.pending = .command w :: rest →
    opOf w = 0x7 ∨ opOf w = 0xD ∨ opOf w = 0xF →
    step s = .next (answered (taken s rest) .fault 0x01)

/-- A nonzero field that the opcode does not use faults with RESERVED_FIELD before anything else, in every channel state: the
channel the opcode names becomes FAULTED, INIT included, and a command that names none changes no state (R75). -/
def Obligations.ReservedFieldFaultsFirst : Prop :=
  ∀ (s : State) (w : Word) (rest : List HostMove) (r : OpRow), s.ports.pending = .command w :: rest →
    r ∈ opcodeMap → opOf w = r.op → reservedSet r w →
    step s = .next (match r.channel with
      | none => faultNone (taken s rest) .reservedField
      | some .e => faultE (taken s rest) .reservedField
      | some .d => faultD (taken s rest) .reservedField)

/-- Every command word produces exactly one response and advances the index by one, whether it completes or faults (R22, R80); the
one command word that gives none is a D.INIT whose input the spec refuses (the model's refusal, assumption log 6). -/
def Obligations.EveryCommandAnswersExactlyOnce : Prop :=
  ∀ (s : State) (w : Word) (rest : List HostMove), s.ports.pending = .command w :: rest →
    (∃ t r, step s = .next t ∧ t.ports.responses = s.ports.responses ++ [r] ∧ t.ports.index = s.ports.index + 1 ∧
      t.ports.pending = rest) ∨
    (decode w = .command .dInit ∧ 2 ^ 61 ≤ (s.ports.deliveries.headD []).length ∧ step s = .refused .inputTooLong)

/-! ### 70 Reset -/

/-- Hardware reset gives every piece of the block's state its reset value, in one step, from every state; it leaves the
configuration, the responses and the pulses, emits no byte, and the bytes already emitted stay with the host (R210; that the
record of the ports survives is the model's choice, assumption log 5, and so is that the command index goes on, assumption log
11). -/
def Obligations.HardwareResetRestoresEveryRegister : Prop :=
  ∀ (s : State) (rest : List HostMove), s.ports.pending = .rst :: rest →
    step s = .next
      { cfg := s.cfg
        e := { state := .idle, cause := none, next := 2, cursor := 0, acc := 0, resets := 0, out := [] }
        d := { state := .idle, reason := .notDone, cause := none, next := 2, cursor := 0, resets := 0, src := [] }
        ports := { s.ports with pending := rest, earlierOut := s.ports.earlierOut ++ s.e.out } }

/-- Every run starts with every register at its reset value (R43, R213), for every instance, and `State.reset` is the start of the
run of the default instance (the model's choice, assumption log 2) with a host that presents nothing. -/
def Obligations.RunsStartAtTheResetValues : Prop :=
  (∀ (cfg : Config) (moves : List HostMove) (deliveries : List (List Byte)),
    let s := State.start cfg moves deliveries
    s.cfg = cfg ∧ s.ports.pending = moves ∧ s.ports.deliveries = deliveries ∧
    s.e = { state := .idle, cause := none, next := 2, cursor := 0, acc := 0, resets := 0, out := [] } ∧
    s.d = { state := .idle, reason := .notDone, cause := none, next := 2, cursor := 0, resets := 0, src := [] }) ∧
  State.reset = State.start { maxCode := 65535, bitPlacement := .lsb0 } [] []

/-- After reset every command other than WCALC, RD, E.INIT and D.INIT faults with NOT_ACTIVE, because both channels are IDLE, and
both status registers read 0 (R211). -/
def Obligations.AfterResetOnlyInitAndReadingRun : Prop :=
  ∀ (cfg : Config) (moves : List HostMove) (deliveries : List (List Byte)),
    let s := State.start cfg moves deliveries
    (∀ i ∈ [Instr.eAdv, .eFlush, .eWidth], exec i s = .next (faultE s .notActive)) ∧
    (∀ code sym width, exec (.ePut code sym width) s = .next (faultE s .notActive)) ∧
    (∀ code sym, exec (.ePuta code sym) s = .next (faultE s .notActive)) ∧
    (∀ i ∈ [Instr.dGeta, .dAdv, .dWidth], exec i s = .next (faultD s .notActive)) ∧
    (∀ width, exec (.dGet width) s = .next (faultD s .notActive)) ∧
    exec (.rd 0x02) s = .next (answered s .ok 0) ∧ exec (.rd 0x09) s = .next (answered s .ok 0)

/-- Every start of a run of a legal instance meets the invariant, and so does `State.reset`. -/
def Obligations.EveryStartMeetsTheInvariant : Prop :=
  (∀ (cfg : Config) (moves : List HostMove) (deliveries : List (List Byte)), cfg.Legal →
    (State.start cfg moves deliveries).Inv) ∧ State.reset.Inv

/-- Every step keeps the invariant: both counters stay in `[START_CODE, MAX_CODE)` (R26, R34), E's cursor is eight times the bytes
emitted plus the bits held (R40), the rest of the partial byte is zero (R28), D's cursor stays within its input (R35), a channel
holds a cause exactly when it is FAULTED (R25, R33), a flushed stream is aligned (R114), and D has a reason when it is DONE and
none while it is IDLE or ACTIVE (R32). -/
def Obligations.StepKeepsTheInvariant : Prop :=
  ∀ s t : State, s.Inv → step s = .next t → t.Inv

/-! ### 40 Code width -/

/-- WCALC runs in every state and answers the number of bits of `n` (R100, R101): 1 for 0 and 1, and otherwise the `k` with
`2^(k-1) ≤ n < 2^k`; it writes no state. -/
def Obligations.WcalcAnswersTheBitLength : Prop :=
  ∀ (n : Code) (s : State), ∃ k : Nat,
    exec (.wcalc n) s = .next (answered s .ok (BitVec.ofNat 32 k)) ∧ 1 ≤ k ∧ k ≤ 16 ∧
    (n.toNat < 2 → k = 1) ∧ (2 ≤ n.toNat → 2 ^ (k - 1) ≤ n.toNat ∧ n.toNat < 2 ^ k)

/-- The properties of `W` (R104). -/
def Obligations.CodeWidthProperties : Prop :=
  ∀ n : Nat,
    1 ≤ codeWidth n ∧
    (∀ m, n ≤ m → codeWidth n ≤ codeWidth m) ∧
    (1 ≤ n → 2 ^ (codeWidth n - 1) ≤ n ∧ n < 2 ^ codeWidth n) ∧
    (∀ k, 2 ≤ k → (codeWidth n = k ↔ 2 ^ (k - 1) ≤ n ∧ n ≤ 2 ^ k - 1)) ∧
    (codeWidth n = 1 ↔ n = 0 ∨ n = 1) ∧
    (n < 2 ^ 16 → 1 ≤ codeWidth n ∧ codeWidth n ≤ 16)

/-- In ACTIVE, E.WIDTH and D.WIDTH answer `W(next)` of their channel and write no state (R102, R103). -/
def Obligations.WidthCommandsAnswerTheCounterWidth : Prop :=
  ∀ s : State,
    (s.e.state = .active → exec .eWidth s = .next (answered s .ok (BitVec.ofNat 32 (codeWidth s.e.next.toNat)))) ∧
    (s.d.state = .active → exec .dWidth s = .next (answered s .ok (BitVec.ofNat 32 (codeWidth s.d.next.toNat))))

/-- The consequences of `W` for a counter in its range (R105): its width is from 2 to `WMAX = W(MAX_CODE - 1)`, which is at most 16;
every code below the counter fits in that width, STOP_CODE and EMPTY_CODE always; and an advance that does not reset the counter
makes the width one more exactly when it moves the counter onto a power of two, and leaves it otherwise, while a reset makes it 2. -/
def Obligations.CounterWidthBounds : Prop :=
  ∀ (cfg : Config) (next : Code), cfg.Legal → 2 ≤ next.toNat → next.toNat < cfg.maxCode →
    2 ≤ codeWidth next.toNat ∧ codeWidth next.toNat ≤ codeWidth (cfg.maxCode - 1) ∧ codeWidth (cfg.maxCode - 1) ≤ 16 ∧
    (∀ c : Nat, c < next.toNat → c < 2 ^ codeWidth next.toNat) ∧
    (stopCode.toNat < 2 ^ codeWidth next.toNat ∧ emptyCode.toNat < 2 ^ codeWidth next.toNat) ∧
    (codeWidth (next.toNat + 1) = codeWidth next.toNat + 1 ↔ ∃ k, next.toNat + 1 = 2 ^ k) ∧
    ((¬ ∃ k, next.toNat + 1 = 2 ^ k) → codeWidth (next.toNat + 1) = codeWidth next.toNat) ∧
    codeWidth startCode.toNat = 2

/-! ### 41 Pack -/

/-- E.INIT runs in every state and opens an empty stream on channel E (R111); the bytes already emitted stay with the host. -/
def Obligations.EInitOpensAnEmptyStream : Prop :=
  ∀ s : State, exec .eInit s = .next (answered
    { s with
      e := { state := .active, cause := none, next := 2, cursor := 0, acc := 0, resets := 0, out := [] }
      ports := { s.ports with earlierOut := s.ports.earlierOut ++ s.e.out } } .ok 0)

/-- E.PUT, in ACTIVE, with a code below MAX_CODE that fits its width and a cursor with room, appends exactly its pair at the cursor:
the code's bits and then the symbol's, least significant bit first, with no gap (R81, R112); it answers the pair with its
width, and changes nothing else. -/
def Obligations.EPutAppendsThePair : Prop :=
  ∀ (s : State) (code : Code) (sym : Byte) (width : Nat), s.Inv → s.e.state = .active → legalWidth width →
    code.toNat < s.cfg.maxCode → code.toNat < 2 ^ width → s.e.cursor.toNat + width + 8 ≤ 2 ^ 64 - 1 →
    ∃ c' : EChannel, PairAppended s.cfg.bitPlacement s.e c' code sym width ∧
      exec (.ePut code sym width) s = .next (answered { s with e := c' } .ok (pairNumber width code sym))

/-- E.PUTA, in ACTIVE, with a code below `E.next` and a cursor with room, appends exactly its pair at the width `W(E.next)` (R113),
answers it, and changes nothing else. -/
def Obligations.EPutaAppendsThePairAtTheCounterWidth : Prop :=
  ∀ (s : State) (code : Code) (sym : Byte), s.Inv → s.e.state = .active → code.toNat < s.e.next.toNat →
    s.e.cursor.toNat + codeWidth s.e.next.toNat + 8 ≤ 2 ^ 64 - 1 →
    ∃ c' : EChannel, PairAppended s.cfg.bitPlacement s.e c' code sym (codeWidth s.e.next.toNat) ∧
      exec (.ePuta code sym) s = .next (answered { s with e := c' } .ok (pairNumber (codeWidth s.e.next.toNat) code sym))

/-- The faults of the packing commands in ACTIVE, in their priority order (R187, items 5 to 7): each writes only the fault record. -/
def Obligations.PackingFaultsInPriorityOrder : Prop :=
  ∀ (s : State) (code : Code) (sym : Byte) (width : Nat), s.e.state = .active → legalWidth width →
    (s.cfg.maxCode ≤ code.toNat → exec (.ePut code sym width) s = .next (faultE s .codeDomain)) ∧
    (code.toNat < s.cfg.maxCode → 2 ^ width ≤ code.toNat →
      exec (.ePut code sym width) s = .next (faultE s .codeTooWide)) ∧
    (code.toNat < s.cfg.maxCode → code.toNat < 2 ^ width → 2 ^ 64 - 1 < s.e.cursor.toNat + width + 8 →
      exec (.ePut code sym width) s = .next (faultE s .cursorOverflow)) ∧
    (s.e.next.toNat ≤ code.toNat → exec (.ePuta code sym) s = .next (faultE s .invalidCode)) ∧
    (code.toNat < s.e.next.toNat → 2 ^ 64 - 1 < s.e.cursor.toNat + codeWidth s.e.next.toNat + 8 →
      exec (.ePuta code sym) s = .next (faultE s .cursorOverflow)) ∧
    (2 ^ 64 - 1 < s.e.cursor.toNat + (8 - s.e.cursor.toNat % 8) % 8 →
      exec .eFlush s = .next (faultE s .cursorOverflow))

/-- E.FLUSH, in ACTIVE, with room for the pad, appends the zero bits that complete the last byte, counts them in the cursor, sets
DONE and answers their number (R114): afterwards the partial byte is zero, the cursor is eight times the bytes emitted, every
earlier stream bit is as before, and nothing else has changed. -/
def Obligations.EFlushPadsAndCloses : Prop :=
  ∀ s : State, s.Inv → s.e.state = .active →
    let pad := (8 - s.e.cursor.toNat % 8) % 8
    s.e.cursor.toNat + pad ≤ 2 ^ 64 - 1 →
    ∃ c' : EChannel, exec .eFlush s = .next (answered { s with e := c' } .ok (BitVec.ofNat 32 pad)) ∧
      c'.state = .done ∧ c'.cause = s.e.cause ∧ c'.next = s.e.next ∧ c'.resets = s.e.resets ∧ c'.acc = 0 ∧
      c'.cursor.toNat = s.e.cursor.toNat + pad ∧ c'.cursor.toNat = 8 * c'.out.length ∧
      (∀ k, k < s.e.cursor.toNat → storedBit s.cfg.bitPlacement c'.out k = eBit s.cfg.bitPlacement s.e k) ∧
      (∀ k, s.e.cursor.toNat ≤ k → k < c'.cursor.toNat → storedBit s.cfg.bitPlacement c'.out k = false)

/-- A completed E.PUT or E.PUTA completes `⌊(f + width + 8) / 8⌋` bytes, from 1 to 3, where `f` is the number of bits held before
it; the bytes already emitted are not touched (R59). -/
def Obligations.APairCompletesOneToThreeBytes : Prop :=
  ∀ (s t : State) (i : Instr) (code : Code) (sym : Byte) (width : Nat), s.Inv → legalWidth width →
    i = .ePut code sym width ∨ (i = .ePuta code sym ∧ width = codeWidth s.e.next.toNat) →
    exec i s = .next t → t.e.state ≠ .faulted →
    let n := (s.e.cursor.toNat % 8 + width + 8) / 8
    1 ≤ n ∧ n ≤ 3 ∧ ∃ more : List Byte, more.length = n ∧ t.e.out = s.e.out ++ more

/-- The length of a finished stream (R116): pairs of widths `w_1 … w_m` on a fresh stream and then E.FLUSH emit
`⌈(Σ (w_i + 8)) / 8⌉` bytes, and the pad is what is left of the last byte. The bound takes in every stream that a flush can finish: the
padded cursor is a multiple of 8 below 2^64. -/
def Obligations.FinishedStreamLength : Prop :=
  ∀ (s : State) (ps : List Pair), s.Inv → FreshStream s.e → (∀ p ∈ ps, Packable s.cfg p) → pairBits ps + 7 < 2 ^ 64 →
    ∃ t u : State, execAll (ps.map putOf) s = .next t ∧ exec .eFlush t = .next u ∧
      u.e.out.length = (pairBits ps + 7) / 8 ∧
      u.ports.responses = t.ports.responses ++ [{ rkind := .ok, rdata := BitVec.ofNat 32 (8 * u.e.out.length - pairBits ps) }]

/-- Under LSB0 a field read from a byte sequence is a slice of its little-endian integer, and under MSB0 the same holds after each
byte is bit-reversed (R56). -/
def Obligations.StreamsAreLittleEndianIntegers : Prop :=
  ∀ (bytes : List Byte) (k n : Nat), k + n ≤ 8 * bytes.length →
    readBits .lsb0 bytes k n = littleEndian bytes / 2 ^ k % 2 ^ n ∧
    readBits .msb0 bytes k n = littleEndian (bytes.map reversed) / 2 ^ k % 2 ^ n

/-! ### 42 Unpack -/

/-- D.INIT runs in every state: it binds the byte sequence the host delivers next and opens the stream (R131), unless the sequence
has 2^61 bytes or more, which the model refuses (assumption log 6). That the deliveries stand in a list is the model's form
(assumption log 4). -/
def Obligations.DInitBindsTheDelivery : Prop :=
  ∀ s : State,
    ((s.ports.deliveries.headD []).length < 2 ^ 61 → exec .dInit s = .next (answered
      { s with
        d := { state := .active, reason := .notDone, cause := none, next := 2, cursor := 0, resets := 0,
               src := s.ports.deliveries.headD [] }
        ports := { s.ports with deliveries := s.ports.deliveries.tail } } .ok 0)) ∧
    (2 ^ 61 ≤ (s.ports.deliveries.headD []).length → exec .dInit s = .refused .inputTooLong)

/-- In ACTIVE, D.GET of width `width` and D.GETA at the width `W(D.next)` answer as `UnpackPair` says (R130): EXHAUSTED with the
bits left when a full pair is not there, STOP when the code read is STOP_CODE, INVALID_CODE when D.GETA reads a code at or above
`D.next`, and otherwise the pair, read least significant bit first from the cursor; the cursor moves only past a pair or a STOP
pair, and nothing else changes. -/
def Obligations.GetCommandsUnpackThePairAtTheCursor : Prop :=
  ∀ s : State, s.d.state = .active →
    (∀ width, legalWidth width → Unpacks (.dGet width) width false s) ∧
    Unpacks .dGeta (codeWidth s.d.next.toNat) true s

/-- After DONE, every D.GET, D.GETA, D.ADV and D.WIDTH faults with NOT_ACTIVE, makes the channel FAULTED and keeps the reason (R136). -/
def Obligations.AfterDoneReadsFault : Prop :=
  ∀ (s : State) (i : Instr), s.d.state = .done →
    i = .dGeta ∨ i = .dAdv ∨ i = .dWidth ∨ (∃ width, i = .dGet width) →
    exec i s = .next (faultNone { s with d := { s.d with state := .faulted, cause := some .notActive } } .notActive)

/-- Pad bits never form a pair (R137): a reader of a flushed stream that has read every bit before the pad and no STOP pair gets
EXHAUSTED from D.GET at every width and from D.GETA, with the pad bits as the remaining count, which is at most 7. -/
def Obligations.PadBitsNeverFormAPair : Prop :=
  ∀ (s t v : State), s.Inv → exec .eFlush s = .next t → t.e.state = .done →
    v.d.state = .active → v.d.src = t.e.out → v.d.cursor = s.e.cursor →
    ∃ rem, rem ≤ 7 ∧ rem = (8 - s.e.cursor.toNat % 8) % 8 ∧
      ∀ i : Instr, (i = .dGeta ∨ ∃ width, legalWidth width ∧ i = .dGet width) →
        exec i v = .next (answered { v with d := { v.d with state := .done, reason := .exhausted } } .exhausted
          (BitVec.ofNat 32 rem))

/-- Unpacking is the inverse of packing (R138): when channel E has packed a list of pairs on a fresh stream and flushed it, and
channel D of a block with the same bit placement is bound to the bytes E emitted, then reading at the same widths returns each
pair, as STOP if its code is STOP_CODE, for every pair up to and including the first STOP pair; and D's cursor after each read
equals E's cursor after the same pair. The bound takes in every stream that a flush can finish. -/
def Obligations.UnpackingInvertsPacking : Prop :=
  ∀ (s v : State) (before after : List Pair) (p : Pair), s.Inv → FreshStream s.e →
    (∀ q ∈ before ++ p :: after, Packable s.cfg q) → pairBits (before ++ p :: after) + 7 < 2 ^ 64 →
    (∀ q ∈ before, q.code ≠ stopCode) →
    v.cfg.bitPlacement = s.cfg.bitPlacement → v.d.state = .active → v.d.cursor = 0 →
    ∃ packed flushed here : State,
      execAll ((before ++ p :: after).map putOf) s = .next packed ∧ exec .eFlush packed = .next flushed ∧
      execAll ((before ++ [p]).map putOf) s = .next here ∧
      (v.d.src = flushed.e.out → ∃ v1 v2 : State,
        execAll (before.map getOf) v = .next v1 ∧ exec (getOf p) v1 = .next v2 ∧
        v2.ports.responses = v1.ports.responses ++
          [{ rkind := if p.code = stopCode then .stop else .ok, rdata := pairNumber p.width p.code p.sym }] ∧
        v2.d.cursor = here.e.cursor)

/-! ### 43 The arbiter -/

/-- E.ADV and D.ADV in ACTIVE (R150): the counter moves on by one; on reaching MAX_CODE it returns to START_CODE, the reset counter
goes up by one modulo 2^32, the channel's DictReset pulse is driven and bit 16 of the response is set; nothing else changes. -/
def Obligations.AdvanceFollowsTheArbiter : Prop :=
  ∀ s : State, s.Inv →
    (s.e.state = .active → exec .eAdv s = .next
      (if s.e.next.toNat + 1 = s.cfg.maxCode then
        answered { s with
          e := { s.e with next := 2, resets := s.e.resets + 1 }
          ports := { s.ports with pulses := s.ports.pulses ++ [.e] } } .ok 0x00010002
      else answered { s with e := { s.e with next := BitVec.ofNat 16 (s.e.next.toNat + 1) } } .ok
        (BitVec.ofNat 32 (s.e.next.toNat + 1)))) ∧
    (s.d.state = .active → exec .dAdv s = .next
      (if s.d.next.toNat + 1 = s.cfg.maxCode then
        answered { s with
          d := { s.d with next := 2, resets := s.d.resets + 1 }
          ports := { s.ports with pulses := s.ports.pulses ++ [.d] } } .ok 0x00010002
      else answered { s with d := { s.d with next := BitVec.ofNat 16 (s.d.next.toNat + 1) } } .ok
        (BitVec.ofNat 32 (s.d.next.toNat + 1))))

/-- The counter's sequence (R154): with `P = MAX_CODE - START_CODE`, after `k` ADVs since INIT, among whatever other commands
complete, `next = START_CODE + (k mod P)` and `resets = ⌊k / P⌋ mod 2^32`; the reset has fired `⌊k / P⌋` times, and it fires on
ADV number `k + 1` exactly when `k + 1` is a multiple of `P`. On both channels: INIT leaves an ACTIVE channel at START_CODE with no
resets, and a channel that is not FAULTED afterwards has completed every command it was given. -/
def Obligations.CounterSequence : Prop :=
  ∀ (s t : State) (is : List Instr), s.cfg.Legal → execAll is s = .next t →
    let p := s.cfg.maxCode - 2
    (s.e.state = .active → s.e.next = 2 → s.e.resets = 0 → .eInit ∉ is → t.e.state ≠ .faulted →
      let k := is.count .eAdv
      t.e.next.toNat = 2 + k % p ∧ t.e.resets.toNat = k / p % 2 ^ 32 ∧
      t.ports.pulses.count .e = s.ports.pulses.count .e + k / p ∧
      (t.e.state = .active → ∃ u r, exec .eAdv t = .next u ∧ u.ports.responses = t.ports.responses ++ [r] ∧
        r.rkind = .ok ∧ (r.rdata.getLsbD 16 = true ↔ p ∣ k + 1))) ∧
    (s.d.state = .active → s.d.next = 2 → s.d.resets = 0 → .dInit ∉ is → t.d.state ≠ .faulted →
      let k := is.count .dAdv
      t.d.next.toNat = 2 + k % p ∧ t.d.resets.toNat = k / p % 2 ^ 32 ∧
      t.ports.pulses.count .d = s.ports.pulses.count .d + k / p ∧
      (t.d.state = .active → ∃ u r, exec .dAdv t = .next u ∧ u.ports.responses = t.ports.responses ++ [r] ∧
        r.rkind = .ok ∧ (r.rdata.getLsbD 16 = true ↔ p ∣ k + 1)))

/-- Synchronisation (R155): two channels, each of them E or D of any block with the same MAX_CODE, that each started with INIT and have
each completed the same number of ADVs among whatever other commands, hold the same counter, so that their next pairs have the same
width and their arbiters fire on the same ADV. -/
def Obligations.EqualAdvancesSynchronise : Prop :=
  ∀ (s t u v : State) (c c' : Channel) (is js : List Instr), s.cfg.Legal → u.cfg.maxCode = s.cfg.maxCode →
    JustOpened c s → initOf c ∉ is → execAll is s = .next t → t.channelState c ≠ .faulted →
    JustOpened c' u → initOf c' ∉ js → execAll js u = .next v → v.channelState c' ≠ .faulted →
    is.count (advOf c) = js.count (advOf c') →
    counterOf c t = counterOf c' v ∧ codeWidth (counterOf c t).toNat = codeWidth (counterOf c' v).toNat ∧
      ((counterOf c t).toNat + 1 = t.cfg.maxCode ↔ (counterOf c' v).toNat + 1 = v.cfg.maxCode)

/-- Round trip (R160): for every legal instance, a decoder that follows the host protocol on the bytes an encoder that follows it
has emitted gives the encoder's input back, for every byte sequence, the empty one included. The bound on the input keeps the
cursor and `D.src` within 2^61 bytes (R220, a host duty; assumption log 15). The driving host is the model's form of R156 to R159
(assumption log 14). -/
def Obligations.EncodeThenDecodeReturnsTheInput : Prop :=
  ∀ (cfg : Config) (input : List Byte), cfg.Legal → input.length < 2 ^ 56 →
    ∃ bytes, encodeStream cfg input = some bytes ∧ decodeStream cfg bytes = some input

/-! ### 44 Register access -/

/-- RD runs in every state, answers the register of the map (R171) and writes no state; a reserved number faults with BAD_REGISTER
and changes no state. -/
def Obligations.RdAnswersTheRegisterMap : Prop :=
  ∀ s : State, s.cfg.Legal →
    exec (.rd 0x00) s = .next (answered s .ok 0x4C5A3738) ∧
    exec (.rd 0x01) s = .next (answered s .ok
      (BitVec.ofNat 32 (s.cfg.maxCode + if s.cfg.bitPlacement = .msb0 then 2 ^ 17 else 0))) ∧
    exec (.rd 0x02) s = .next (answered s .ok
      (BitVec.ofNat 32 (codeOfState s.e.state + 2 ^ 8 * (s.e.cause.elim 0 codeOfCause)))) ∧
    exec (.rd 0x03) s = .next (answered s .ok (BitVec.ofNat 32 s.e.next.toNat)) ∧
    exec (.rd 0x04) s = .next (answered s .ok (BitVec.ofNat 32 (s.e.cursor.toNat % 2 ^ 32))) ∧
    exec (.rd 0x05) s = .next (answered s .ok (BitVec.ofNat 32 (s.e.cursor.toNat / 2 ^ 32))) ∧
    exec (.rd 0x06) s = .next (answered s .ok (BitVec.ofNat 32 (s.e.acc.toNat + 2 ^ 8 * (s.e.cursor.toNat % 8)))) ∧
    exec (.rd 0x07) s = .next (answered s .ok s.e.resets) ∧
    exec (.rd 0x08) s = .next (answered s .ok (BitVec.ofNat 32 (s.e.out.length % 2 ^ 32))) ∧
    exec (.rd 0x09) s = .next (answered s .ok (BitVec.ofNat 32 (codeOfState s.d.state +
      2 ^ 2 * codeOfReason s.d.reason + 2 ^ 8 * (s.d.cause.elim 0 codeOfCause)))) ∧
    exec (.rd 0x0A) s = .next (answered s .ok (BitVec.ofNat 32 s.d.next.toNat)) ∧
    exec (.rd 0x0B) s = .next (answered s .ok (BitVec.ofNat 32 (s.d.cursor.toNat % 2 ^ 32))) ∧
    exec (.rd 0x0C) s = .next (answered s .ok (BitVec.ofNat 32 (s.d.cursor.toNat / 2 ^ 32))) ∧
    exec (.rd 0x0D) s = .next (answered s .ok s.d.resets) ∧
    ∀ reg : Byte, 0x0E ≤ reg.toNat → exec (.rd reg) s = .next (faultNone s .badRegister)

/-- Straight after a run's start the registers read their reset values (R171). -/
def Obligations.RegistersReadTheirResetValues : Prop :=
  ∀ (cfg : Config) (moves : List HostMove) (deliveries : List (List Byte)), cfg.Legal →
    let s := State.start cfg moves deliveries
    exec (.rd 0x00) s = .next (answered s .ok 0x4C5A3738) ∧
    exec (.rd 0x01) s = .next (answered s .ok (BitVec.ofNat 32 cfg.maxCode |||
      ((if cfg.bitPlacement = .msb0 then 1 else 0) <<< 17))) ∧
    (∀ reg ∈ ([0x02, 0x09] : List Byte), exec (.rd reg) s = .next (answered s .ok 0)) ∧
    (∀ reg ∈ ([0x03, 0x0A] : List Byte), exec (.rd reg) s = .next (answered s .ok 2)) ∧
    (∀ reg ∈ ([0x04, 0x05, 0x06, 0x07, 0x08, 0x0B, 0x0C, 0x0D] : List Byte), exec (.rd reg) s = .next (answered s .ok 0))

/-- The two halves of a cursor, read by two RD commands with no command between them, are the cursor (R175). -/
def Obligations.CursorHalvesMakeTheCursor : Prop :=
  ∀ (s : State) (lo hi : Byte) (cursor : BitVec 64),
    (lo = 0x04 ∧ hi = 0x05 ∧ cursor = s.e.cursor) ∨ (lo = 0x0B ∧ hi = 0x0C ∧ cursor = s.d.cursor) →
    ∃ t l h, exec (.rd lo) s = .next t ∧ t = answered s .ok l ∧ exec (.rd hi) t = .next (answered t .ok h) ∧
      (h ++ l : BitVec 64) = cursor

/-! ### 60 Faults -/

/-- Which channel state each command needs (R186): every channel command but INIT faults with NOT_ACTIVE in IDLE, DONE and FAULTED,
whatever its operands. -/
def Obligations.InactiveChannelRefusesItsCommands : Prop :=
  ∀ s : State,
    (s.e.state ≠ .active →
      (∀ code sym width, exec (.ePut code sym width) s = .next (faultE s .notActive)) ∧
      (∀ code sym, exec (.ePuta code sym) s = .next (faultE s .notActive)) ∧
      exec .eAdv s = .next (faultE s .notActive) ∧ exec .eFlush s = .next (faultE s .notActive) ∧
      exec .eWidth s = .next (faultE s .notActive)) ∧
    (s.d.state ≠ .active →
      (∀ width, exec (.dGet width) s = .next (faultD s .notActive)) ∧ exec .dGeta s = .next (faultD s .notActive) ∧
      exec .dAdv s = .next (faultD s .notActive) ∧ exec .dWidth s = .next (faultD s .notActive))

/-- Faults are precise (R183): a command whose response is FAULT leaves all state as it was except the fault record of the
channel its opcode names (R181), and that too if it names none: no byte is emitted, no bit is consumed and no counter moves. -/
def Obligations.FaultsArePrecise : Prop :=
  ∀ (s t : State) (w : Word) (rest : List HostMove) (data : Word), s.ports.pending = .command w :: rest → step s = .next t →
    t.ports.responses = s.ports.responses ++ [{ rkind := .fault, rdata := data }] →
    ∃ c : Cause, data = BitVec.ofNat 32 (codeOfCause c) ∧ t = faultNamed (namedChannel w) (taken s rest) c

/-- Faults are sticky (R184): a FAULTED channel stays as it is, first cause included, through every step but a hardware reset and its
own INIT. -/
def Obligations.FaultsAreSticky : Prop :=
  ∀ s t : State, step s = .next t →
    (s.e.state = .faulted → t.e = s.e ∨ MoveIs s .eInit ∨ MoveIsReset s) ∧
    (s.d.state = .faulted → t.d = s.d ∨ MoveIs s .dInit ∨ MoveIsReset s)

/-- Each fault cause is answered by the commands, and on the condition, that the table of causes gives (R182); the codes are 0x01 to
0x08 and no other. -/
def Obligations.FaultCausesComeFromTheirTable : Prop :=
  ∀ (s t : State) (w : Word) (rest : List HostMove) (data : Word), s.ports.pending = .command w :: rest → step s = .next t →
    t.ports.responses = s.ports.responses ++ [{ rkind := .fault, rdata := data }] →
    (data = 0x01 ∧ (opOf w = 0x7 ∨ opOf w = 0xD ∨ opOf w = 0xF)) ∨
    (data = 0x02 ∧ ∃ r ∈ opcodeMap, opOf w = r.op ∧ reservedSet r w) ∨
    (data = 0x03 ∧ ((s.e.state ≠ .active ∧ ∃ i, decode w = .command i ∧ i.channel = some .e ∧ i ≠ .eInit) ∨
      (s.d.state ≠ .active ∧ ∃ i, decode w = .command i ∧ i.channel = some .d ∧ i ≠ .dInit))) ∨
    (data = 0x04 ∧ ∃ code sym width, decode w = .command (.ePut code sym width) ∧ 2 ^ width ≤ code.toNat) ∨
    (data = 0x05 ∧ ∃ code sym width, decode w = .command (.ePut code sym width) ∧ s.cfg.maxCode ≤ code.toNat) ∨
    (data = 0x06 ∧ ((∃ code sym, decode w = .command (.ePuta code sym) ∧ s.e.next.toNat ≤ code.toNat) ∨
      (decode w = .command .dGeta ∧ ∃ code : Code, code ≠ stopCode ∧ s.d.next.toNat ≤ code.toNat ∧
        code.toNat = readBits s.cfg.bitPlacement s.d.src s.d.cursor.toNat (codeWidth s.d.next.toNat)))) ∨
    (data = 0x07 ∧ ((∃ code sym width, decode w = .command (.ePut code sym width) ∧
        2 ^ 64 - 1 < s.e.cursor.toNat + width + 8) ∨
      (∃ code sym, decode w = .command (.ePuta code sym) ∧
        2 ^ 64 - 1 < s.e.cursor.toNat + codeWidth s.e.next.toNat + 8) ∨
      (decode w = .command .eFlush ∧ 2 ^ 64 - 1 < s.e.cursor.toNat + (8 - s.e.cursor.toNat % 8) % 8))) ∨
    (data = 0x08 ∧ ∃ reg, decode w = .command (.rd reg) ∧ 0x0E ≤ reg.toNat)

/-! ### 10 State: whole-machine rules -/

/-- The channels share nothing (R21): a command word whose opcode names channel E changes nothing of channel D and answers without
reading it, and the other way round. -/
def Obligations.ChannelsShareNothing : Prop :=
  ∀ (s : State) (w : Word) (rest : List HostMove) (r : OpRow), s.ports.pending = .command w :: rest → r ∈ opcodeMap →
    opOf w = r.op →
    (r.channel = some .e → ∃ t, step s = .next t ∧ t.d = s.d ∧ t.ports.deliveries = s.ports.deliveries ∧
      ∀ d' : DChannel, step { s with d := d' } = .next { t with d := d' }) ∧
    (r.channel = some .d →
      (∀ t, step s = .next t → t.e = s.e ∧ t.ports.earlierOut = s.ports.earlierOut ∧
        ∀ e' : EChannel, step { s with e := e' } = .next { t with e := e' }) ∧
      (∀ x, step s = .refused x → ∀ e' : EChannel, step { s with e := e' } = .refused x))

/-- Each register but a channel's state, which has a statement of its own, is written only by what its rule names (R25 to R30, R32 to
R37), and the configuration by nothing (R20). A cause is written by INIT, by reset, and by the fault that takes its channel from
another state to FAULTED, which writes its own cause. -/
def Obligations.RegistersHaveOnlyTheirWriters : Prop :=
  ∀ s t : State, step s = .next t →
    t.cfg = s.cfg ∧
    (t.e.cause ≠ s.e.cause → MoveIs s .eInit ∨ MoveIsReset s ∨ FirstFault s t s.e.state t.e.state t.e.cause) ∧
    (t.d.cause ≠ s.d.cause → MoveIs s .dInit ∨ MoveIsReset s ∨ FirstFault s t s.d.state t.d.state t.d.cause) ∧
    (t.e.next ≠ s.e.next → MoveIs s .eInit ∨ MoveIs s .eAdv ∨ MoveIsReset s) ∧
    (t.e.resets ≠ s.e.resets → MoveIs s .eInit ∨ MoveIs s .eAdv ∨ MoveIsReset s) ∧
    (t.e.cursor ≠ s.e.cursor ∨ t.e.acc ≠ s.e.acc ∨ t.e.out ≠ s.e.out → MoveIs s .eInit ∨ MoveIs s .eFlush ∨ MoveIsReset s ∨
      (∃ code sym width, MoveIs s (.ePut code sym width)) ∨ (∃ code sym, MoveIs s (.ePuta code sym))) ∧
    (t.d.next ≠ s.d.next → MoveIs s .dInit ∨ MoveIs s .dAdv ∨ MoveIsReset s) ∧
    (t.d.resets ≠ s.d.resets → MoveIs s .dInit ∨ MoveIs s .dAdv ∨ MoveIsReset s) ∧
    (t.d.src ≠ s.d.src → MoveIs s .dInit ∨ MoveIsReset s) ∧
    (t.d.cursor ≠ s.d.cursor ∨ t.d.reason ≠ s.d.reason → MoveIs s .dInit ∨ MoveIsReset s ∨ MoveIs s .dGeta ∨
      ∃ width, MoveIs s (.dGet width))

/-- The channel state machines (R24, R31): a channel's state changes only to ACTIVE by its INIT, to DONE by E.FLUSH or by a D.GET or
D.GETA that answers STOP or EXHAUSTED, to FAULTED by a faulting command, and to IDLE by hardware reset. -/
def Obligations.ChannelStatesChangeOnlyAsListed : Prop :=
  ∀ s t : State, step s = .next t →
    (t.e.state ≠ s.e.state →
      (t.e.state = .active ∧ MoveIs s .eInit) ∨
      (t.e.state = .done ∧ s.e.state = .active ∧ MoveIs s .eFlush) ∨
      (t.e.state = .faulted ∧ ∃ data, t.ports.responses = s.ports.responses ++ [{ rkind := .fault, rdata := data }]) ∨
      (t.e.state = .idle ∧ MoveIsReset s)) ∧
    (t.d.state ≠ s.d.state →
      (t.d.state = .active ∧ MoveIs s .dInit) ∨
      (t.d.state = .done ∧ s.d.state = .active ∧ (MoveIs s .dGeta ∨ ∃ width, MoveIs s (.dGet width)) ∧
        ∃ r, t.ports.responses = s.ports.responses ++ [r] ∧ (r.rkind = .stop ∨ r.rkind = .exhausted)) ∨
      (t.d.state = .faulted ∧ ∃ data, t.ports.responses = s.ports.responses ++ [{ rkind := .fault, rdata := data }]) ∨
      (t.d.state = .idle ∧ MoveIsReset s))

/-- Reading commands have no side effect (R62): WCALC and RD in every state, and E.WIDTH and D.WIDTH in ACTIVE, only answer. -/
def Obligations.ReadingCommandsOnlyAnswer : Prop :=
  ∀ (s : State) (i : Instr),
    (∃ n, i = .wcalc n) ∨ (∃ reg, i = .rd reg) ∨ (i = .eWidth ∧ s.e.state = .active) ∨ (i = .dWidth ∧ s.d.state = .active) →
    ∃ k data, exec i s = .next (answered s k data)

/-- The frame of the commands that complete on channel E: E.PUT, E.PUTA and E.FLUSH leave the counters, the cause and everything
outside the stream, and only ever append to the bytes emitted; E.ADV leaves the stream, the state and the cause (R110, R114, R152).
Channel D, the configuration and what the host has still to send are left by all four. -/
def Obligations.CompletedChannelECommandsFrame : Prop :=
  ∀ (s t : State) (i : Instr), exec i s = .next t → t.e.state ≠ .faulted →
    ((∃ code sym width, i = .ePut code sym width) ∨ (∃ code sym, i = .ePuta code sym) ∨ i = .eFlush →
      t.cfg = s.cfg ∧ t.d = s.d ∧ t.e.next = s.e.next ∧ t.e.resets = s.e.resets ∧ t.e.cause = s.e.cause ∧
      (∃ more, t.e.out = s.e.out ++ more) ∧
      t.ports = { s.ports with responses := t.ports.responses }) ∧
    (i = .eAdv →
      t.cfg = s.cfg ∧ t.d = s.d ∧ t.e = { s.e with next := t.e.next, resets := t.e.resets } ∧
      t.ports = { s.ports with responses := t.ports.responses, pulses := t.ports.pulses })

/-- The frame of the commands that complete on channel D: D.GET and D.GETA leave the input, the counters and the cause; D.ADV leaves
the input, the cursor, the state, the reason and the cause (R130, R153). Channel E, the configuration and what the host has still
to send are left by all three. -/
def Obligations.CompletedChannelDCommandsFrame : Prop :=
  ∀ (s t : State) (i : Instr), exec i s = .next t → t.d.state ≠ .faulted →
    ((∃ width, i = .dGet width) ∨ i = .dGeta →
      t.cfg = s.cfg ∧ t.e = s.e ∧ t.d = { s.d with cursor := t.d.cursor, state := t.d.state, reason := t.d.reason } ∧
      t.ports = { s.ports with responses := t.ports.responses }) ∧
    (i = .dAdv →
      t.cfg = s.cfg ∧ t.e = s.e ∧ t.d = { s.d with next := t.d.next, resets := t.d.resets } ∧
      t.ports = { s.ports with responses := t.ports.responses, pulses := t.ports.pulses })

/-! ### 20 Streams: whole-machine rules -/

/-- Each completed byte is offered exactly once, in stream order, and is never taken back (R60): over every step the history of
`out_byte` only grows, by the bytes the step adds to the stream of channel E. That the history goes on over a hardware reset is the
model's choice (assumption log 5). -/
def Obligations.OfferedBytesAreNeverTakenBack : Prop :=
  ∀ s t : State, step s = .next t →
    ∃ more : List Byte, t.ports.earlierOut ++ t.e.out = s.ports.earlierOut ++ s.e.out ++ more ∧
      (more = [] ∨ t.e.out = s.e.out ++ more)

/-- The two bit placements differ only by reversing the bits of every stored byte (R53): a command executed on the mirrored machine
gives the mirror of what it gives on the machine, with the same response, but for the two registers that show the placement itself
and the partial byte, PARAM and E_ACC. -/
def Obligations.PlacementOnlyReversesStoredBytes : Prop :=
  ∀ (s : State) (i : Instr), i ≠ .rd 0x01 → i ≠ .rd 0x06 →
    (∀ t, exec i s = .next t → exec i (mirrored s) = .next (mirrored t)) ∧
    (∀ x, exec i s = .refused x → exec i (mirrored s) = .refused x)

/-! ### 30 Assembler -/

/-- An assembler never produces a word of an ill-formed command (R84): every command a line stands for is well formed, so that its
word decodes to it, with no operand wrapped and no reserved field set. -/
def Obligations.AssembledWordsDecodeToTheirCommands : Prop :=
  ∀ (line : List Char) (is : List Instr), commandsOfLine line = some is →
    assembleLine line = some (is.map encode) ∧ ∀ i ∈ is, i.WellFormed ∧ decode (encode i) = .command i

/-- The pseudo-instructions (R85): NOP is WCALC 0, the word of zeros, and changes no state; E.EMIT is E.PUTA with the same operands
and then E.ADV; E.STOP is `E.PUTA 1, 0`; E.END is that and then E.FLUSH. An expansion to two commands is not atomic: after a fault
in the first, the second faults with NOT_ACTIVE. -/
def Obligations.PseudoInstructionsExpand : Prop :=
  assembleLine ['N', 'O', 'P'] = some [0x00000000] ∧ (∀ s : State, exec (.wcalc 0) s = .next (answered s .ok 1)) ∧
  (∀ code sym : List Char, commandsOf .eEmit [code, sym] = (commandsOf .ePuta [code, sym]).map (· ++ [.eAdv])) ∧
  assembleLine ['E', '.', 'E', 'M', 'I', 'T', ' ', '2', ',', '\'', 'a', '\''] = some [0x30000261, 0x40000000] ∧
  assembleLine ['E', '.', 'S', 'T', 'O', 'P'] = some [0x30000100] ∧
  assembleLine ['E', '.', 'E', 'N', 'D'] = some [0x30000100, 0x50000000] ∧
  ∀ (s t : State) (code : Code) (sym : Byte), exec (.ePuta code sym) s = .next t → t.e.state = .faulted →
    ∀ i ∈ [Instr.eAdv, .eFlush], exec i t = .next (faultE t .notActive)
end

