-- ==== Sys2Proof/Laws/Decode.lean ====
section
/-! SUPPORT. The fields of a command word and the word of its fields are inverse (spec/30_encoding.md R70, R71), and what each
answer of the decoder says. -/

namespace Sys2Proof

theorem fieldsOf_wordOf (f : Fields) : fieldsOf (wordOf f) = f := by
  obtain ⟨op, wf, code, sym⟩ := f
  simp only [fieldsOf, wordOf, Fields.mk.injEq]
  refine ⟨?_, ?_, ?_, ?_⟩ <;> apply BitVec.eq_of_getLsbD_eq <;> intro i hi <;>
    simp only [BitVec.getLsbD_extractLsb', BitVec.getLsbD_append, hi, decide_true, Bool.true_and]
  · simp [show ¬ 28 + i < 8 by omega, show ¬ 28 + i - 8 < 16 by omega, show ¬ 28 + i - 8 - 16 < 4 by omega,
      show 28 + i - 8 - 16 - 4 = i by omega]
  · simp [show ¬ 24 + i < 8 by omega, show ¬ 24 + i - 8 < 16 by omega, show 24 + i - 8 - 16 = i by omega, hi]
  · simp [show ¬ 8 + i < 8 by omega, hi]
  · simp [hi]

theorem wordOf_fieldsOf (w : Word) : wordOf (fieldsOf w) = w := by
  simp only [fieldsOf, wordOf]
  apply BitVec.eq_of_getLsbD_eq
  intro i hi
  simp only [BitVec.getLsbD_extractLsb', BitVec.getLsbD_append]
  by_cases h1 : i < 8
  · simp [h1]
  · by_cases h2 : i - 8 < 16
    · simp [h1, h2, show 8 + (i - 8) = i by omega]
    · by_cases h3 : i - 8 - 16 < 4
      · simp [h1, h2, h3, show 24 + (i - 8 - 16) = i by omega]
      · simp [h1, h2, h3, show i - 8 - 16 - 4 < 4 by omega, show 28 + (i - 8 - 16 - 4) = i by omega]

theorem fieldsOf_encode (i : Instr) : fieldsOf (encode i) = encodeFields i := fieldsOf_wordOf _

/-- The width operand survives its `wf` field. -/
theorem widthOf_wfOf {width : Nat} (h : legalWidth width) : widthOf (wfOf width) = width := by
  simp only [widthOf, wfOf, BitVec.toNat_ofNat]
  obtain ⟨h1, h2⟩ := h
  omega

theorem wfOf_widthOf (wf : BitVec 4) : wfOf (widthOf wf) = wf := by
  simp [wfOf, widthOf]

theorem legalWidth_widthOf (wf : BitVec 4) : legalWidth (widthOf wf) := by
  have := wf.isLt
  simp only [legalWidth, widthOf]; omega

/-- A word decodes to a command exactly when its opcode names the command and no reserved field is set. -/
theorem decode_command_iff (w : Word) (i : Instr) :
    decode w = .command i ↔ commandOf (fieldsOf w) = some i ∧ reservedFieldSet (fieldsOf w) = false := by
  simp only [decode]
  cases h : commandOf (fieldsOf w) with
  | none => simp
  | some j =>
    cases hr : reservedFieldSet (fieldsOf w) <;> simp

theorem decode_illegal_iff (w : Word) : decode w = .illegalCommand ↔ commandOf (fieldsOf w) = none := by
  simp only [decode]
  cases h : commandOf (fieldsOf w) with
  | none => simp
  | some j =>
    cases hr : reservedFieldSet (fieldsOf w) <;> simp

theorem decode_reserved_iff (w : Word) (op : BitVec 4) :
    decode w = .reservedField op ↔
      (fieldsOf w).op = op ∧ (commandOf (fieldsOf w)).isSome ∧ reservedFieldSet (fieldsOf w) = true := by
  simp only [decode]
  cases h : commandOf (fieldsOf w) with
  | none => simp
  | some j =>
    cases hr : reservedFieldSet (fieldsOf w) <;> simp

/-- An opcode is one of sixteen. -/
theorem op_cases (op : BitVec 4) :
    op = 0x0 ∨ op = 0x1 ∨ op = 0x2 ∨ op = 0x3 ∨ op = 0x4 ∨ op = 0x5 ∨ op = 0x6 ∨ op = 0x7 ∨
    op = 0x8 ∨ op = 0x9 ∨ op = 0xA ∨ op = 0xB ∨ op = 0xC ∨ op = 0xD ∨ op = 0xE ∨ op = 0xF := by
  revert op; decide

/-- The command an opcode gives addresses the channel the opcode names (spec/30_encoding.md R73). -/
theorem commandOf_channel {f : Fields} {i : Instr} (h : commandOf f = some i) : i.channel = channelOfOp f.op := by
  obtain ⟨op, wf, code, sym⟩ := f
  rcases op_cases op with rfl | rfl | rfl | rfl | rfl | rfl | rfl | rfl | rfl | rfl | rfl | rfl | rfl | rfl | rfl | rfl <;>
    cases h <;> rfl

/-- A reserved opcode names no channel (R74). -/
theorem channelOfOp_of_commandOf_none {f : Fields} (h : commandOf f = none) : channelOfOp f.op = none := by
  obtain ⟨op, wf, code, sym⟩ := f
  rcases op_cases op with rfl | rfl | rfl | rfl | rfl | rfl | rfl | rfl | rfl | rfl | rfl | rfl | rfl | rfl | rfl | rfl <;>
    first | rfl | cases h

end Sys2Proof
end

