-- ==== Sys2Proof/Laws/State.lean ====
section
/-! SUPPORT. One lemma per field per named update of the state, true by `rfl` and in the simp set, so that no later proof unfolds
a record update. -/

namespace Sys2Proof.Machine

variable (s : State)

/-! ### The response -/

@[simp] theorem respond_cfg (k : RKind) (data : Word) : (respond k data s).cfg = s.cfg := rfl
@[simp] theorem respond_e (k : RKind) (data : Word) : (respond k data s).e = s.e := rfl
@[simp] theorem respond_d (k : RKind) (data : Word) : (respond k data s).d = s.d := rfl
@[simp] theorem respond_pending (k : RKind) (data : Word) : (respond k data s).ports.pending = s.ports.pending := rfl
@[simp] theorem respond_deliveries (k : RKind) (data : Word) : (respond k data s).ports.deliveries = s.ports.deliveries := rfl
@[simp] theorem respond_index (k : RKind) (data : Word) : (respond k data s).ports.index = s.ports.index := rfl
@[simp] theorem respond_responses (k : RKind) (data : Word) : (respond k data s).ports.responses = s.ports.responses ++ [{ rkind := k, rdata := data }] := rfl
@[simp] theorem respond_pulses (k : RKind) (data : Word) : (respond k data s).ports.pulses = s.ports.pulses := rfl
@[simp] theorem respond_earlierOut (k : RKind) (data : Word) : (respond k data s).ports.earlierOut = s.ports.earlierOut := rfl

/-! ### A command accepted -/

@[simp] theorem acceptCommand_cfg : (acceptCommand s).cfg = s.cfg := rfl
@[simp] theorem acceptCommand_e : (acceptCommand s).e = s.e := rfl
@[simp] theorem acceptCommand_d : (acceptCommand s).d = s.d := rfl
@[simp] theorem acceptCommand_pending : (acceptCommand s).ports.pending = s.ports.pending.tail := rfl
@[simp] theorem acceptCommand_deliveries : (acceptCommand s).ports.deliveries = s.ports.deliveries := rfl
@[simp] theorem acceptCommand_index : (acceptCommand s).ports.index = s.ports.index + 1 := rfl
@[simp] theorem acceptCommand_responses : (acceptCommand s).ports.responses = s.ports.responses := rfl
@[simp] theorem acceptCommand_pulses : (acceptCommand s).ports.pulses = s.ports.pulses := rfl
@[simp] theorem acceptCommand_earlierOut : (acceptCommand s).ports.earlierOut = s.ports.earlierOut := rfl

/-! ### A move taken -/

@[simp] theorem takeMove_cfg : (takeMove s).cfg = s.cfg := rfl
@[simp] theorem takeMove_e : (takeMove s).e = s.e := rfl
@[simp] theorem takeMove_d : (takeMove s).d = s.d := rfl
@[simp] theorem takeMove_pending : (takeMove s).ports.pending = s.ports.pending.tail := rfl
@[simp] theorem takeMove_deliveries : (takeMove s).ports.deliveries = s.ports.deliveries := rfl
@[simp] theorem takeMove_index : (takeMove s).ports.index = s.ports.index := rfl
@[simp] theorem takeMove_responses : (takeMove s).ports.responses = s.ports.responses := rfl
@[simp] theorem takeMove_pulses : (takeMove s).ports.pulses = s.ports.pulses := rfl
@[simp] theorem takeMove_earlierOut : (takeMove s).ports.earlierOut = s.ports.earlierOut := rfl

/-! ### A word presented -/

@[simp] theorem presentWord_cfg (w : Word) : (presentWord w s).cfg = s.cfg := rfl
@[simp] theorem presentWord_e (w : Word) : (presentWord w s).e = s.e := rfl
@[simp] theorem presentWord_d (w : Word) : (presentWord w s).d = s.d := rfl
@[simp] theorem presentWord_pending (w : Word) : (presentWord w s).ports.pending = .command w :: s.ports.pending.tail := rfl
@[simp] theorem presentWord_deliveries (w : Word) : (presentWord w s).ports.deliveries = s.ports.deliveries := rfl
@[simp] theorem presentWord_index (w : Word) : (presentWord w s).ports.index = s.ports.index := rfl
@[simp] theorem presentWord_responses (w : Word) : (presentWord w s).ports.responses = s.ports.responses := rfl
@[simp] theorem presentWord_pulses (w : Word) : (presentWord w s).ports.pulses = s.ports.pulses := rfl
@[simp] theorem presentWord_earlierOut (w : Word) : (presentWord w s).ports.earlierOut = s.ports.earlierOut := rfl

/-! ### Hardware reset -/

@[simp] theorem hardwareReset_cfg : (hardwareReset s).cfg = s.cfg := rfl
@[simp] theorem hardwareReset_e : (hardwareReset s).e = EChannel.reset := rfl
@[simp] theorem hardwareReset_d : (hardwareReset s).d = DChannel.reset := rfl
@[simp] theorem hardwareReset_pending : (hardwareReset s).ports.pending = s.ports.pending := rfl
@[simp] theorem hardwareReset_deliveries : (hardwareReset s).ports.deliveries = s.ports.deliveries := rfl
@[simp] theorem hardwareReset_index : (hardwareReset s).ports.index = s.ports.index := rfl
@[simp] theorem hardwareReset_responses : (hardwareReset s).ports.responses = s.ports.responses := rfl
@[simp] theorem hardwareReset_pulses : (hardwareReset s).ports.pulses = s.ports.pulses := rfl
@[simp] theorem hardwareReset_earlierOut : (hardwareReset s).ports.earlierOut = s.ports.earlierOut ++ s.e.out := rfl

/-! ### Channel E opened -/

@[simp] theorem openE_cfg : (openE s).cfg = s.cfg := rfl
@[simp] theorem openE_e : (openE s).e = EChannel.opened := rfl
@[simp] theorem openE_d : (openE s).d = s.d := rfl
@[simp] theorem openE_pending : (openE s).ports.pending = s.ports.pending := rfl
@[simp] theorem openE_deliveries : (openE s).ports.deliveries = s.ports.deliveries := rfl
@[simp] theorem openE_index : (openE s).ports.index = s.ports.index := rfl
@[simp] theorem openE_responses : (openE s).ports.responses = s.ports.responses ++ [{ rkind := .ok, rdata := 0 }] := rfl
@[simp] theorem openE_pulses : (openE s).ports.pulses = s.ports.pulses := rfl
@[simp] theorem openE_earlierOut : (openE s).ports.earlierOut = s.ports.earlierOut ++ s.e.out := rfl

/-! ### Channel D opened -/

@[simp] theorem openD_cfg (src : List Byte) : (openD src s).cfg = s.cfg := rfl
@[simp] theorem openD_e (src : List Byte) : (openD src s).e = s.e := rfl
@[simp] theorem openD_d (src : List Byte) : (openD src s).d = DChannel.opened src := rfl
@[simp] theorem openD_pending (src : List Byte) : (openD src s).ports.pending = s.ports.pending := rfl
@[simp] theorem openD_deliveries (src : List Byte) : (openD src s).ports.deliveries = s.ports.deliveries.tail := rfl
@[simp] theorem openD_index (src : List Byte) : (openD src s).ports.index = s.ports.index := rfl
@[simp] theorem openD_responses (src : List Byte) : (openD src s).ports.responses = s.ports.responses ++ [{ rkind := .ok, rdata := 0 }] := rfl
@[simp] theorem openD_pulses (src : List Byte) : (openD src s).ports.pulses = s.ports.pulses := rfl
@[simp] theorem openD_earlierOut (src : List Byte) : (openD src s).ports.earlierOut = s.ports.earlierOut := rfl

/-! ### A fault that names no channel -/

@[simp] theorem raise_none_cfg (c : Cause) : (raise none c s).cfg = s.cfg := rfl
@[simp] theorem raise_none_e (c : Cause) : (raise none c s).e = s.e := rfl
@[simp] theorem raise_none_d (c : Cause) : (raise none c s).d = s.d := rfl
@[simp] theorem raise_none_pending (c : Cause) : (raise none c s).ports.pending = s.ports.pending := rfl
@[simp] theorem raise_none_deliveries (c : Cause) : (raise none c s).ports.deliveries = s.ports.deliveries := rfl
@[simp] theorem raise_none_index (c : Cause) : (raise none c s).ports.index = s.ports.index := rfl
@[simp] theorem raise_none_responses (c : Cause) : (raise none c s).ports.responses = s.ports.responses ++ [{ rkind := .fault, rdata := faultData c }] := rfl
@[simp] theorem raise_none_pulses (c : Cause) : (raise none c s).ports.pulses = s.ports.pulses := rfl
@[simp] theorem raise_none_earlierOut (c : Cause) : (raise none c s).ports.earlierOut = s.ports.earlierOut := rfl

/-! ### A fault of channel E -/

@[simp] theorem raise_e_cfg (c : Cause) : (raise (some .e) c s).cfg = s.cfg := rfl
@[simp] theorem raise_e_e (c : Cause) : (raise (some .e) c s).e = s.e.faultedBy c := rfl
@[simp] theorem raise_e_d (c : Cause) : (raise (some .e) c s).d = s.d := rfl
@[simp] theorem raise_e_pending (c : Cause) : (raise (some .e) c s).ports.pending = s.ports.pending := rfl
@[simp] theorem raise_e_deliveries (c : Cause) : (raise (some .e) c s).ports.deliveries = s.ports.deliveries := rfl
@[simp] theorem raise_e_index (c : Cause) : (raise (some .e) c s).ports.index = s.ports.index := rfl
@[simp] theorem raise_e_responses (c : Cause) : (raise (some .e) c s).ports.responses = s.ports.responses ++ [{ rkind := .fault, rdata := faultData c }] := rfl
@[simp] theorem raise_e_pulses (c : Cause) : (raise (some .e) c s).ports.pulses = s.ports.pulses := rfl
@[simp] theorem raise_e_earlierOut (c : Cause) : (raise (some .e) c s).ports.earlierOut = s.ports.earlierOut := rfl

/-! ### A fault of channel D -/

@[simp] theorem raise_d_cfg (c : Cause) : (raise (some .d) c s).cfg = s.cfg := rfl
@[simp] theorem raise_d_e (c : Cause) : (raise (some .d) c s).e = s.e := rfl
@[simp] theorem raise_d_d (c : Cause) : (raise (some .d) c s).d = s.d.faultedBy c := rfl
@[simp] theorem raise_d_pending (c : Cause) : (raise (some .d) c s).ports.pending = s.ports.pending := rfl
@[simp] theorem raise_d_deliveries (c : Cause) : (raise (some .d) c s).ports.deliveries = s.ports.deliveries := rfl
@[simp] theorem raise_d_index (c : Cause) : (raise (some .d) c s).ports.index = s.ports.index := rfl
@[simp] theorem raise_d_responses (c : Cause) : (raise (some .d) c s).ports.responses = s.ports.responses ++ [{ rkind := .fault, rdata := faultData c }] := rfl
@[simp] theorem raise_d_pulses (c : Cause) : (raise (some .d) c s).ports.pulses = s.ports.pulses := rfl
@[simp] theorem raise_d_earlierOut (c : Cause) : (raise (some .d) c s).ports.earlierOut = s.ports.earlierOut := rfl

/-! ### Channel records -/

@[simp] theorem EChannel_faultedBy_next (ch : EChannel) (c : Cause) : (ch.faultedBy c).next = ch.next := rfl
@[simp] theorem EChannel_faultedBy_cursor (ch : EChannel) (c : Cause) : (ch.faultedBy c).cursor = ch.cursor := rfl
@[simp] theorem EChannel_faultedBy_acc (ch : EChannel) (c : Cause) : (ch.faultedBy c).acc = ch.acc := rfl
@[simp] theorem EChannel_faultedBy_resets (ch : EChannel) (c : Cause) : (ch.faultedBy c).resets = ch.resets := rfl
@[simp] theorem EChannel_faultedBy_out (ch : EChannel) (c : Cause) : (ch.faultedBy c).out = ch.out := rfl
@[simp] theorem EChannel_faultedBy_state (ch : EChannel) (c : Cause) : (ch.faultedBy c).state = .faulted := rfl
@[simp] theorem EChannel_faultedBy_cause (ch : EChannel) (c : Cause) : (ch.faultedBy c).cause = causeAfterFault ch.state ch.cause c := rfl
@[simp] theorem DChannel_faultedBy_reason (ch : DChannel) (c : Cause) : (ch.faultedBy c).reason = ch.reason := rfl
@[simp] theorem DChannel_faultedBy_next (ch : DChannel) (c : Cause) : (ch.faultedBy c).next = ch.next := rfl
@[simp] theorem DChannel_faultedBy_cursor (ch : DChannel) (c : Cause) : (ch.faultedBy c).cursor = ch.cursor := rfl
@[simp] theorem DChannel_faultedBy_resets (ch : DChannel) (c : Cause) : (ch.faultedBy c).resets = ch.resets := rfl
@[simp] theorem DChannel_faultedBy_src (ch : DChannel) (c : Cause) : (ch.faultedBy c).src = ch.src := rfl
@[simp] theorem DChannel_faultedBy_state (ch : DChannel) (c : Cause) : (ch.faultedBy c).state = .faulted := rfl
@[simp] theorem DChannel_faultedBy_cause (ch : DChannel) (c : Cause) : (ch.faultedBy c).cause = causeAfterFault ch.state ch.cause c := rfl
@[simp] theorem consumed_state (ch : DChannel) (width : Nat) : (ch.consumed width).state = ch.state := rfl
@[simp] theorem consumed_reason (ch : DChannel) (width : Nat) : (ch.consumed width).reason = ch.reason := rfl
@[simp] theorem consumed_cause (ch : DChannel) (width : Nat) : (ch.consumed width).cause = ch.cause := rfl
@[simp] theorem consumed_next (ch : DChannel) (width : Nat) : (ch.consumed width).next = ch.next := rfl
@[simp] theorem consumed_resets (ch : DChannel) (width : Nat) : (ch.consumed width).resets = ch.resets := rfl
@[simp] theorem consumed_src (ch : DChannel) (width : Nat) : (ch.consumed width).src = ch.src := rfl
@[simp] theorem consumed_cursor (ch : DChannel) (width : Nat) : (ch.consumed width).cursor = ch.cursor + BitVec.ofNat 64 (width + 8) := rfl
@[simp] theorem ended_state (ch : DChannel) (r : DoneReason) : (ch.ended r).state = .done := rfl
@[simp] theorem ended_reason (ch : DChannel) (r : DoneReason) : (ch.ended r).reason = r := rfl
@[simp] theorem ended_cause (ch : DChannel) (r : DoneReason) : (ch.ended r).cause = ch.cause := rfl
@[simp] theorem ended_next (ch : DChannel) (r : DoneReason) : (ch.ended r).next = ch.next := rfl
@[simp] theorem ended_cursor (ch : DChannel) (r : DoneReason) : (ch.ended r).cursor = ch.cursor := rfl
@[simp] theorem ended_resets (ch : DChannel) (r : DoneReason) : (ch.ended r).resets = ch.resets := rfl
@[simp] theorem ended_src (ch : DChannel) (r : DoneReason) : (ch.ended r).src = ch.src := rfl

@[simp] theorem channelState_e : s.channelState .e = s.e.state := rfl
@[simp] theorem channelState_d : s.channelState .d = s.d.state := rfl

/-! ### A conditional pulse -/

theorem pulseIf_true (ch : Channel) :
    pulseIf true ch s = { s with ports := { s.ports with pulses := s.ports.pulses ++ [ch] } } := rfl
theorem pulseIf_false (ch : Channel) : pulseIf false ch s = s := rfl

@[simp] theorem pulseIf_cfg (b : Bool) (ch : Channel) : (pulseIf b ch s).cfg = s.cfg := by cases b <;> rfl
@[simp] theorem pulseIf_e (b : Bool) (ch : Channel) : (pulseIf b ch s).e = s.e := by cases b <;> rfl
@[simp] theorem pulseIf_d (b : Bool) (ch : Channel) : (pulseIf b ch s).d = s.d := by cases b <;> rfl
@[simp] theorem pulseIf_pending (b : Bool) (ch : Channel) :
    (pulseIf b ch s).ports.pending = s.ports.pending := by cases b <;> simp [pulseIf]
@[simp] theorem pulseIf_deliveries (b : Bool) (ch : Channel) :
    (pulseIf b ch s).ports.deliveries = s.ports.deliveries := by cases b <;> simp [pulseIf]
@[simp] theorem pulseIf_index (b : Bool) (ch : Channel) :
    (pulseIf b ch s).ports.index = s.ports.index := by cases b <;> simp [pulseIf]
@[simp] theorem pulseIf_responses (b : Bool) (ch : Channel) :
    (pulseIf b ch s).ports.responses = s.ports.responses := by cases b <;> simp [pulseIf]
@[simp] theorem pulseIf_pulses (b : Bool) (ch : Channel) :
    (pulseIf b ch s).ports.pulses = s.ports.pulses ++ (if b then [ch] else []) := by cases b <;> simp [pulseIf]
@[simp] theorem pulseIf_earlierOut (b : Bool) (ch : Channel) :
    (pulseIf b ch s).ports.earlierOut = s.ports.earlierOut := by cases b <;> simp [pulseIf]

end Sys2Proof.Machine
end

