-- ==== Sys2Proof/Laws/Stream.lean ====
section
/-! SUPPORT. What the stream primitives do (spec/20_memory.md R52 to R55): one specification lemma for each of `appendBit`,
`appendBits`, `appendPair` and `readBits`, over the stream bits of a channel. -/

namespace Sys2Proof.Machine

/-! ### Positions -/

theorem pos_lt (p : BitPlacement) {j : Nat} (h : j < 8) : pos p j < 8 := by
  cases p
  · exact h
  · simp only [pos]; omega

theorem pos_inj (p : BitPlacement) {i j : Nat} (hi : i < 8) (hj : j < 8) : pos p i = pos p j ↔ i = j := by
  cases p
  · exact Iff.rfl
  · simp only [pos]; omega

/-- A bit placed at position `m` of a byte. -/
theorem getLsbD_placed (b : Bool) {m i : Nat} (hm : m < 8) (hi : i < 8) :
    ((BitVec.ofBool b).setWidth 8 <<< m).getLsbD i = (decide (i = m) && b) := by
  simp only [BitVec.getLsbD_shiftLeft, BitVec.getLsbD_setWidth, BitVec.getLsbD_ofBool]
  rcases Nat.lt_trichotomy i m with h | h | h
  · simp [h, hi, Nat.ne_of_lt h]
  · simp [h, hm]
  · have : i - m ≠ 0 := by omega
    simp [Nat.ne_of_gt h, this]

/-! ### The stream of channel E -/

/-- The cursor and the partial byte agree with the bytes emitted (spec/10_state.md R28, R40). -/
structure StreamOk (p : BitPlacement) (c : EChannel) : Prop where
  cursor : c.cursor.toNat = 8 * c.out.length + c.cursor.toNat % 8
  acc : ∀ j, c.cursor.toNat % 8 ≤ j → j < 8 → c.acc.getLsbD (pos p j) = false

/-- Stream bit `k` of channel E, emitted or still in the partial byte. -/
def EChannel.bit (p : BitPlacement) (c : EChannel) (k : Nat) : Bool := streamBit p (c.out ++ [c.acc]) k

theorem EChannel.Inv.streamOk {cfg : Config} {c : EChannel} (h : c.Inv cfg) : StreamOk cfg.bitPlacement c := ⟨h.cursor, h.acc⟩

theorem bit_of_lt (p : BitPlacement) (c : EChannel) {k : Nat} (h : k < 8 * c.out.length) :
    c.bit p k = streamBit p c.out k := by
  have : k / 8 < c.out.length := by omega
  simp [EChannel.bit, streamBit, List.getD_eq_getElem?_getD, List.getElem?_append_left this]

theorem bit_of_acc (p : BitPlacement) (c : EChannel) {j : Nat} (h : j < 8) :
    c.bit p (8 * c.out.length + j) = c.acc.getLsbD (pos p j) := by
  have h1 : (8 * c.out.length + j) / 8 = c.out.length := by omega
  have h2 : (8 * c.out.length + j) % 8 = j := by omega
  simp [EChannel.bit, streamBit, h1, h2, List.getD_eq_getElem?_getD]

/-- Stream bits at or above the cursor read as 0. -/
theorem bit_beyond (p : BitPlacement) {c : EChannel} (ok : StreamOk p c) {k : Nat} (h : c.cursor.toNat ≤ k) :
    c.bit p k = false := by
  have hc := ok.cursor
  by_cases hk : k / 8 = c.out.length
  · have : k = 8 * c.out.length + k % 8 := by omega
    rw [this, bit_of_acc p c (by omega)]
    exact ok.acc _ (by omega) (by omega)
  · have hnone : (c.out ++ [c.acc])[k / 8]? = none := List.getElem?_eq_none (by simp; omega)
    simp [EChannel.bit, streamBit, List.getD_eq_getElem?_getD, hnone]

/-- A channel with no bit appended. -/
theorem streamOk_empty (p : BitPlacement) {c : EChannel} (h1 : c.cursor = 0) (h2 : c.acc = 0) (h3 : c.out = []) :
    StreamOk p c := by
  refine ⟨by simp [h1, h3], fun j _ _ => ?_⟩
  rw [h2]; exact BitVec.getLsbD_zero

/-- Everything one turn of the loop of `AppendBits` does (R54), below the cursor's last value. -/
theorem appendBit_spec (p : BitPlacement) (b : Bool) {c : EChannel} (ok : StreamOk p c) (room : c.cursor.toNat + 1 < 2 ^ 64) :
    StreamOk p (appendBit p b c) ∧ (appendBit p b c).cursor.toNat = c.cursor.toNat + 1 ∧
      (appendBit p b c).bit p c.cursor.toNat = b ∧
      ∀ k, k < c.cursor.toNat → (appendBit p b c).bit p k = c.bit p k := by
  have hc := ok.cursor
  have hcur : (c.cursor + 1).toNat = c.cursor.toNat + 1 := by
    rw [BitVec.toNat_add, show (1 : BitVec 64).toNat = 1 from rfl]; omega
  have hf : c.cursor.toNat % 8 < 8 := Nat.mod_lt _ (by decide)
  have hbit : ∀ i, i < 8 → (c.acc ||| ((BitVec.ofBool b).setWidth 8 <<< pos p (c.cursor.toNat % 8))).getLsbD (pos p i)
      = (c.acc.getLsbD (pos p i) || (decide (i = c.cursor.toNat % 8) && b)) := by
    intro i hi
    rw [BitVec.getLsbD_or, getLsbD_placed b (pos_lt p hf) (pos_lt p hi)]
    simp only [pos_inj p hi hf]
  have hclear := ok.acc (c.cursor.toNat % 8) (Nat.le_refl _) hf
  by_cases hfull : (c.cursor + 1).toNat % 8 = 0
  · -- the byte is complete and is emitted
    have hval : appendBit p b c = { c with
        cursor := c.cursor + 1
        out := c.out ++ [c.acc ||| ((BitVec.ofBool b).setWidth 8 <<< pos p (c.cursor.toNat % 8))]
        acc := 0 } := by
      simp only [appendBit, hfull, if_true]
    have h7 : c.cursor.toNat % 8 = 7 := by omega
    have hlow : ∀ k, k < 8 * (c.out.length + 1) → (appendBit p b c).bit p k =
        streamBit p (c.out ++ [c.acc ||| ((BitVec.ofBool b).setWidth 8 <<< pos p (c.cursor.toNat % 8))]) k := by
      intro k hk
      rw [hval, bit_of_lt]
      simpa using hk
    refine ⟨⟨?_, ?_⟩, ?_, ?_, ?_⟩
    · rw [hval]; simp only [List.length_append, List.length_cons, List.length_nil]; omega
    · rw [hval]; intro j _ _; simp
    · rw [hval]; exact hcur
    · rw [hlow _ (by omega)]
      have : c.cursor.toNat = 8 * c.out.length + c.cursor.toNat % 8 := hc
      have h1 : c.cursor.toNat / 8 = c.out.length := by omega
      simp only [streamBit, h1, List.getD_eq_getElem?_getD, List.getElem?_append_right (Nat.le_refl _)]
      simp only [Nat.sub_self, List.getElem?_cons_zero, Option.getD_some]
      rw [hbit _ hf, hclear]; simp
    · intro k hk
      rw [hlow _ (by omega)]
      by_cases hk8 : k / 8 = c.out.length
      · have hke : k = 8 * c.out.length + k % 8 := by omega
        have hne : k % 8 ≠ c.cursor.toNat % 8 := by omega
        rw [hke, bit_of_acc p c (Nat.mod_lt _ (by decide)), ← hke]
        simp only [streamBit, hk8, List.getD_eq_getElem?_getD, List.getElem?_append_right (Nat.le_refl _)]
        simp only [Nat.sub_self, List.getElem?_cons_zero, Option.getD_some]
        rw [hbit _ (Nat.mod_lt _ (by decide))]; simp [hne]
      · have hlt : k / 8 < c.out.length := by omega
        rw [bit_of_lt p c (by omega)]
        simp only [streamBit, List.getD_eq_getElem?_getD, List.getElem?_append_left hlt]
  · -- the byte is still partial
    have hval : appendBit p b c = { c with
        cursor := c.cursor + 1
        acc := c.acc ||| ((BitVec.ofBool b).setWidth 8 <<< pos p (c.cursor.toNat % 8)) } := by
      simp only [appendBit, hfull, if_false]
    have h7 : c.cursor.toNat % 8 < 7 := by omega
    refine ⟨⟨?_, ?_⟩, ?_, ?_, ?_⟩
    · rw [hval]; simp only []; omega
    · rw [hval]; intro j hj hj8
      simp only [] at hj ⊢
      rw [hbit _ hj8, ok.acc j (by omega) hj8]
      have : j ≠ c.cursor.toNat % 8 := by omega
      simp [this]
    · rw [hval]; exact hcur
    · have hb := bit_of_acc p (appendBit p b c) hf
      rw [hval] at hb ⊢
      simp only [] at hb
      rw [show c.cursor.toNat = 8 * c.out.length + c.cursor.toNat % 8 from hc]
      rw [show (8 * c.out.length + c.cursor.toNat % 8) % 8 = c.cursor.toNat % 8 by omega]
      rw [hb, hbit _ hf, hclear]; simp
    · intro k hk
      by_cases hk8 : k / 8 = c.out.length
      · have hke : k = 8 * c.out.length + k % 8 := by omega
        have hne : k % 8 ≠ c.cursor.toNat % 8 := by omega
        have hb := bit_of_acc p (appendBit p b c) (Nat.mod_lt k (show 0 < 8 by decide))
        rw [hval] at hb ⊢
        simp only [] at hb
        rw [hke, bit_of_acc p c (Nat.mod_lt _ (by decide))]
        rw [hb, hbit _ (Nat.mod_lt _ (by decide))]; simp [hne]
      · rw [bit_of_lt p c (by omega), hval, bit_of_lt]
        simp only []; omega

/-- What `appendBit` leaves unchanged. -/
theorem appendBit_frame (p : BitPlacement) (b : Bool) (c : EChannel) :
    (appendBit p b c).state = c.state ∧ (appendBit p b c).cause = c.cause ∧ (appendBit p b c).next = c.next ∧
      (appendBit p b c).resets = c.resets := by
  simp only [appendBit]
  split <;> exact ⟨rfl, rfl, rfl, rfl⟩

/-- A byte is only ever appended to `E.out`. -/
theorem appendBit_out (p : BitPlacement) (b : Bool) (c : EChannel) : ∃ more, (appendBit p b c).out = c.out ++ more := by
  simp only [appendBit]
  split
  · exact ⟨_, rfl⟩
  · exact ⟨[], by simp⟩

/-- What `AppendBits` leaves unchanged. -/
theorem appendBits_frame (p : BitPlacement) (v n : Nat) (c : EChannel) :
    (appendBits p v n c).state = c.state ∧ (appendBits p v n c).cause = c.cause ∧ (appendBits p v n c).next = c.next ∧
      (appendBits p v n c).resets = c.resets := by
  induction n with
  | zero => exact ⟨rfl, rfl, rfl, rfl⟩
  | succ n ih =>
    have h := appendBit_frame p (v.testBit n) (appendBits p v n c)
    simp only [appendBits]
    exact ⟨h.1.trans ih.1, h.2.1.trans ih.2.1, h.2.2.1.trans ih.2.2.1, h.2.2.2.trans ih.2.2.2⟩

@[simp] theorem appendBits_state (p : BitPlacement) (v n : Nat) (c : EChannel) : (appendBits p v n c).state = c.state :=
  (appendBits_frame p v n c).1
@[simp] theorem appendBits_cause (p : BitPlacement) (v n : Nat) (c : EChannel) : (appendBits p v n c).cause = c.cause :=
  (appendBits_frame p v n c).2.1
@[simp] theorem appendBits_next (p : BitPlacement) (v n : Nat) (c : EChannel) : (appendBits p v n c).next = c.next :=
  (appendBits_frame p v n c).2.2.1
@[simp] theorem appendBits_resets (p : BitPlacement) (v n : Nat) (c : EChannel) : (appendBits p v n c).resets = c.resets :=
  (appendBits_frame p v n c).2.2.2

theorem appendBits_out (p : BitPlacement) (v n : Nat) (c : EChannel) : ∃ more, (appendBits p v n c).out = c.out ++ more := by
  induction n with
  | zero => exact ⟨[], by simp [appendBits]⟩
  | succ n ih =>
    obtain ⟨m1, h1⟩ := ih
    obtain ⟨m2, h2⟩ := appendBit_out p (v.testBit n) (appendBits p v n c)
    exact ⟨m1 ++ m2, by rw [appendBits, h2, h1, List.append_assoc]⟩

/-- Everything `AppendBits(v, n)` does (R54): `n` bits of `v`, bit 0 first, from the cursor on. -/
theorem appendBits_spec (p : BitPlacement) (v n : Nat) {c : EChannel} (ok : StreamOk p c) (room : c.cursor.toNat + n < 2 ^ 64) :
    StreamOk p (appendBits p v n c) ∧ (appendBits p v n c).cursor.toNat = c.cursor.toNat + n ∧
      (∀ i, i < n → (appendBits p v n c).bit p (c.cursor.toNat + i) = v.testBit i) ∧
      ∀ k, k < c.cursor.toNat → (appendBits p v n c).bit p k = c.bit p k := by
  induction n with
  | zero => exact ⟨ok, rfl, fun i hi => absurd hi (Nat.not_lt_zero i), fun _ _ => rfl⟩
  | succ n ih =>
    obtain ⟨ok', hcur, hnew, hold⟩ := ih (by omega)
    obtain ⟨ok'', hcur', hlast, hold'⟩ := appendBit_spec p (v.testBit n) ok' (by omega)
    refine ⟨ok'', by rw [appendBits, hcur', hcur]; omega, ?_, ?_⟩
    · intro i hi
      by_cases h : i = n
      · rw [h, ← hcur]; exact hlast
      · rw [appendBits, hold' _ (by omega)]; exact hnew i (by omega)
    · intro k hk
      rw [appendBits, hold' _ (by omega)]; exact hold k hk

/-- Everything appending a pair does (spec/30_encoding.md R81). -/
theorem appendPair_spec (p : BitPlacement) (code : Code) (sym : Byte) (width : Nat) {c : EChannel} (ok : StreamOk p c)
    (room : c.cursor.toNat + width + 8 < 2 ^ 64) :
    StreamOk p (appendPair p code sym width c) ∧
      (appendPair p code sym width c).cursor.toNat = c.cursor.toNat + width + 8 ∧
      (∀ i, i < width → (appendPair p code sym width c).bit p (c.cursor.toNat + i) = code.getLsbD i) ∧
      (∀ i, i < 8 → (appendPair p code sym width c).bit p (c.cursor.toNat + width + i) = sym.getLsbD i) ∧
      ∀ k, k < c.cursor.toNat → (appendPair p code sym width c).bit p k = c.bit p k := by
  obtain ⟨ok1, cur1, new1, old1⟩ := appendBits_spec p code.toNat width ok (by omega)
  obtain ⟨ok2, cur2, new2, old2⟩ := appendBits_spec p sym.toNat 8 ok1 (by omega)
  refine ⟨ok2, by rw [appendPair, cur2, cur1], ?_, ?_, ?_⟩
  · intro i hi
    rw [appendPair, old2 _ (by omega), new1 i hi]; rfl
  · intro i hi
    have := new2 i hi
    rw [cur1] at this
    rw [appendPair, this]; rfl
  · intro k hk
    rw [appendPair, old2 _ (by omega), old1 k hk]

@[simp] theorem appendPair_state (p : BitPlacement) (code : Code) (sym : Byte) (width : Nat) (c : EChannel) :
    (appendPair p code sym width c).state = c.state := by simp [appendPair]
@[simp] theorem appendPair_cause (p : BitPlacement) (code : Code) (sym : Byte) (width : Nat) (c : EChannel) :
    (appendPair p code sym width c).cause = c.cause := by simp [appendPair]
@[simp] theorem appendPair_next (p : BitPlacement) (code : Code) (sym : Byte) (width : Nat) (c : EChannel) :
    (appendPair p code sym width c).next = c.next := by simp [appendPair]
@[simp] theorem appendPair_resets (p : BitPlacement) (code : Code) (sym : Byte) (width : Nat) (c : EChannel) :
    (appendPair p code sym width c).resets = c.resets := by simp [appendPair]

theorem appendPair_out (p : BitPlacement) (code : Code) (sym : Byte) (width : Nat) (c : EChannel) :
    ∃ more, (appendPair p code sym width c).out = c.out ++ more := by
  obtain ⟨m1, h1⟩ := appendBits_out p code.toNat width c
  obtain ⟨m2, h2⟩ := appendBits_out p sym.toNat 8 (appendBits p code.toNat width c)
  exact ⟨m1 ++ m2, by rw [appendPair, h2, h1, List.append_assoc]⟩

/-! ### Reading -/

theorem readBits_lt (p : BitPlacement) (bytes : List Byte) (k n : Nat) : readBits p bytes k n < 2 ^ n := by
  induction n with
  | zero => simp [readBits]
  | succ n ih =>
    have : (streamBit p bytes (k + n)).toNat ≤ 1 := Bool.toNat_le _
    have h2 : (streamBit p bytes (k + n)).toNat * 2 ^ n ≤ 1 * 2 ^ n := Nat.mul_le_mul_right _ this
    rw [readBits, Nat.pow_succ]; omega

/-- Everything `ReadBits(k, n)` answers (R55): bit `i` is stream bit `k + i`. -/
theorem readBits_testBit (p : BitPlacement) (bytes : List Byte) (k n : Nat) {i : Nat} (h : i < n) :
    (readBits p bytes k n).testBit i = streamBit p bytes (k + i) := by
  induction n with
  | zero => omega
  | succ n ih =>
    have hlt := readBits_lt p bytes k n
    rw [readBits, Nat.add_comm, Nat.mul_comm]
    by_cases hi : i = n
    · subst hi
      rw [Nat.testBit_two_pow_mul_add _ hlt]
      cases streamBit p bytes (k + i) <;> simp
    · rw [Nat.testBit_two_pow_mul_add _ hlt, if_pos (by omega)]
      exact ih (by omega)

/-- Two sequences that agree on the bits read give the same value. -/
theorem readBits_congr (p q : BitPlacement) (b1 b2 : List Byte) (k1 k2 n : Nat)
    (h : ∀ i, i < n → streamBit p b1 (k1 + i) = streamBit q b2 (k2 + i)) : readBits p b1 k1 n = readBits q b2 k2 n := by
  induction n with
  | zero => rfl
  | succ n ih => rw [readBits, readBits, ih fun i hi => h i (by omega), h n (by omega)]

/-- Reading back the bits of a value gives the value. -/
theorem readBits_eq (p : BitPlacement) (bytes : List Byte) (k n v : Nat) (hv : v < 2 ^ n)
    (h : ∀ i, i < n → streamBit p bytes (k + i) = v.testBit i) : readBits p bytes k n = v := by
  apply Nat.eq_of_testBit_eq
  intro i
  by_cases hi : i < n
  · rw [readBits_testBit p bytes k n hi, h i hi]
  · rw [Nat.testBit_lt_two_pow (Nat.lt_of_lt_of_le (readBits_lt p bytes k n) (Nat.pow_le_pow_right (by decide) (by omega))),
      Nat.testBit_lt_two_pow (Nat.lt_of_lt_of_le hv (Nat.pow_le_pow_right (by decide) (by omega)))]

end Sys2Proof.Machine
end

