-- ==== Sys2Proof/Laws/Width.lean ====
section
/-! SUPPORT. The code-width function as the number of bits of a value (spec/40_code_width.md R100). -/

namespace Sys2Proof.Machine

theorem codeWidth_of_lt {n : Nat} (h : n < 2) : codeWidth n = 1 := by simp [codeWidth, h]

theorem codeWidth_of_ge {n : Nat} (h : 2 ≤ n) : codeWidth n = Nat.log2 n + 1 := by
  simp [codeWidth, Nat.not_lt.mpr h]

theorem codeWidth_pos (n : Nat) : 1 ≤ codeWidth n := by
  unfold codeWidth; split <;> omega

/-- A value is below 2 to its width. -/
theorem lt_two_pow_codeWidth (n : Nat) : n < 2 ^ codeWidth n := by
  unfold codeWidth
  split
  · omega
  · exact Nat.lt_log2_self

/-- A positive value is at least 2 to one less than its width. -/
theorem two_pow_le_of_pos {n : Nat} (h : 1 ≤ n) : 2 ^ (codeWidth n - 1) ≤ n := by
  unfold codeWidth
  split
  · simpa using h
  · simpa using Nat.log2_self_le (by omega)

/-- The width is the least exponent above the value. -/
theorem codeWidth_le_iff {n k : Nat} (hk : 1 ≤ k) : codeWidth n ≤ k ↔ n < 2 ^ k := by
  constructor
  · intro h
    exact Nat.lt_of_lt_of_le (lt_two_pow_codeWidth n) (Nat.pow_le_pow_right (by decide) h)
  · intro h
    by_cases hn : n < 2
    · rw [codeWidth_of_lt hn]; exact hk
    · have h1 := two_pow_le_of_pos (n := n) (by omega)
      have h2 : codeWidth n - 1 < k := (Nat.pow_lt_pow_iff_right (by decide)).mp (Nat.lt_of_le_of_lt h1 h)
      omega

/-- A 16-bit value has a width from 1 to 16. -/
theorem codeWidth_code_le (c : Code) : codeWidth c.toNat ≤ 16 := (codeWidth_le_iff (by decide)).mpr c.isLt

theorem codeWidth_legal (c : Code) : legalWidth (codeWidth c.toNat) := ⟨codeWidth_pos _, codeWidth_code_le c⟩

end Sys2Proof.Machine
end

