-- ==== Sys2Proof/Laws/Invariant.lean ====
section
/-! SUPPORT. Each shared operation keeps the invariant of Safety.lean: one lemma per operation, which the lemma of a command
cites. -/

namespace Sys2Proof.Machine

variable {s : State}

/-- The invariant says nothing of the ports. -/
theorem inv_of_channels {t : State} (h : s.Inv) (hc : t.cfg = s.cfg) (he : t.e.Inv s.cfg) (hd : t.d.Inv s.cfg) : t.Inv :=
  ⟨by rw [hc]; exact h.legal, by rw [hc]; exact he, by rw [hc]; exact hd⟩

/-- Channel E replaced by one that keeps its invariants. -/
theorem inv_withE {c : EChannel} (h : s.Inv) (he : c.Inv s.cfg) : ({ s with e := c } : State).Inv := ⟨h.legal, he, h.d⟩

/-- Channel D replaced by one that keeps its invariants. -/
theorem inv_withD {c : DChannel} (h : s.Inv) (hd : c.Inv s.cfg) : ({ s with d := c } : State).Inv := ⟨h.legal, h.e, hd⟩

theorem respond_inv (k : RKind) (data : Word) (h : s.Inv) : (respond k data s).Inv := inv_of_channels h rfl h.e h.d

theorem acceptCommand_inv (h : s.Inv) : (acceptCommand s).Inv := inv_of_channels h rfl h.e h.d

theorem takeMove_inv (h : s.Inv) : (takeMove s).Inv := inv_of_channels h rfl h.e h.d

/-- A fault leaves a cause: the first. -/
theorem causeAfterFault_ne_none {st : ChanState} {held : Option Cause} (c : Cause) (h : st = .faulted ↔ held ≠ none) :
    causeAfterFault st held c ≠ none := by
  unfold causeAfterFault
  split
  · rename_i hs; exact h.mp hs
  · simp

theorem EChannel_faultedBy_inv {cfg : Config} {ch : EChannel} (c : Cause) (h : ch.Inv cfg) : (ch.faultedBy c).Inv cfg where
  counter := h.counter
  cursor := h.cursor
  acc := h.acc
  cause := ⟨fun _ => causeAfterFault_ne_none c h.cause, fun _ => rfl⟩
  flushed := fun hd => by simp at hd

theorem DChannel_faultedBy_inv {cfg : Config} {ch : DChannel} (c : Cause) (h : ch.Inv cfg) : (ch.faultedBy c).Inv cfg where
  counter := h.counter
  cursor := h.cursor
  src := h.src
  cause := ⟨fun _ => causeAfterFault_ne_none c h.cause, fun _ => rfl⟩
  done := fun hd => by simp at hd
  notDone := fun hd => by simp at hd

theorem raise_inv (ch : Option Channel) (c : Cause) (h : s.Inv) : (raise ch c s).Inv := by
  match ch with
  | none => exact inv_of_channels h rfl h.e h.d
  | some .e => exact inv_of_channels h rfl (EChannel_faultedBy_inv c h.e) h.d
  | some .d => exact inv_of_channels h rfl h.e (DChannel_faultedBy_inv c h.d)

theorem whenActive_inv (ch : Channel) {body : State} (h : s.Inv) (hb : s.channelState ch = .active → body.Inv) :
    (whenActive ch s body).Inv := by
  unfold whenActive
  split
  · rename_i ha; exact hb ha
  · exact raise_inv _ _ h

theorem counterInRange_start {cfg : Config} (h : cfg.Legal) : counterInRange cfg startCode :=
  ⟨Nat.le_refl _, by have := h.1; show 2 < _; omega⟩

theorem EChannel_reset_inv {cfg : Config} (h : cfg.Legal) : EChannel.reset.Inv cfg where
  counter := counterInRange_start h
  cursor := rfl
  acc := fun _ _ _ => BitVec.getLsbD_zero
  cause := by simp [EChannel.reset]
  flushed := fun hd => by simp [EChannel.reset] at hd

theorem EChannel_opened_inv {cfg : Config} (h : cfg.Legal) : EChannel.opened.Inv cfg where
  counter := counterInRange_start h
  cursor := rfl
  acc := fun _ _ _ => BitVec.getLsbD_zero
  cause := by simp [EChannel.opened, EChannel.reset]
  flushed := fun hd => by simp [EChannel.opened] at hd

theorem DChannel_reset_inv {cfg : Config} (h : cfg.Legal) : DChannel.reset.Inv cfg where
  counter := counterInRange_start h
  cursor := Nat.le_refl _
  src := by decide
  cause := by simp [DChannel.reset]
  done := fun hd => by simp [DChannel.reset] at hd
  notDone := fun _ => rfl

theorem DChannel_opened_inv {cfg : Config} {src : List Byte} (h : cfg.Legal) (hsrc : src.length < 2 ^ 61) :
    (DChannel.opened src).Inv cfg where
  counter := counterInRange_start h
  cursor := Nat.zero_le _
  src := hsrc
  cause := by simp [DChannel.opened, DChannel.reset]
  done := fun hd => by simp [DChannel.opened] at hd
  notDone := fun _ => rfl

theorem hardwareReset_inv (h : s.Inv) : (hardwareReset s).Inv :=
  inv_of_channels h rfl (EChannel_reset_inv h.legal) (DChannel_reset_inv h.legal)

theorem openE_inv (h : s.Inv) : (openE s).Inv := inv_of_channels h rfl (EChannel_opened_inv h.legal) h.d

theorem openD_inv {src : List Byte} (h : s.Inv) (hsrc : src.length < 2 ^ 61) : (openD src s).Inv :=
  inv_of_channels h rfl h.e (DChannel_opened_inv h.legal hsrc)

/-! ### The pack channel -/

/-- A channel whose stream stays in order, and whose other registers stay, keeps the invariant while it is not DONE. -/
theorem EChannel_inv_of_stream {cfg : Config} {c c' : EChannel} (h : c.Inv cfg) (ok : StreamOk cfg.bitPlacement c')
    (hst : c'.state = c.state) (hcause : c'.cause = c.cause) (hnext : c'.next = c.next) (hdone : c.state ≠ .done) :
    c'.Inv cfg where
  counter := by rw [hnext]; exact h.counter
  cursor := ok.cursor
  acc := ok.acc
  cause := by rw [hst, hcause]; exact h.cause
  flushed := fun hd => absurd (hst ▸ hd) hdone

theorem packPair_inv (code : Code) (sym : Byte) (width : Nat) (h : s.Inv) (ha : s.e.state = .active) :
    (packPair code sym width s).Inv := by
  unfold packPair
  split
  · exact raise_inv _ _ h
  · rename_i hroom
    obtain ⟨ok, -, -, -, -⟩ := appendPair_spec s.cfg.bitPlacement code sym width h.e.streamOk (by omega)
    refine respond_inv _ _ (inv_withE h ?_)
    exact EChannel_inv_of_stream h.e ok (by simp) (by simp) (by simp) (by simp [ha])

/-- A flush ends on a byte boundary. -/
theorem cursor_add_padBits (c : EChannel) : (c.cursor.toNat + c.padBits) % 8 = 0 := by
  unfold EChannel.padBits; omega

theorem flushE_inv (h : s.Inv) (ha : s.e.state = .active) : (flushE s).Inv := by
  unfold flushE
  split
  · exact raise_inv _ _ h
  · rename_i hroom
    obtain ⟨ok, hcur, -, -⟩ := appendBits_spec s.cfg.bitPlacement 0 s.e.padBits h.e.streamOk (by omega)
    refine respond_inv _ _ (inv_withE h ?_)
    exact {
      counter := by simpa using h.e.counter
      cursor := ok.cursor
      acc := ok.acc
      cause := by
        have := h.e.cause
        simp only [ha] at this
        simpa using this
      flushed := fun _ => by
        show (appendBits s.cfg.bitPlacement 0 s.e.padBits s.e).cursor.toNat % 8 = 0
        rw [hcur]; exact cursor_add_padBits s.e }

/-! ### The unpack channel -/

/-- Consuming a pair that is there keeps the cursor within the input. -/
theorem consumed_toNat {cfg : Config} {c : DChannel} (h : c.Inv cfg) {width : Nat} (hrem : ¬ c.remaining < width + 8) :
    (c.consumed width).cursor.toNat = c.cursor.toNat + width + 8 ∧
      (c.consumed width).cursor.toNat ≤ 8 * c.src.length := by
  have h1 := h.cursor
  have h2 := h.src
  unfold DChannel.remaining at hrem
  rw [consumed_cursor, BitVec.toNat_add, BitVec.toNat_ofNat]
  omega

theorem consumed_inv {cfg : Config} {c : DChannel} (h : c.Inv cfg) {width : Nat} (hrem : ¬ c.remaining < width + 8) :
    (c.consumed width).Inv cfg where
  counter := h.counter
  cursor := (consumed_toNat h hrem).2
  src := h.src
  cause := h.cause
  done := h.done
  notDone := h.notDone

theorem ended_inv {cfg : Config} {c : DChannel} {r : DoneReason} (h : c.Inv cfg) (ha : c.state = .active)
    (hr : r ≠ .notDone) : (c.ended r).Inv cfg where
  counter := h.counter
  cursor := h.cursor
  src := h.src
  cause := by
    have := h.cause
    simp only [ha] at this
    simpa using this
  done := fun _ => hr
  notDone := fun hd => by simp at hd

theorem unpackPair_inv (width : Nat) (check : Bool) (h : s.Inv) (ha : s.d.state = .active) :
    (unpackPair width check s).Inv := by
  unfold unpackPair
  split
  · exact respond_inv _ _ (inv_withD h (ended_inv h.d ha (by simp)))
  · rename_i hrem
    split
    · exact respond_inv _ _ (inv_withD h (ended_inv (consumed_inv h.d hrem) ha (by simp)))
    · split
      · exact raise_inv _ _ h
      · exact respond_inv _ _ (inv_withD h (consumed_inv h.d hrem))

/-! ### The arbiter -/

theorem counterFires_iff (cfg : Config) (next : Code) : counterFires cfg next = true ↔ next.toNat + 1 = cfg.maxCode := by
  simp [counterFires]

/-- Below its last value the counter moves on by one. -/
theorem counterAfter_toNat {cfg : Config} {next : Code} (hl : cfg.Legal) (h : counterInRange cfg next)
    (hf : next.toNat + 1 ≠ cfg.maxCode) : (counterAfter cfg next).toNat = next.toNat + 1 := by
  have hf' : counterFires cfg next = false := by simpa [counterFires] using hf
  have h1 := hl.2
  have h2 := h.2
  simp only [counterAfter, hf', Bool.false_eq_true, if_false]
  rw [BitVec.toNat_add, show (1 : Code).toNat = 1 from rfl]; omega

/-- At its last value the counter returns to START_CODE. -/
theorem counterAfter_fires {cfg : Config} {next : Code} (hf : next.toNat + 1 = cfg.maxCode) :
    counterAfter cfg next = startCode := by
  simp [counterAfter, counterFires, hf]

theorem counterAfter_inRange {cfg : Config} {next : Code} (hl : cfg.Legal) (h : counterInRange cfg next) :
    counterInRange cfg (counterAfter cfg next) := by
  by_cases hf : next.toNat + 1 = cfg.maxCode
  · rw [counterAfter_fires hf]; exact counterInRange_start hl
  · have := counterAfter_toNat hl h hf
    have h1 := h.1
    have h2 := h.2
    constructor
    · omega
    · omega

theorem advanceE_inv (h : s.Inv) : (advanceE s).Inv := by
  refine respond_inv _ _ (inv_of_channels (t := pulseIf _ _ _) h (by simp) ?_ (by simpa using h.d))
  rw [pulseIf_e]
  exact { counter := counterAfter_inRange h.legal h.e.counter, cursor := h.e.cursor, acc := h.e.acc, cause := h.e.cause,
          flushed := h.e.flushed }

theorem advanceD_inv (h : s.Inv) : (advanceD s).Inv := by
  refine respond_inv _ _ (inv_of_channels (t := pulseIf _ _ _) h (by simp) (by simpa using h.e) ?_)
  rw [pulseIf_d]
  exact { counter := counterAfter_inRange h.legal h.d.counter, cursor := h.d.cursor, src := h.d.src, cause := h.d.cause,
          done := h.d.done, notDone := h.d.notDone }

end Sys2Proof.Machine
end

