-- ==== Sys2Proof/Laws/Vocabulary.lean ====
section
/-! SUPPORT. The words the statements are written in (Sys2Proof.Spec) and the model's operations: each says the same thing, so that a
proof turns a statement into the model's terms by one rewrite. -/

namespace Sys2Proof.Spec

open Sys2Proof.Machine

theorem placed_eq (p : BitPlacement) (j : Nat) : placed p j = pos p j := by cases p <;> simp [placed, pos]

theorem storedBit_eq (p : BitPlacement) (bytes : List Byte) (k : Nat) : storedBit p bytes k = streamBit p bytes k := by
  simp [storedBit, streamBit, placed_eq]

theorem eBit_eq (p : BitPlacement) (c : EChannel) (k : Nat) : eBit p c k = c.bit p k := storedBit_eq _ _ _

theorem answered_eq (s : State) (k : RKind) (data : Word) : answered s k data = respond k data s := rfl

theorem codeOfCause_eq (c : Cause) : BitVec.ofNat 32 (codeOfCause c) = faultData c := by cases c <;> rfl

theorem faultNone_eq (s : State) (c : Cause) : faultNone s c = raise none c s := by
  simp [faultNone, raise, recordFault, codeOfCause_eq, answered_eq]

theorem faultE_eq (s : State) (c : Cause) : faultE s c = raise (some .e) c s := by
  simp [faultE, faultNone, raise, recordFault, codeOfCause_eq, answered_eq, EChannel.faultedBy, causeAfterFault]

theorem faultD_eq (s : State) (c : Cause) : faultD s c = raise (some .d) c s := by
  simp [faultD, faultNone, raise, recordFault, codeOfCause_eq, answered_eq, DChannel.faultedBy, causeAfterFault]

theorem faultNamed_eq (ch : Option Channel) (s : State) (c : Cause) : faultNamed ch s c = raise ch c s := by
  rcases ch with _ | _ | _
  · exact faultNone_eq s c
  · exact faultE_eq s c
  · exact faultD_eq s c

theorem namedChannel_eq (w : Word) : namedChannel w = channelOfOp (fieldsOf w).op := by
  show (opcodeMap.find? fun r => (fieldsOf w).op = r.op).bind (fun r => r.channel) = _
  rcases op_cases (fieldsOf w).op with h | h | h | h | h | h | h | h | h | h | h | h | h | h | h | h <;> rw [h] <;> rfl

/-- The command at the port, taken. -/
theorem acceptCommand_eq {s : State} {m : HostMove} {rest : List HostMove} (h : s.ports.pending = m :: rest) :
    acceptCommand s = taken s rest := by
  simp [acceptCommand, taken, h]

theorem takeMove_eq {s : State} {m : HostMove} {rest : List HostMove} (h : s.ports.pending = m :: rest) :
    takeMove s = { s with ports := { s.ports with pending := rest } } := by
  simp [takeMove, h]

theorem nextMove_eq {s : State} {m : HostMove} {rest : List HostMove} (h : s.ports.pending = m :: rest) :
    nextMove s = some m := by
  simp [nextMove, h]

/-- PAIRDATA as a number. -/
theorem pairNumber_eq {width : Nat} (h : width < 32) (code : Code) (sym : Byte) :
    pairNumber width code sym = pairData width code sym := by
  apply BitVec.eq_of_toNat_eq
  have h1 := code.isLt
  have h2 := sym.isLt
  simp only [pairNumber, pairData, BitVec.toNat_append, BitVec.toNat_ofNat]
  rw [← Nat.shiftLeft_add_eq_or_of_lt h2, ← Nat.shiftLeft_add_eq_or_of_lt h1]
  rw [← Nat.shiftLeft_add_eq_or_of_lt (show width % 2 ^ 5 < 2 ^ 5 by omega)]
  simp only [Nat.shiftLeft_eq]
  omega

theorem widthData_eq {width : Nat} (h : width < 32) : BitVec.ofNat 32 width = widthData width := by
  apply BitVec.eq_of_toNat_eq
  simp only [widthData, BitVec.toNat_append, BitVec.toNat_ofNat]
  rw [← Nat.shiftLeft_add_eq_or_of_lt (show width % 2 ^ 5 < 2 ^ 5 by omega)]
  simp only [Nat.shiftLeft_eq]
  omega

theorem exhData_eq {rem : Nat} (h : rem < 32) : BitVec.ofNat 32 rem = exhData rem := widthData_eq h

theorem padData_eq {pad : Nat} (h : pad < 8) : BitVec.ofNat 32 pad = padData pad := by
  apply BitVec.eq_of_toNat_eq
  simp only [padData, BitVec.toNat_append, BitVec.toNat_ofNat]
  rw [← Nat.shiftLeft_add_eq_or_of_lt (show pad % 2 ^ 3 < 2 ^ 3 by omega)]
  simp only [Nat.shiftLeft_eq]
  omega

/-- ADVDATA of an advance that does not fire. -/
theorem advData_eq (next : Code) : BitVec.ofNat 32 next.toNat = advData false next := by
  apply BitVec.eq_of_toNat_eq
  have h1 := next.isLt
  simp only [advData, BitVec.toNat_append, BitVec.toNat_ofNat]
  rw [← Nat.shiftLeft_add_eq_or_of_lt h1]
  simp [Nat.shiftLeft_eq]
  omega

end Sys2Proof.Spec
end

