-- ==== Sys2Proof/Laws/Meanings.lean ====
section
/-! SUPPORT. What each meaning answers, case by case: the equations a proof about one command cites, that every command keeps the
invariant, and what one step can be. -/

namespace Sys2Proof.Machine

open Sys2Proof.Spec

variable {s : State}

/-! ### The ACTIVE check -/

theorem whenActive_e (h : s.e.state = .active) (body : State) : whenActive .e s body = body := by
  simp [whenActive, h]

theorem whenActive_d (h : s.d.state = .active) (body : State) : whenActive .d s body = body := by
  simp [whenActive, h]

theorem whenActive_e_inactive (h : s.e.state ≠ .active) (body : State) :
    whenActive .e s body = raise (some .e) .notActive s := by
  simp [whenActive, h]

theorem whenActive_d_inactive (h : s.d.state ≠ .active) (body : State) :
    whenActive .d s body = raise (some .d) .notActive s := by
  simp [whenActive, h]

/-! ### The pack channel -/

theorem packPair_room {code : Code} {sym : Byte} {width : Nat} (h : s.e.cursor.toNat + width + 8 ≤ 2 ^ 64 - 1) :
    packPair code sym width s =
      respond .ok (pairData width code sym) { s with e := appendPair s.cfg.bitPlacement code sym width s.e } := by
  simp only [packPair, if_neg (Nat.not_lt.mpr h)]

theorem packPair_overflow {code : Code} {sym : Byte} {width : Nat} (h : 2 ^ 64 - 1 < s.e.cursor.toNat + width + 8) :
    packPair code sym width s = raise (some .e) .cursorOverflow s := by
  simp only [packPair, if_pos h]

theorem flushE_room (h : s.e.cursor.toNat + s.e.padBits ≤ 2 ^ 64 - 1) :
    flushE s = respond .ok (padData s.e.padBits)
      { s with e := { appendBits s.cfg.bitPlacement 0 s.e.padBits s.e with state := .done } } := by
  simp only [flushE, if_neg (Nat.not_lt.mpr h)]

theorem flushE_overflow (h : 2 ^ 64 - 1 < s.e.cursor.toNat + s.e.padBits) :
    flushE s = raise (some .e) .cursorOverflow s := by
  simp only [flushE, if_pos h]

theorem padBits_lt (c : EChannel) : c.padBits < 8 := Nat.mod_lt _ (by decide)

/-- Everything appending a pair with room does, in the words of the statements. -/
theorem appendPair_pairAppended {cfg : Config} {c : EChannel} {code : Code} {sym : Byte} {width : Nat}
    (ok : StreamOk cfg.bitPlacement c) (room : c.cursor.toNat + width + 8 < 2 ^ 64) :
    PairAppended cfg.bitPlacement c (appendPair cfg.bitPlacement code sym width c) code sym width := by
  obtain ⟨ok', cur, hcode, hsym, old⟩ := appendPair_spec cfg.bitPlacement code sym width ok room
  refine ⟨by simp, by simp, by simp, by simp, cur, ?_, ?_, ?_, ?_, ?_⟩
  · have := ok'.cursor; omega
  · simpa only [eBit_eq] using hcode
  · simpa only [eBit_eq] using hsym
  · simpa only [eBit_eq] using old
  · intro k hk
    rw [eBit_eq]; exact bit_beyond _ ok' hk

/-! ### The unpack channel -/

theorem unpackPair_exhausted {width : Nat} {check : Bool} (h : s.d.remaining < width + 8) :
    unpackPair width check s =
      respond .exhausted (exhData s.d.remaining) { s with d := s.d.ended .exhausted } := by
  simp only [unpackPair, if_pos h]

theorem unpackPair_stop {width : Nat} {check : Bool} (h : width + 8 ≤ s.d.remaining) (hc : codeAtCursor s width = stopCode) :
    unpackPair width check s = respond .stop (pairData width (codeAtCursor s width) (symAtCursor s width))
      { s with d := (s.d.consumed width).ended .stop } := by
  simp only [unpackPair, if_neg (Nat.not_lt.mpr h), if_pos hc]

theorem unpackPair_invalid {width : Nat} {check : Bool} (h : width + 8 ≤ s.d.remaining) (hc : codeAtCursor s width ≠ stopCode)
    (hi : check = true ∧ s.d.next ≤ codeAtCursor s width) :
    unpackPair width check s = raise (some .d) .invalidCode s := by
  simp only [unpackPair, if_neg (Nat.not_lt.mpr h), if_neg hc, if_pos hi]

theorem unpackPair_pair {width : Nat} {check : Bool} (h : width + 8 ≤ s.d.remaining) (hc : codeAtCursor s width ≠ stopCode)
    (hi : ¬ (check = true ∧ s.d.next ≤ codeAtCursor s width)) :
    unpackPair width check s = respond .ok (pairData width (codeAtCursor s width) (symAtCursor s width))
      { s with d := s.d.consumed width } := by
  simp only [unpackPair, if_neg (Nat.not_lt.mpr h), if_neg hc, if_neg hi]

/-- The code read, bit by bit. -/
theorem codeAtCursor_bit (s : State) {width : Nat} {j : Nat} (hj : j < 16) :
    (codeAtCursor s width).getLsbD j =
      (decide (j < width) && streamBit s.cfg.bitPlacement s.d.src (s.d.cursor.toNat + j)) := by
  rw [codeAtCursor, BitVec.getLsbD_ofNat]
  by_cases h : j < width
  · simp [hj, h, readBits_testBit]
  · have hlt := readBits_lt s.cfg.bitPlacement s.d.src s.d.cursor.toNat width
    have : readBits s.cfg.bitPlacement s.d.src s.d.cursor.toNat width < 2 ^ j :=
      Nat.lt_of_lt_of_le hlt (Nat.pow_le_pow_right (by decide) (by omega))
    simp [h, Nat.testBit_lt_two_pow this]

/-- The symbol read, bit by bit. -/
theorem symAtCursor_bit (s : State) {width : Nat} {j : Nat} (hj : j < 8) :
    (symAtCursor s width).getLsbD j = streamBit s.cfg.bitPlacement s.d.src (s.d.cursor.toNat + width + j) := by
  rw [symAtCursor, BitVec.getLsbD_ofNat]
  simp [hj, readBits_testBit]

/-! ### Register access -/

theorem exec_rd_some {reg : Byte} {v : Word} (h : registerValue reg s = some v) :
    exec (.rd reg) s = .next (respond .ok v s) := by
  show Host.Outcome.next _ = _
  rw [h]

theorem exec_rd_none {reg : Byte} (h : registerValue reg s = none) :
    exec (.rd reg) s = .next (raise none .badRegister s) := by
  show Host.Outcome.next _ = _
  rw [h]

/-! The rows of the register map (R171). -/

theorem registerValue_id (s : State) : registerValue 0x00 s = some (idWord) := rfl
theorem registerValue_param (s : State) : registerValue 0x01 s = some (paramWord s.cfg) := rfl
theorem registerValue_eStatus (s : State) : registerValue 0x02 s = some (eStatusWord s.e) := rfl
theorem registerValue_eNext (s : State) : registerValue 0x03 s = some (0#16 ++ s.e.next) := rfl
theorem registerValue_eCurLo (s : State) : registerValue 0x04 s = some (s.e.cursor.extractLsb' 0 32) := rfl
theorem registerValue_eCurHi (s : State) : registerValue 0x05 s = some (s.e.cursor.extractLsb' 32 32) := rfl
theorem registerValue_eAcc (s : State) : registerValue 0x06 s = some (eAccWord s.e) := rfl
theorem registerValue_eResets (s : State) : registerValue 0x07 s = some (s.e.resets) := rfl
theorem registerValue_eOutlen (s : State) : registerValue 0x08 s = some (BitVec.ofNat 32 s.e.out.length) := rfl
theorem registerValue_dStatus (s : State) : registerValue 0x09 s = some (dStatusWord s.d) := rfl
theorem registerValue_dNext (s : State) : registerValue 0x0A s = some (0#16 ++ s.d.next) := rfl
theorem registerValue_dCurLo (s : State) : registerValue 0x0B s = some (s.d.cursor.extractLsb' 0 32) := rfl
theorem registerValue_dCurHi (s : State) : registerValue 0x0C s = some (s.d.cursor.extractLsb' 32 32) := rfl
theorem registerValue_dResets (s : State) : registerValue 0x0D s = some (s.d.resets) := rfl

/-- The numbers 0x0E to 0xFF are reserved (spec/44_register_access.md R171). -/
theorem registerValue_reserved {reg : Byte} (h : 0x0E ≤ reg.toNat) : registerValue reg s = none := by
  unfold registerValue
  split <;> first | omega | rfl

/-- The numbers below 0x0E are not. -/
theorem registerValue_assigned {reg : Byte} (h : reg.toNat < 0x0E) : ∃ v, registerValue reg s = some v := by
  have : reg.toNat = 0 ∨ reg.toNat = 1 ∨ reg.toNat = 2 ∨ reg.toNat = 3 ∨ reg.toNat = 4 ∨ reg.toNat = 5 ∨ reg.toNat = 6 ∨
      reg.toNat = 7 ∨ reg.toNat = 8 ∨ reg.toNat = 9 ∨ reg.toNat = 10 ∨ reg.toNat = 11 ∨ reg.toNat = 12 ∨ reg.toNat = 13 := by
    omega
  rcases this with h | h | h | h | h | h | h | h | h | h | h | h | h | h <;> simp [registerValue, h]

/-! ### What each shared operation can answer -/

theorem whenActive_cases (ch : Channel) (s body : State) :
    (s.channelState ch = .active ∧ whenActive ch s body = body) ∨
    (s.channelState ch ≠ .active ∧ whenActive ch s body = raise (some ch) .notActive s) := by
  by_cases h : s.channelState ch = .active
  · exact .inl ⟨h, by simp [whenActive, h]⟩
  · exact .inr ⟨h, by simp [whenActive, h]⟩

theorem packPair_cases (code : Code) (sym : Byte) (width : Nat) (s : State) :
    (2 ^ 64 - 1 < s.e.cursor.toNat + width + 8 ∧ packPair code sym width s = raise (some .e) .cursorOverflow s) ∨
    (s.e.cursor.toNat + width + 8 ≤ 2 ^ 64 - 1 ∧ packPair code sym width s = respond .ok (pairData width code sym)
      { s with e := appendPair s.cfg.bitPlacement code sym width s.e }) := by
  rcases Nat.lt_or_ge (2 ^ 64 - 1) (s.e.cursor.toNat + width + 8) with h | h
  · exact .inl ⟨h, packPair_overflow h⟩
  · exact .inr ⟨h, packPair_room h⟩

theorem flushE_cases (s : State) :
    (2 ^ 64 - 1 < s.e.cursor.toNat + s.e.padBits ∧ flushE s = raise (some .e) .cursorOverflow s) ∨
    (s.e.cursor.toNat + s.e.padBits ≤ 2 ^ 64 - 1 ∧ flushE s = respond .ok (padData s.e.padBits)
      { s with e := { appendBits s.cfg.bitPlacement 0 s.e.padBits s.e with state := .done } }) := by
  rcases Nat.lt_or_ge (2 ^ 64 - 1) (s.e.cursor.toNat + s.e.padBits) with h | h
  · exact .inl ⟨h, flushE_overflow h⟩
  · exact .inr ⟨h, flushE_room h⟩

theorem unpackPair_cases (width : Nat) (check : Bool) (s : State) :
    (s.d.remaining < width + 8 ∧ unpackPair width check s =
      respond .exhausted (exhData s.d.remaining) { s with d := s.d.ended .exhausted }) ∨
    (width + 8 ≤ s.d.remaining ∧ codeAtCursor s width = stopCode ∧ unpackPair width check s =
      respond .stop (pairData width (codeAtCursor s width) (symAtCursor s width))
        { s with d := (s.d.consumed width).ended .stop }) ∨
    (width + 8 ≤ s.d.remaining ∧ codeAtCursor s width ≠ stopCode ∧ check = true ∧ s.d.next ≤ codeAtCursor s width ∧
      unpackPair width check s = raise (some .d) .invalidCode s) ∨
    (width + 8 ≤ s.d.remaining ∧ codeAtCursor s width ≠ stopCode ∧ unpackPair width check s =
      respond .ok (pairData width (codeAtCursor s width) (symAtCursor s width)) { s with d := s.d.consumed width }) := by
  rcases Nat.lt_or_ge s.d.remaining (width + 8) with h | h
  · exact .inl ⟨h, unpackPair_exhausted h⟩
  · by_cases hc : codeAtCursor s width = stopCode
    · exact .inr (.inl ⟨h, hc, unpackPair_stop h hc⟩)
    · by_cases hi : check = true ∧ s.d.next ≤ codeAtCursor s width
      · exact .inr (.inr (.inl ⟨h, hc, hi.1, hi.2, unpackPair_invalid h hc hi⟩))
      · exact .inr (.inr (.inr ⟨h, hc, unpackPair_pair h hc hi⟩))

/-- What one command can answer: a FAULT of one of the listed causes, whose next state is the fault record and nothing else, or the
command's own effect. -/
inductive Answer (s : State) : Instr → State → Prop where
  /-- A channel command in a channel that is not ACTIVE. -/
  | notActive (i : Instr) (ch : Channel) (hch : i.channel = some ch) (hi : i ≠ .eInit ∧ i ≠ .dInit)
      (h : s.channelState ch ≠ .active) : Answer s i (raise (some ch) .notActive s)
  | wcalc (n : Code) : Answer s (.wcalc n) (respond .ok (widthData (codeWidth n.toNat)) s)
  | eWidth (h : s.e.state = .active) : Answer s .eWidth (respond .ok (widthData (codeWidth s.e.next.toNat)) s)
  | dWidth (h : s.d.state = .active) : Answer s .dWidth (respond .ok (widthData (codeWidth s.d.next.toNat)) s)
  | eInit : Answer s .eInit (openE s)
  | dInit (h : (nextDelivery s).length < 2 ^ 61) : Answer s .dInit (openD (nextDelivery s) s)
  | codeDomain (code : Code) (sym : Byte) (width : Nat) (h : s.e.state = .active) (hc : s.cfg.maxCode ≤ code.toNat) :
      Answer s (.ePut code sym width) (raise (some .e) .codeDomain s)
  | codeTooWide (code : Code) (sym : Byte) (width : Nat) (h : s.e.state = .active) (hc : 2 ^ width ≤ code.toNat) :
      Answer s (.ePut code sym width) (raise (some .e) .codeTooWide s)
  | putOverflow (code : Code) (sym : Byte) (width : Nat) (h : s.e.state = .active)
      (hc : 2 ^ 64 - 1 < s.e.cursor.toNat + width + 8) :
      Answer s (.ePut code sym width) (raise (some .e) .cursorOverflow s)
  | put (code : Code) (sym : Byte) (width : Nat) (h : s.e.state = .active) (hr : s.e.cursor.toNat + width + 8 ≤ 2 ^ 64 - 1) :
      Answer s (.ePut code sym width) (respond .ok (pairData width code sym)
        { s with e := appendPair s.cfg.bitPlacement code sym width s.e })
  | putaInvalid (code : Code) (sym : Byte) (h : s.e.state = .active) (hc : s.e.next ≤ code) :
      Answer s (.ePuta code sym) (raise (some .e) .invalidCode s)
  | putaOverflow (code : Code) (sym : Byte) (h : s.e.state = .active)
      (hc : 2 ^ 64 - 1 < s.e.cursor.toNat + codeWidth s.e.next.toNat + 8) :
      Answer s (.ePuta code sym) (raise (some .e) .cursorOverflow s)
  | puta (code : Code) (sym : Byte) (h : s.e.state = .active)
      (hr : s.e.cursor.toNat + codeWidth s.e.next.toNat + 8 ≤ 2 ^ 64 - 1) :
      Answer s (.ePuta code sym) (respond .ok (pairData (codeWidth s.e.next.toNat) code sym)
        { s with e := appendPair s.cfg.bitPlacement code sym (codeWidth s.e.next.toNat) s.e })
  | flushOverflow (h : s.e.state = .active) (hc : 2 ^ 64 - 1 < s.e.cursor.toNat + s.e.padBits) :
      Answer s .eFlush (raise (some .e) .cursorOverflow s)
  | flush (h : s.e.state = .active) (hr : s.e.cursor.toNat + s.e.padBits ≤ 2 ^ 64 - 1) :
      Answer s .eFlush (respond .ok (padData s.e.padBits)
        { s with e := { appendBits s.cfg.bitPlacement 0 s.e.padBits s.e with state := .done } })
  | eAdv (h : s.e.state = .active) : Answer s .eAdv (advanceE s)
  | dAdv (h : s.d.state = .active) : Answer s .dAdv (advanceD s)
  | register (reg : Byte) (v : Word) (hv : registerValue reg s = some v) : Answer s (.rd reg) (respond .ok v s)
  | badRegister (reg : Byte) (h : 0x0E ≤ reg.toNat) : Answer s (.rd reg) (raise none .badRegister s)
  | exhausted (i : Instr) (width : Nat) (hi : i = .dGet width ∨ (i = .dGeta ∧ width = codeWidth s.d.next.toNat))
      (h : s.d.state = .active) (hr : s.d.remaining < width + 8) :
      Answer s i (respond .exhausted (exhData s.d.remaining) { s with d := s.d.ended .exhausted })
  | stop (i : Instr) (width : Nat) (hi : i = .dGet width ∨ (i = .dGeta ∧ width = codeWidth s.d.next.toNat))
      (h : s.d.state = .active) (hr : width + 8 ≤ s.d.remaining) (hc : codeAtCursor s width = stopCode) :
      Answer s i (respond .stop (pairData width (codeAtCursor s width) (symAtCursor s width))
        { s with d := (s.d.consumed width).ended .stop })
  | getaInvalid (h : s.d.state = .active) (hc : codeAtCursor s (codeWidth s.d.next.toNat) ≠ stopCode)
      (hi : s.d.next ≤ codeAtCursor s (codeWidth s.d.next.toNat)) :
      Answer s .dGeta (raise (some .d) .invalidCode s)
  | pair (i : Instr) (width : Nat) (hi : i = .dGet width ∨ (i = .dGeta ∧ width = codeWidth s.d.next.toNat))
      (h : s.d.state = .active) (hr : width + 8 ≤ s.d.remaining) :
      Answer s i (respond .ok (pairData width (codeAtCursor s width) (symAtCursor s width))
        { s with d := s.d.consumed width })

/-- The read commands' answers. -/
theorem unpackPair_answer {i : Instr} {width : Nat} {check : Bool}
    (hi : (i = .dGet width ∧ check = false) ∨ (i = .dGeta ∧ width = codeWidth s.d.next.toNat ∧ check = true))
    (h : s.d.state = .active) : Answer s i (unpackPair width check s) := by
  have hi' : i = .dGet width ∨ (i = .dGeta ∧ width = codeWidth s.d.next.toNat) :=
    hi.imp And.left fun h => ⟨h.1, h.2.1⟩
  rcases unpackPair_cases width check s with ⟨hr, e⟩ | ⟨hr, hc, e⟩ | ⟨_, hc, hch, hin, e⟩ | ⟨hr, _, e⟩ <;> rw [e]
  · exact .exhausted i width hi' h hr
  · exact .stop i width hi' h hr hc
  · rcases hi with ⟨_, hf⟩ | ⟨rfl, rfl, _⟩
    · rw [hf] at hch; cases hch
    · exact .getaInvalid h hc hin
  · exact .pair i width hi' h hr

/-- Everything a command can answer. -/
theorem exec_answer (i : Instr) {t : State} (ht : exec i s = .next t) : Answer s i t := by
  cases i with
  | wcalc n => cases ht; exact .wcalc n
  | eInit => cases ht; exact .eInit
  | ePut code sym width =>
    cases ht
    rcases whenActive_cases .e s _ with ⟨ha, e⟩ | ⟨ha, e⟩ <;> rw [e]
    · split
      · rename_i hc; exact .codeDomain code sym width ha hc
      · split
        · rename_i hc; exact .codeTooWide code sym width ha hc
        · rcases packPair_cases code sym width s with ⟨hr, e⟩ | ⟨hr, e⟩ <;> rw [e]
          · exact .putOverflow code sym width ha hr
          · exact .put code sym width ha hr
    · exact .notActive _ .e rfl ⟨by simp, by simp⟩ ha
  | ePuta code sym =>
    cases ht
    rcases whenActive_cases .e s _ with ⟨ha, e⟩ | ⟨ha, e⟩ <;> rw [e]
    · split
      · rename_i hc; exact .putaInvalid code sym ha hc
      · rcases packPair_cases code sym (codeWidth s.e.next.toNat) s with ⟨hr, e⟩ | ⟨hr, e⟩ <;> rw [e]
        · exact .putaOverflow code sym ha hr
        · exact .puta code sym ha hr
    · exact .notActive _ .e rfl ⟨by simp, by simp⟩ ha
  | eAdv =>
    cases ht
    rcases whenActive_cases .e s _ with ⟨ha, e⟩ | ⟨ha, e⟩ <;> rw [e]
    · exact .eAdv ha
    · exact .notActive _ .e rfl ⟨by simp, by simp⟩ ha
  | eFlush =>
    cases ht
    rcases whenActive_cases .e s _ with ⟨ha, e⟩ | ⟨ha, e⟩ <;> rw [e]
    · rcases flushE_cases s with ⟨hr, e⟩ | ⟨hr, e⟩ <;> rw [e]
      · exact .flushOverflow ha hr
      · exact .flush ha hr
    · exact .notActive _ .e rfl ⟨by simp, by simp⟩ ha
  | eWidth =>
    cases ht
    rcases whenActive_cases .e s _ with ⟨ha, e⟩ | ⟨ha, e⟩ <;> rw [e]
    · exact .eWidth ha
    · exact .notActive _ .e rfl ⟨by simp, by simp⟩ ha
  | rd reg =>
    rcases Nat.lt_or_ge reg.toNat 0x0E with h | h
    · obtain ⟨v, hv⟩ := registerValue_assigned (s := s) h
      rw [exec_rd_some hv] at ht; cases ht; exact .register reg v hv
    · rw [exec_rd_none (registerValue_reserved h)] at ht; cases ht; exact .badRegister reg h
  | dInit =>
    simp only [exec, execDInit] at ht
    split at ht
    · rename_i h; cases ht; exact .dInit h
    · cases ht
  | dGet width =>
    cases ht
    rcases whenActive_cases .d s _ with ⟨ha, e⟩ | ⟨ha, e⟩ <;> rw [e]
    · exact unpackPair_answer (.inl ⟨rfl, rfl⟩) ha
    · exact .notActive _ .d rfl ⟨by simp, by simp⟩ ha
  | dGeta =>
    cases ht
    rcases whenActive_cases .d s _ with ⟨ha, e⟩ | ⟨ha, e⟩ <;> rw [e]
    · exact unpackPair_answer (.inr ⟨rfl, rfl, rfl⟩) ha
    · exact .notActive _ .d rfl ⟨by simp, by simp⟩ ha
  | dAdv =>
    cases ht
    rcases whenActive_cases .d s _ with ⟨ha, e⟩ | ⟨ha, e⟩ <;> rw [e]
    · exact .dAdv ha
    · exact .notActive _ .d rfl ⟨by simp, by simp⟩ ha
  | dWidth =>
    cases ht
    rcases whenActive_cases .d s _ with ⟨ha, e⟩ | ⟨ha, e⟩ <;> rw [e]
    · exact .dWidth ha
    · exact .notActive _ .d rfl ⟨by simp, by simp⟩ ha

/-! ### Every command keeps the invariant -/

theorem exec_inv (i : Instr) {t : State} (h : s.Inv) (ht : exec i s = .next t) : t.Inv := by
  cases i with
  | wcalc n => cases ht; exact respond_inv _ _ h
  | eInit => cases ht; exact openE_inv h
  | ePut code sym width =>
    cases ht
    refine whenActive_inv _ h fun ha => ?_
    split
    · exact raise_inv _ _ h
    · split
      · exact raise_inv _ _ h
      · exact packPair_inv _ _ _ h ha
  | ePuta code sym =>
    cases ht
    refine whenActive_inv _ h fun ha => ?_
    split
    · exact raise_inv _ _ h
    · exact packPair_inv _ _ _ h ha
  | eAdv => cases ht; exact whenActive_inv _ h fun _ => advanceE_inv h
  | eFlush => cases ht; exact whenActive_inv _ h fun ha => flushE_inv h ha
  | eWidth => cases ht; exact whenActive_inv _ h fun _ => respond_inv _ _ h
  | rd reg =>
    cases ht
    split
    · exact respond_inv _ _ h
    · exact raise_inv _ _ h
  | dInit =>
    simp only [exec, execDInit] at ht
    split at ht
    · rename_i hlen; cases ht; exact openD_inv h hlen
    · cases ht
  | dGet width => cases ht; exact whenActive_inv _ h fun ha => unpackPair_inv _ _ h ha
  | dGeta => cases ht; exact whenActive_inv _ h fun ha => unpackPair_inv _ _ h ha
  | dAdv => cases ht; exact whenActive_inv _ h fun _ => advanceD_inv h
  | dWidth => cases ht; exact whenActive_inv _ h fun _ => respond_inv _ _ h

/-! ### One step -/

/-- What a step that answers a next state was. -/
theorem step_cases {t : State} (h : step s = .next t) :
    (s.ports.pending = [] ∧ t = s) ∨
    (MoveIsReset s ∧ t = hardwareReset (takeMove s)) ∨
    (∃ i, MoveIs s i ∧ exec i (acceptCommand s) = .next t) ∨
    (∃ w rest, s.ports.pending = .command w :: rest ∧ decode w = .illegalCommand ∧ t = rejectIllegal (acceptCommand s)) ∨
    (∃ w rest op, s.ports.pending = .command w :: rest ∧ decode w = .reservedField op ∧
      t = rejectReserved op (acceptCommand s)) := by
  unfold step nextMove at h
  match hp : s.ports.pending with
  | [] => rw [hp] at h; cases h; exact .inl ⟨rfl, rfl⟩
  | .rst :: rest => rw [hp] at h; cases h; exact .inr (.inl ⟨⟨rest, hp⟩, rfl⟩)
  | .command w :: rest =>
    rw [hp] at h
    simp only [List.head?_cons] at h
    match hd : decode w with
    | .command i => rw [hd] at h; exact .inr (.inr (.inl ⟨i, ⟨w, rest, hp, hd⟩, h⟩))
    | .illegalCommand => rw [hd] at h; cases h; exact .inr (.inr (.inr (.inl ⟨w, rest, rfl, hd, rfl⟩)))
    | .reservedField op => rw [hd] at h; cases h; exact .inr (.inr (.inr (.inr ⟨w, rest, op, rfl, hd, rfl⟩)))

/-- The step on a word that decodes to a command. -/
theorem step_command {w : Word} {rest : List HostMove} {i : Instr} (hp : s.ports.pending = .command w :: rest)
    (hd : decode w = .command i) : step s = exec i (acceptCommand s) := by
  simp [step, nextMove, hp, hd]

theorem step_illegal {w : Word} {rest : List HostMove} (hp : s.ports.pending = .command w :: rest)
    (hd : decode w = .illegalCommand) : step s = .next (rejectIllegal (acceptCommand s)) := by
  simp [step, nextMove, hp, hd]

theorem step_reserved {w : Word} {rest : List HostMove} {op : BitVec 4} (hp : s.ports.pending = .command w :: rest)
    (hd : decode w = .reservedField op) : step s = .next (rejectReserved op (acceptCommand s)) := by
  simp [step, nextMove, hp, hd]

end Sys2Proof.Machine
end

