-- ==== Sys2Proof/Laws/Answers.lean ====
section
/-! SUPPORT. What one command's answer leaves of each channel, and the two kinds of answer: a fault record, or a response of another
kind. A proof about every command cites these instead of splitting the commands. -/

namespace Sys2Proof.Machine

open Sys2Proof.Spec

variable {s t : State} {i : Instr}

/-- Two histories that differ in their last response. -/
theorem responses_last {l : List Response} {a b : Response} (h : l ++ [a] = l ++ [b]) : a = b := by simpa using h

/-- A fault's response, whichever channel it names. -/
theorem raise_responses (ch : Option Channel) (c : Cause) (s : State) :
    (raise ch c s).ports.responses = s.ports.responses ++ [{ rkind := .fault, rdata := faultData c }] := by
  rcases ch with _ | _ | _ <;> rfl

/-- The first cause is kept: a FAULTED channel's fault record does not change (spec/60_exceptions.md R184). -/
theorem EChannel_faultedBy_of_faulted {c : EChannel} (h : c.state = .faulted) (x : Cause) : c.faultedBy x = c := by
  cases c
  simp only [EChannel.faultedBy, causeAfterFault] at *
  simp [h]

theorem DChannel_faultedBy_of_faulted {c : DChannel} (h : c.state = .faulted) (x : Cause) : c.faultedBy x = c := by
  cases c
  simp only [DChannel.faultedBy, causeAfterFault] at *
  simp [h]

/-- A fault writes a channel's cause only where the channel was not FAULTED, and then writes its own (spec/10_state.md R25). -/
theorem EChannel_faultedBy_writes_cause {c : EChannel} {x : Cause} (h : (c.faultedBy x).cause ≠ c.cause) :
    c.state ≠ .faulted ∧ (c.faultedBy x).cause = some x := by
  have hs : c.state ≠ .faulted := fun hf => h (by rw [EChannel_faultedBy_of_faulted hf])
  exact ⟨hs, if_neg hs⟩

/-- The same of channel D (R33). -/
theorem DChannel_faultedBy_writes_cause {c : DChannel} {x : Cause} (h : (c.faultedBy x).cause ≠ c.cause) :
    c.state ≠ .faulted ∧ (c.faultedBy x).cause = some x := by
  have hs : c.state ≠ .faulted := fun hf => h (by rw [DChannel_faultedBy_of_faulted hf])
  exact ⟨hs, if_neg hs⟩

/-- A command's answer is the fault record of the channel it names and nothing else, or has a response of another kind. -/
theorem answer_kind (h : Answer s i t) :
    (∃ c, t = raise i.channel c s) ∨ ∃ r, t.ports.responses = s.ports.responses ++ [r] ∧ r.rkind ≠ .fault := by
  cases h
  case eAdv =>
    exact .inr ⟨⟨.ok, advData (counterFires s.cfg s.e.next) (counterAfter s.cfg s.e.next)⟩, by simp [advanceE], by simp⟩
  case dAdv =>
    exact .inr ⟨⟨.ok, advData (counterFires s.cfg s.d.next) (counterAfter s.cfg s.d.next)⟩, by simp [advanceD], by simp⟩
  case wcalc n => exact .inr ⟨⟨.ok, _⟩, rfl, by simp⟩
  case eWidth n => exact .inr ⟨⟨.ok, _⟩, rfl, by simp⟩
  case dWidth n => exact .inr ⟨⟨.ok, _⟩, rfl, by simp⟩
  case eInit => exact .inr ⟨⟨.ok, _⟩, rfl, by simp⟩
  case dInit => exact .inr ⟨⟨.ok, _⟩, rfl, by simp⟩
  case put => exact .inr ⟨⟨.ok, _⟩, rfl, by simp⟩
  case puta => exact .inr ⟨⟨.ok, _⟩, rfl, by simp⟩
  case flush => exact .inr ⟨⟨.ok, _⟩, rfl, by simp⟩
  case register => exact .inr ⟨⟨.ok, _⟩, rfl, by simp⟩
  case exhausted => exact .inr ⟨⟨.exhausted, _⟩, rfl, by simp⟩
  case stop => exact .inr ⟨⟨.stop, _⟩, rfl, by simp⟩
  case pair => exact .inr ⟨⟨.ok, _⟩, rfl, by simp⟩
  case notActive ch _ hch _ => exact .inl ⟨_, by rw [hch]⟩
  all_goals exact .inl ⟨_, rfl⟩

/-- What an answer leaves of channel E. -/
theorem answer_e (h : Answer s i t) :
    t.e = s.e ∨ (∃ c, t = raise (some .e) c s ∧ i.channel = some .e) ∨ i = .eInit ∨
    (s.e.state = .active ∧ i = .eAdv ∧ t.e = { s.e with next := t.e.next, resets := t.e.resets }) ∨
    (s.e.state = .active ∧ t.e.next = s.e.next ∧ t.e.resets = s.e.resets ∧ t.e.cause = s.e.cause ∧
      (t.e.state = .active ∧ ((∃ code sym width, i = .ePut code sym width) ∨ ∃ code sym, i = .ePuta code sym) ∨
        t.e.state = .done ∧ i = .eFlush)) := by
  cases h
  case notActive ch _ hi' _ =>
    cases ch
    · exact .inr (.inl ⟨_, rfl, hi'⟩)
    · exact .inl rfl
  case put h _ => refine .inr (.inr (.inr (.inr ⟨h, ?_, ?_, ?_, .inl ⟨?_, .inl ⟨_, _, _, rfl⟩⟩⟩))) <;> simp [h]
  case puta h _ => refine .inr (.inr (.inr (.inr ⟨h, ?_, ?_, ?_, .inl ⟨?_, .inr ⟨_, _, rfl⟩⟩⟩))) <;> simp [h]
  case flush h _ => refine .inr (.inr (.inr (.inr ⟨h, ?_, ?_, ?_, .inr ⟨?_, rfl⟩⟩))) <;> simp
  case eAdv h => exact .inr (.inr (.inr (.inl ⟨h, rfl, by simp [advanceE]⟩)))
  case eInit => exact .inr (.inr (.inl rfl))
  case dAdv => exact .inl (by simp [advanceD])
  case codeDomain => exact .inr (.inl ⟨_, rfl, rfl⟩)
  case codeTooWide => exact .inr (.inl ⟨_, rfl, rfl⟩)
  case putOverflow => exact .inr (.inl ⟨_, rfl, rfl⟩)
  case putaInvalid => exact .inr (.inl ⟨_, rfl, rfl⟩)
  case putaOverflow => exact .inr (.inl ⟨_, rfl, rfl⟩)
  case flushOverflow => exact .inr (.inl ⟨_, rfl, rfl⟩)
  all_goals exact .inl rfl

/-- What an answer leaves of channel D. -/
theorem answer_d (h : Answer s i t) :
    t.d = s.d ∨ (∃ c, t = raise (some .d) c s ∧ i.channel = some .d) ∨ i = .dInit ∨
    (s.d.state = .active ∧ i = .dAdv ∧ t.d = { s.d with next := t.d.next, resets := t.d.resets }) ∨
    (s.d.state = .active ∧ ((∃ width, i = .dGet width) ∨ i = .dGeta) ∧
      ∃ r, t.ports.responses = s.ports.responses ++ [r] ∧
        ((r.rkind = .ok ∧ t.d = { s.d with cursor := t.d.cursor }) ∨
          ((r.rkind = .stop ∨ r.rkind = .exhausted) ∧
            t.d = { s.d with cursor := t.d.cursor, state := .done, reason := t.d.reason }))) := by
  have get : ∀ {width : Nat}, (i = .dGet width ∨ (i = .dGeta ∧ width = codeWidth s.d.next.toNat)) →
      (∃ width, i = .dGet width) ∨ i = .dGeta := by
    rintro width (h | ⟨h, -⟩)
    · exact .inl ⟨_, h⟩
    · exact .inr h
  cases h
  case notActive ch _ hi' _ =>
    cases ch
    · exact .inl rfl
    · exact .inr (.inl ⟨_, rfl, hi'⟩)
  case exhausted h hr hi => exact .inr (.inr (.inr (.inr ⟨h, get hi, _, rfl, .inr ⟨.inr rfl, rfl⟩⟩)))
  case stop h hr hc hi => exact .inr (.inr (.inr (.inr ⟨h, get hi, _, rfl, .inr ⟨.inl rfl, rfl⟩⟩)))
  case pair h hr hi => exact .inr (.inr (.inr (.inr ⟨h, get hi, _, rfl, .inl ⟨rfl, rfl⟩⟩)))
  case dAdv h => exact .inr (.inr (.inr (.inl ⟨h, rfl, by simp [advanceD]⟩)))
  case dInit => exact .inr (.inr (.inl rfl))
  case eAdv => exact .inl (by simp [advanceE])
  case getaInvalid => exact .inr (.inl ⟨_, rfl, rfl⟩)
  case put => exact .inl (by simp)
  case puta => exact .inl (by simp)
  case flush => exact .inl (by simp)
  all_goals exact .inl rfl

/-- No command changes the configuration (spec/10_state.md R20). -/
theorem answer_cfg (h : Answer s i t) : t.cfg = s.cfg := by
  cases h
  case notActive ch _ _ _ => cases ch <;> rfl
  case eAdv => simp [advanceE]
  case dAdv => simp [advanceD]
  case put => simp
  case puta => simp
  case flush => simp
  all_goals rfl

/-! ### The counters -/

theorem advanceE_next (s : State) : (advanceE s).e.next = counterAfter s.cfg s.e.next := by simp [advanceE]
theorem advanceE_resets (s : State) : (advanceE s).e.resets = resetsAfter s.cfg s.e.next s.e.resets := by simp [advanceE]
theorem advanceD_next (s : State) : (advanceD s).d.next = counterAfter s.cfg s.d.next := by simp [advanceD]
theorem advanceD_resets (s : State) : (advanceD s).d.resets = resetsAfter s.cfg s.d.next s.d.resets := by simp [advanceD]

theorem advanceE_pulses (s : State) :
    (advanceE s).ports.pulses.count .e = s.ports.pulses.count .e + (counterFires s.cfg s.e.next).toNat := by
  unfold advanceE; cases counterFires s.cfg s.e.next <;> simp [pulseIf]

theorem advanceD_pulses (s : State) :
    (advanceD s).ports.pulses.count .d = s.ports.pulses.count .d + (counterFires s.cfg s.d.next).toNat := by
  unfold advanceD; cases counterFires s.cfg s.d.next <;> simp [pulseIf]

/-- What a command that does not leave channel E FAULTED does to its counter. -/
theorem answer_counterE (h : Answer s i t) (hi : i ≠ .eInit) (hf : t.e.state ≠ .faulted) :
    s.e.state ≠ .faulted ∧
    ((i ≠ .eAdv ∧ t.e.next = s.e.next ∧ t.e.resets = s.e.resets ∧
        t.ports.pulses.count .e = s.ports.pulses.count .e) ∨
      (i = .eAdv ∧ t = advanceE s)) := by
  cases h
  case eInit => exact absurd rfl hi
  case notActive ch _ _ _ =>
    cases ch
    · exact absurd (EChannel_faultedBy_state _ _) hf
    · exact ⟨hf, .inl ⟨by rintro rfl; simp_all [Instr.channel], rfl, rfl, rfl⟩⟩
  case eAdv h => exact ⟨by simp [h], .inr ⟨rfl, rfl⟩⟩
  case dAdv h =>
    refine ⟨by simpa [advanceD] using hf, .inl ⟨by simp, by simp [advanceD], by simp [advanceD], ?_⟩⟩
    unfold advanceD; cases counterFires s.cfg s.d.next <;> simp [pulseIf]
  case put h _ => exact ⟨by simp [h], .inl ⟨by simp, by simp, by simp, by simp⟩⟩
  case puta h _ => exact ⟨by simp [h], .inl ⟨by simp, by simp, by simp, by simp⟩⟩
  case flush h _ => exact ⟨by simp [h], .inl ⟨by simp, by simp, by simp, by simp⟩⟩
  case exhausted hi => exact ⟨hf, .inl ⟨by rcases hi with rfl | ⟨rfl, _⟩ <;> simp, rfl, rfl, rfl⟩⟩
  case stop hi => exact ⟨hf, .inl ⟨by rcases hi with rfl | ⟨rfl, _⟩ <;> simp, rfl, rfl, rfl⟩⟩
  case pair hi => exact ⟨hf, .inl ⟨by rcases hi with rfl | ⟨rfl, _⟩ <;> simp, rfl, rfl, rfl⟩⟩
  case dInit => exact ⟨hf, .inl ⟨by simp, rfl, rfl, rfl⟩⟩
  case wcalc => exact ⟨hf, .inl ⟨by simp, rfl, rfl, rfl⟩⟩
  case eWidth => exact ⟨hf, .inl ⟨by simp, rfl, rfl, rfl⟩⟩
  case dWidth => exact ⟨hf, .inl ⟨by simp, rfl, rfl, rfl⟩⟩
  case register => exact ⟨hf, .inl ⟨by simp, rfl, rfl, rfl⟩⟩
  case badRegister => exact ⟨hf, .inl ⟨by simp, rfl, rfl, rfl⟩⟩
  case getaInvalid => exact ⟨hf, .inl ⟨by simp, rfl, rfl, rfl⟩⟩
  all_goals exact absurd (EChannel_faultedBy_state _ _) hf

/-- What a command that does not leave channel D FAULTED does to its counter. -/
theorem answer_counterD (h : Answer s i t) (hi : i ≠ .dInit) (hf : t.d.state ≠ .faulted) :
    s.d.state ≠ .faulted ∧
    ((i ≠ .dAdv ∧ t.d.next = s.d.next ∧ t.d.resets = s.d.resets ∧
        t.ports.pulses.count .d = s.ports.pulses.count .d) ∨
      (i = .dAdv ∧ t = advanceD s)) := by
  cases h
  case dInit => exact absurd rfl hi
  case notActive ch _ _ _ =>
    cases ch
    · exact ⟨hf, .inl ⟨by rintro rfl; simp_all [Instr.channel], rfl, rfl, rfl⟩⟩
    · exact absurd (DChannel_faultedBy_state _ _) hf
  case dAdv h => exact ⟨by simp [h], .inr ⟨rfl, rfl⟩⟩
  case eAdv h =>
    refine ⟨by simpa [advanceE] using hf, .inl ⟨by simp, by simp [advanceE], by simp [advanceE], ?_⟩⟩
    unfold advanceE; cases counterFires s.cfg s.e.next <;> simp [pulseIf]
  case put => exact ⟨by simpa using hf, .inl ⟨by simp, by simp, by simp, by simp⟩⟩
  case puta => exact ⟨by simpa using hf, .inl ⟨by simp, by simp, by simp, by simp⟩⟩
  case flush => exact ⟨by simpa using hf, .inl ⟨by simp, by simp, by simp, by simp⟩⟩
  case exhausted h _ hi => exact ⟨by simp [h], .inl ⟨by rcases hi with rfl | ⟨rfl, _⟩ <;> simp, rfl, rfl, rfl⟩⟩
  case stop h _ _ hi => exact ⟨by simp [h], .inl ⟨by rcases hi with rfl | ⟨rfl, _⟩ <;> simp, rfl, rfl, rfl⟩⟩
  case pair h _ hi => exact ⟨by simp [h], .inl ⟨by rcases hi with rfl | ⟨rfl, _⟩ <;> simp, rfl, rfl, rfl⟩⟩
  case eInit => exact ⟨hf, .inl ⟨by simp, rfl, rfl, rfl⟩⟩
  case wcalc => exact ⟨hf, .inl ⟨by simp, rfl, rfl, rfl⟩⟩
  case eWidth => exact ⟨hf, .inl ⟨by simp, rfl, rfl, rfl⟩⟩
  case dWidth => exact ⟨hf, .inl ⟨by simp, rfl, rfl, rfl⟩⟩
  case register => exact ⟨hf, .inl ⟨by simp, rfl, rfl, rfl⟩⟩
  case getaInvalid => exact absurd (DChannel_faultedBy_state _ _) hf
  all_goals exact ⟨hf, .inl ⟨by simp, rfl, rfl, rfl⟩⟩

/-- One turn of the counter's arithmetic (spec/43_reset_arbiter.md R154): after `k` advances the counter stands at
`2 + k mod (m - 2)`. -/
theorem counter_arith (m k : Nat) (h1 : 3 ≤ m) :
    (2 + k % (m - 2) + 1 = m ↔ (m - 2) ∣ k + 1) ∧
    ((m - 2) ∣ k + 1 → (k + 1) % (m - 2) = 0 ∧ (k + 1) / (m - 2) = k / (m - 2) + 1) ∧
    (¬ (m - 2) ∣ k + 1 → (k + 1) % (m - 2) = k % (m - 2) + 1 ∧ (k + 1) / (m - 2) = k / (m - 2)) := by
  obtain ⟨p, rfl⟩ : ∃ p, m = p + 2 := ⟨m - 2, by omega⟩
  have hp : 0 < p := by omega
  simp only [Nat.add_sub_cancel]
  have e := Nat.div_add_mod k p
  have l := Nat.mod_lt k hp
  have key : ∀ q r, r < p → k + 1 = p * q + r → (k + 1) / p = q ∧ (k + 1) % p = r := by
    intro q r hr e
    rw [e]
    constructor
    · rw [Nat.mul_add_div hp, Nat.div_eq_of_lt hr]; rfl
    · rw [Nat.mul_add_mod, Nat.mod_eq_of_lt hr]
  by_cases hk : k % p + 1 = p
  · have := key (k / p + 1) 0 hp (by rw [Nat.mul_add]; omega)
    have d : p ∣ k + 1 := Nat.dvd_of_mod_eq_zero this.2
    exact ⟨⟨fun _ => d, fun _ => by omega⟩, fun _ => ⟨this.2, this.1⟩, fun h => absurd d h⟩
  · have := key (k / p) (k % p + 1) (by omega) (by omega)
    have d : ¬ p ∣ k + 1 := fun h => by have := Nat.mod_eq_zero_of_dvd h; omega
    exact ⟨⟨fun _ => by omega, fun h => absurd h d⟩, fun h => absurd h d, fun _ => ⟨this.2, this.1⟩⟩

/-- The counter, the reset counter and the fired pulses after one more advance, when they stand where `k` advances put them. -/
theorem counter_turn {cfg : Config} {next : Code} {resets : BitVec 32} {k : Nat} (hl : cfg.Legal)
    (hn : next.toNat = 2 + k % (cfg.maxCode - 2)) (hr : resets.toNat = k / (cfg.maxCode - 2) % 2 ^ 32) :
    (counterAfter cfg next).toNat = 2 + (k + 1) % (cfg.maxCode - 2) ∧
    (resetsAfter cfg next resets).toNat = (k + 1) / (cfg.maxCode - 2) % 2 ^ 32 ∧
    k / (cfg.maxCode - 2) + (counterFires cfg next).toNat = (k + 1) / (cfg.maxCode - 2) ∧
    (counterFires cfg next = true ↔ cfg.maxCode - 2 ∣ k + 1) := by
  obtain ⟨a1, a2, a3⟩ := counter_arith cfg.maxCode k hl.1
  have hb := counterFires_iff cfg next
  rw [hn, a1] at hb
  by_cases hd : (cfg.maxCode - 2) ∣ k + 1
  · rw [resetsAfter, hb.mpr hd, (a2 hd).1, (a2 hd).2, counterAfter_fires (by rw [hn]; exact a1.mpr hd)]
    refine ⟨rfl, ?_, rfl, by simp [hd]⟩
    rw [if_pos rfl, BitVec.toNat_add, hr]; simp
  · have hfalse : counterFires cfg next = false := by simpa using fun e => hd (hb.mp e)
    have hm := hl.1
    have hlt := Nat.mod_lt k (show 0 < cfg.maxCode - 2 by omega)
    rw [resetsAfter, hfalse, (a3 hd).1, (a3 hd).2,
      counterAfter_toNat hl ⟨by rw [hn]; exact Nat.le_add_right 2 _, by rw [hn]; omega⟩
        (by rw [hn]; exact fun e => hd (a1.mp e)), hn]
    exact ⟨rfl, by simpa using hr, rfl, by simp [hd]⟩

end Sys2Proof.Machine
end

