-- ==== Sys2Proof/Laws/Mirror.lean ====
section
/-! SUPPORT. The two bit placements (spec/20_memory.md R52, R53): each shared operation on a mirrored state gives the mirror of what it
gives on the state. -/

namespace Sys2Proof.Machine

open Sys2Proof.Spec

/-! ### Bytes and bits -/

theorem reversed_bit (b : Byte) {j : Nat} (h : j < 8) : (reversed b).getLsbD j = b.getLsbD (7 - j) := by
  unfold reversed
  rw [BitVec.getLsbD_reverse, BitVec.getMsbD_eq_getLsbD]
  simp [h]

theorem reversed_zero : reversed 0#8 = 0#8 := by decide

theorem reversed_or (a b : Byte) : reversed (a ||| b) = reversed a ||| reversed b := by
  apply BitVec.eq_of_getLsbD_eq
  intro i hi
  rw [reversed_bit _ hi, BitVec.getLsbD_or, BitVec.getLsbD_or, reversed_bit _ hi, reversed_bit _ hi]

theorem reversed_place (b : Bool) {m : Nat} (h : m < 8) :
    reversed ((BitVec.ofBool b).setWidth 8 <<< m) = (BitVec.ofBool b).setWidth 8 <<< (7 - m) := by
  have : m = 0 ∨ m = 1 ∨ m = 2 ∨ m = 3 ∨ m = 4 ∨ m = 5 ∨ m = 6 ∨ m = 7 := by omega
  rcases this with h | h | h | h | h | h | h | h <;> subst h <;> cases b <;> decide

theorem pos_other (p : BitPlacement) {j : Nat} (h : j < 8) : pos (otherPlacement p) j = 7 - pos p j := by
  cases p <;> simp [otherPlacement, pos]; omega

theorem streamBit_mirror (p : BitPlacement) (bytes : List Byte) (k : Nat) :
    streamBit (otherPlacement p) (bytes.map reversed) k = streamBit p bytes k := by
  have hk : k % 8 < 8 := Nat.mod_lt _ (by decide)
  have hg : (bytes.map reversed).getD (k / 8) 0 = reversed (bytes.getD (k / 8) 0) := by
    simp only [List.getD_eq_getElem?_getD, List.getElem?_map]
    cases bytes[k / 8]? <;> simp [reversed_zero]
  have := pos_lt p hk
  rw [streamBit, streamBit, hg, pos_other p hk, reversed_bit _ (by omega)]
  congr 1; omega

theorem readBits_mirror (p : BitPlacement) (bytes : List Byte) (k n : Nat) :
    readBits (otherPlacement p) (bytes.map reversed) k n = readBits p bytes k n := by
  induction n with
  | zero => rfl
  | succ n ih => rw [readBits, readBits, ih, streamBit_mirror]

/-- A stream bit under LSB0 is a bit of the little-endian integer (R56). -/
theorem littleEndian_testBit (bytes : List Byte) (k : Nat) : (littleEndian bytes).testBit k = streamBit .lsb0 bytes k := by
  induction bytes generalizing k with
  | nil => simp [littleEndian, streamBit]
  | cons b bs ih =>
    have : littleEndian (b :: bs) = 2 ^ 8 * littleEndian bs + b.toNat := by simp [littleEndian]; omega
    rw [this, Nat.testBit_two_pow_mul_add _ b.isLt]
    by_cases hk : k < 8
    · rw [if_pos hk]; simp [streamBit, pos, show k / 8 = 0 by omega, show k % 8 = k by omega]; rfl
    · rw [if_neg hk, ih]
      have h1 : k / 8 = (k - 8) / 8 + 1 := by omega
      simp [streamBit, pos, h1, show (k - 8) % 8 = k % 8 by omega]

/-! ### Channels -/

/-- Channel E of the mirrored machine. -/
def mirrorE (c : EChannel) : EChannel := { c with acc := reversed c.acc, out := c.out.map reversed }

theorem appendBit_mirror (p : BitPlacement) (b : Bool) (c : EChannel) :
    appendBit (otherPlacement p) b (mirrorE c) = mirrorE (appendBit p b c) := by
  have hk : c.cursor.toNat % 8 < 8 := Nat.mod_lt _ (by decide)
  have := pos_lt p hk
  have hacc : (mirrorE c).acc ||| ((BitVec.ofBool b).setWidth 8 <<< pos (otherPlacement p) (c.cursor.toNat % 8)) =
      reversed (c.acc ||| ((BitVec.ofBool b).setWidth 8 <<< pos p (c.cursor.toNat % 8))) := by
    rw [reversed_or, reversed_place b this, pos_other p hk]; rfl
  have hc : (mirrorE c).cursor = c.cursor := rfl
  unfold appendBit
  simp only [hc, hacc]
  split <;> simp [mirrorE, reversed_zero]

theorem appendBits_mirror (p : BitPlacement) (v n : Nat) (c : EChannel) :
    appendBits (otherPlacement p) v n (mirrorE c) = mirrorE (appendBits p v n c) := by
  induction n with
  | zero => rfl
  | succ n ih => rw [appendBits, appendBits, ih, appendBit_mirror]

theorem appendPair_mirror (p : BitPlacement) (code : Code) (sym : Byte) (width : Nat) (c : EChannel) :
    appendPair (otherPlacement p) code sym width (mirrorE c) = mirrorE (appendPair p code sym width c) := by
  rw [appendPair, appendPair, appendBits_mirror, appendBits_mirror]

/-! ### The shared operations -/

theorem mirrored_e (s : State) : (mirrored s).e = mirrorE s.e := rfl
theorem mirrored_placement (s : State) : (mirrored s).cfg.bitPlacement = otherPlacement s.cfg.bitPlacement := rfl

theorem mirrored_raise (ch : Option Channel) (c : Cause) (s : State) : mirrored (raise ch c s) = raise ch c (mirrored s) := by
  rcases ch with _ | _ | _ <;> rfl

theorem mirrored_whenActive (ch : Channel) (s b : State) :
    whenActive ch (mirrored s) (mirrored b) = mirrored (whenActive ch s b) := by
  cases ch
  · by_cases h : s.e.state = .active
    · rw [whenActive_e h, whenActive_e (s := mirrored s) h]
    · rw [whenActive_e_inactive h, whenActive_e_inactive (s := mirrored s) h, mirrored_raise]
  · by_cases h : s.d.state = .active
    · rw [whenActive_d h, whenActive_d (s := mirrored s) h]
    · rw [whenActive_d_inactive h, whenActive_d_inactive (s := mirrored s) h, mirrored_raise]

theorem mirrored_packPair (code : Code) (sym : Byte) (width : Nat) (s : State) :
    packPair code sym width (mirrored s) = mirrored (packPair code sym width s) := by
  rcases packPair_cases code sym width s with ⟨h, e⟩ | ⟨h, e⟩
  · rw [e, mirrored_raise]; exact packPair_overflow (s := mirrored s) h
  · rw [e, packPair_room (s := mirrored s) h, mirrored_e, mirrored_placement, appendPair_mirror]
    generalize appendPair _ _ _ _ _ = c
    rfl

theorem mirrored_flushE (s : State) : flushE (mirrored s) = mirrored (flushE s) := by
  rcases flushE_cases s with ⟨h, e⟩ | ⟨h, e⟩
  · rw [e, mirrored_raise]; exact flushE_overflow (s := mirrored s) h
  · have hp : (mirrorE s.e).padBits = s.e.padBits := rfl
    rw [e, flushE_room (s := mirrored s) h, mirrored_e, mirrored_placement, appendBits_mirror, hp]
    generalize appendBits _ _ _ _ = c
    rfl

theorem mirrored_unpackPair (width : Nat) (check : Bool) (s : State) :
    unpackPair width check (mirrored s) = mirrored (unpackPair width check s) := by
  have hcode : codeAtCursor (mirrored s) width = codeAtCursor s width :=
    congrArg (BitVec.ofNat 16) (readBits_mirror s.cfg.bitPlacement s.d.src s.d.cursor.toNat width)
  have hsym : symAtCursor (mirrored s) width = symAtCursor s width :=
    congrArg (BitVec.ofNat 8) (readBits_mirror s.cfg.bitPlacement s.d.src (s.d.cursor.toNat + width) 8)
  have hrem : (mirrored s).d.remaining = s.d.remaining := by simp [DChannel.remaining, mirrored]
  have hnext : (mirrored s).d.next = s.d.next := rfl
  unfold unpackPair
  rw [hcode, hsym, hrem, hnext]
  split
  · rfl
  · split
    · rfl
    · split <;> rfl

theorem mirrored_openE (s : State) : openE (mirrored s) = mirrored (openE s) := by
  simp [openE, mirrored, State.outPort, EChannel.opened, EChannel.reset, reversed_zero, respond]

theorem mirrored_openD (src : List Byte) (s : State) : openD (src.map reversed) (mirrored s) = mirrored (openD src s) := by
  simp [openD, mirrored, DChannel.opened, DChannel.reset, respond]

theorem mirrored_nextDelivery (s : State) : nextDelivery (mirrored s) = (nextDelivery s).map reversed := by
  simp only [nextDelivery, mirrored, List.headD_eq_head?_getD, List.head?_map]
  cases s.ports.deliveries.head? <;> rfl

theorem mirrored_advanceE (s : State) : advanceE (mirrored s) = mirrored (advanceE s) := by
  unfold advanceE
  show respond _ (advData (counterFires s.cfg s.e.next) (counterAfter s.cfg s.e.next))
    (pulseIf (counterFires s.cfg s.e.next) _ _) = _
  cases counterFires s.cfg s.e.next <;> rfl

theorem mirrored_advanceD (s : State) : advanceD (mirrored s) = mirrored (advanceD s) := by
  unfold advanceD
  show respond _ (advData (counterFires s.cfg s.d.next) (counterAfter s.cfg s.d.next))
    (pulseIf (counterFires s.cfg s.d.next) _ _) = _
  cases counterFires s.cfg s.d.next <;> rfl

theorem mirrored_registerValue {reg : Byte} (h1 : reg ≠ 0x01) (h6 : reg ≠ 0x06) (s : State) :
    registerValue reg (mirrored s) = registerValue reg s := by
  unfold registerValue
  split
  · rfl
  · rename_i h; exact absurd (BitVec.eq_of_toNat_eq (by simpa using h)) h1
  · rfl
  · rfl
  · rfl
  · rfl
  · rename_i h; exact absurd (BitVec.eq_of_toNat_eq (by simpa using h)) h6
  · rfl
  · simp [mirrored]
  all_goals rfl

end Sys2Proof.Machine
end

