-- ==== Sys2Proof/Laws/Pairs.lean ====
section
/-! SUPPORT. Sequences of commands and sequences of pairs: what packing one pair after another, flushing, and reading pairs back
answer. -/

namespace Sys2Proof.Machine

open Sys2Proof.Spec

variable {s t u v : State}

/-! ### Commands one after another -/

theorem execAll_step {i : Instr} {is : List Instr} (h : exec i s = .next u) : execAll (i :: is) s = execAll is u := by
  simp [execAll, h]

theorem execAll_cons {i : Instr} {is : List Instr} (h : execAll (i :: is) s = .next t) :
    ∃ u, exec i s = .next u ∧ execAll is u = .next t := by
  unfold execAll at h
  split at h
  · exact ⟨_, ‹_›, h⟩
  · cases h
  · cases h

theorem execAll_append {is js : List Instr} (h : execAll is s = .next u) : execAll (is ++ js) s = execAll js u := by
  induction is generalizing s with
  | nil => cases h; rfl
  | cons i is ih =>
    obtain ⟨w, h1, h2⟩ := execAll_cons h
    rw [List.cons_append, execAll_step h1, ih h2]

theorem execAll_snoc {i : Instr} {is : List Instr} (h : execAll (is ++ [i]) s = .next t) :
    ∃ u, execAll is s = .next u ∧ exec i u = .next t := by
  induction is generalizing s with
  | nil => obtain ⟨w, h1, h2⟩ := execAll_cons h; cases h2; exact ⟨s, rfl, h1⟩
  | cons j is ih =>
    obtain ⟨w, h1, h2⟩ := execAll_cons h
    obtain ⟨x, h3, h4⟩ := ih h2
    exact ⟨x, by rw [execAll_step h1, h3], h4⟩

/-! ### Pairs in a stream -/

/-- The pairs `ps`, one after another, stand in the bits `bit` from `k` on (spec/30_encoding.md R81). -/
def PairsAt (bit : Nat → Bool) : Nat → List Pair → Prop
  | _, [] => True
  | k, q :: ps =>
    (∀ i, i < q.width → bit (k + i) = q.code.getLsbD i) ∧ (∀ i, i < 8 → bit (k + q.width + i) = q.sym.getLsbD i) ∧
      PairsAt bit (k + q.width + 8) ps

theorem pairBits_append (a b : List Pair) : pairBits (a ++ b) = pairBits a + pairBits b := by
  induction a with
  | nil => simp [pairBits]
  | cons q a ih => simp [pairBits, ih]; omega

theorem PairsAt_congr {b1 b2 : Nat → Bool} {k : Nat} {ps : List Pair} (h : ∀ j, j < k + pairBits ps → b2 j = b1 j)
    (hp : PairsAt b1 k ps) : PairsAt b2 k ps := by
  induction ps generalizing k with
  | nil => trivial
  | cons q ps ih =>
    obtain ⟨h1, h2, h3⟩ := hp
    simp only [pairBits] at h
    exact ⟨fun i hi => by rw [h _ (by omega), h1 i hi], fun i hi => by rw [h _ (by omega), h2 i hi],
      ih (fun j hj => h j (by omega)) h3⟩

theorem PairsAt_append {bit : Nat → Bool} {k : Nat} {a b : List Pair} :
    PairsAt bit k (a ++ b) ↔ PairsAt bit k a ∧ PairsAt bit (k + pairBits a) b := by
  induction a generalizing k with
  | nil => simp [pairBits, PairsAt]
  | cons q a ih =>
    have e : k + (q.width + 8 + pairBits a) = k + q.width + 8 + pairBits a := by omega
    simp only [List.cons_append, PairsAt, pairBits, ih, e, and_assoc]

/-! ### Packing -/

/-- Everything packing one pair with room does to channel E, and its response; the append itself stays hidden in `c`. -/
theorem packPair_step {code : Code} {sym : Byte} {width : Nat} (ok : StreamOk s.cfg.bitPlacement s.e)
    (room : s.e.cursor.toNat + width + 8 < 2 ^ 64) :
    ∃ c : EChannel, packPair code sym width s = respond .ok (pairData width code sym) { s with e := c } ∧
      c.state = s.e.state ∧ c.next = s.e.next ∧ StreamOk s.cfg.bitPlacement c ∧
      c.cursor.toNat = s.e.cursor.toNat + width + 8 ∧
      (∀ i, i < width → c.bit s.cfg.bitPlacement (s.e.cursor.toNat + i) = code.getLsbD i) ∧
      (∀ i, i < 8 → c.bit s.cfg.bitPlacement (s.e.cursor.toNat + width + i) = sym.getLsbD i) ∧
      ∀ k, k < s.e.cursor.toNat → c.bit s.cfg.bitPlacement k = s.e.bit s.cfg.bitPlacement k := by
  obtain ⟨ok', cur, new1, new2, old⟩ := appendPair_spec s.cfg.bitPlacement code sym width ok room
  exact ⟨appendPair s.cfg.bitPlacement code sym width s.e, packPair_room (by omega), by simp, by simp, ok', cur, new1, new2, old⟩

/-- Everything E.PUT does with a pair it accepts. -/
theorem put_step {q : Pair} (ok : StreamOk s.cfg.bitPlacement s.e) (ha : s.e.state = .active) (hq : Packable s.cfg q)
    (room : s.e.cursor.toNat + q.width + 8 < 2 ^ 64) :
    ∃ c : EChannel, exec (putOf q) s = .next (respond .ok (pairData q.width q.code q.sym) { s with e := c }) ∧
      c.state = s.e.state ∧ c.next = s.e.next ∧ StreamOk s.cfg.bitPlacement c ∧
      c.cursor.toNat = s.e.cursor.toNat + q.width + 8 ∧
      (∀ i, i < q.width → c.bit s.cfg.bitPlacement (s.e.cursor.toNat + i) = q.code.getLsbD i) ∧
      (∀ i, i < 8 → c.bit s.cfg.bitPlacement (s.e.cursor.toNat + q.width + i) = q.sym.getLsbD i) ∧
      ∀ k, k < s.e.cursor.toNat → c.bit s.cfg.bitPlacement k = s.e.bit s.cfg.bitPlacement k := by
  obtain ⟨-, hc1, hc2⟩ := hq
  obtain ⟨c, e, h⟩ := packPair_step (code := q.code) (sym := q.sym) ok room
  refine ⟨c, ?_, h⟩
  show Host.Outcome.next (whenActive .e s _) = _
  rw [whenActive_e ha, if_neg (by omega), if_neg (by omega), e]

/-- Packing a list of pairs the block accepts: all of them complete, and they stand in the stream one after another. -/
theorem pack_run (ps : List Pair) (s : State) (ok : StreamOk s.cfg.bitPlacement s.e) (ha : s.e.state = .active)
    (hps : ∀ p ∈ ps, Packable s.cfg p) (room : s.e.cursor.toNat + pairBits ps < 2 ^ 64) :
    ∃ t, execAll (ps.map putOf) s = .next t ∧ t.cfg = s.cfg ∧ StreamOk s.cfg.bitPlacement t.e ∧ t.e.state = .active ∧
      t.e.cursor.toNat = s.e.cursor.toNat + pairBits ps ∧ PairsAt (t.e.bit s.cfg.bitPlacement) s.e.cursor.toNat ps ∧
      ∀ k, k < s.e.cursor.toNat → t.e.bit s.cfg.bitPlacement k = s.e.bit s.cfg.bitPlacement k := by
  induction ps generalizing s with
  | nil => exact ⟨s, rfl, rfl, ok, ha, by simp [pairBits], trivial, fun _ _ => rfl⟩
  | cons q ps ih =>
    simp only [pairBits] at room
    obtain ⟨c, e, hst, -, ok', cur, new1, new2, old⟩ := put_step ok ha (hps q (by simp)) (by omega)
    obtain ⟨t, h1, h2, h3, h4, h5, h6, h7⟩ := ih (respond .ok (pairData q.width q.code q.sym) { s with e := c }) ok'
      (hst.trans ha) (fun p hp => hps p (by simp [hp])) (by simp only [respond_e]; omega)
    simp only [respond_cfg, respond_e] at h2 h3 h5 h6 h7
    rw [List.map_cons, execAll_step e]
    refine ⟨t, h1, h2, h3, h4, by rw [h5, cur, pairBits]; omega, ⟨?_, ?_, ?_⟩, ?_⟩
    · intro i hi; rw [h7 _ (by omega), new1 i hi]
    · intro i hi; rw [h7 _ (by omega), new2 i hi]
    · rw [← cur]; exact h6
    · intro k hk; rw [h7 _ (by omega), old k hk]

/-- Everything a flush with room does to the stream. -/
theorem flush_run (s : State) (ok : StreamOk s.cfg.bitPlacement s.e) (ha : s.e.state = .active)
    (room : s.e.cursor.toNat + 7 < 2 ^ 64) :
    ∃ c : EChannel, exec .eFlush s = .next (respond .ok (padData s.e.padBits) { s with e := c }) ∧
      8 * c.out.length = s.e.cursor.toNat + s.e.padBits ∧
      ∀ k, k < s.e.cursor.toNat → streamBit s.cfg.bitPlacement c.out k = s.e.bit s.cfg.bitPlacement k := by
  have hp := padBits_lt s.e
  obtain ⟨ok', cur, -, old⟩ := appendBits_spec s.cfg.bitPlacement 0 s.e.padBits ok (by omega)
  have hal : (s.e.cursor.toNat + s.e.padBits) % 8 = 0 := cursor_add_padBits s.e
  have hlen := ok'.cursor
  refine ⟨{ appendBits s.cfg.bitPlacement 0 s.e.padBits s.e with state := .done }, ?_, ?_, ?_⟩
  · show Host.Outcome.next (whenActive .e s _) = _
    rw [whenActive_e ha, flushE_room (by omega)]
  · show 8 * (appendBits s.cfg.bitPlacement 0 s.e.padBits s.e).out.length = _
    omega
  · intro k hk
    rw [← old k hk, bit_of_lt]; omega

/-! ### Reading back -/

/-- The pair that stands at the cursor is the one read. -/
theorem unpackPair_at {q : Pair} {k : Nat} (check : Bool) (hk : v.d.cursor.toNat = k) (hlen : 8 * v.d.src.length < 2 ^ 64)
    (hrem : k + q.width + 8 ≤ 8 * v.d.src.length) (hc : q.code.toNat < 2 ^ q.width)
    (h1 : ∀ i, i < q.width → streamBit v.cfg.bitPlacement v.d.src (k + i) = q.code.getLsbD i)
    (h2 : ∀ i, i < 8 → streamBit v.cfg.bitPlacement v.d.src (k + q.width + i) = q.sym.getLsbD i) :
    (q.code = stopCode → unpackPair q.width check v =
      respond .stop (pairData q.width q.code q.sym) { v with d := (v.d.consumed q.width).ended .stop }) ∧
    (q.code ≠ stopCode → (check = true → q.code.toNat < v.d.next.toNat) → unpackPair q.width check v =
      respond .ok (pairData q.width q.code q.sym) { v with d := v.d.consumed q.width }) ∧
    (v.d.consumed q.width).cursor.toNat = k + q.width + 8 := by
  subst hk
  have ec : codeAtCursor v q.width = q.code := by
    rw [codeAtCursor, readBits_eq _ _ _ _ q.code.toNat hc h1]; simp
  have es : symAtCursor v q.width = q.sym := by
    rw [symAtCursor, readBits_eq _ _ _ _ q.sym.toNat q.sym.isLt h2]; simp
  have hrem' : q.width + 8 ≤ v.d.remaining := by unfold DChannel.remaining; omega
  refine ⟨fun hq => ?_, fun hq hn => ?_, ?_⟩
  · rw [unpackPair_stop hrem' (by rw [ec, hq]), ec, es]
  · rw [unpackPair_pair hrem' (by rw [ec]; exact hq), ec, es]
    rintro ⟨a, b⟩
    have := hn a
    have := BitVec.le_def.mp (ec ▸ b)
    omega
  · rw [consumed_cursor, BitVec.toNat_add, BitVec.toNat_ofNat]
    omega

/-- Reading a list of pairs, none a STOP pair, at their own widths: all of them complete. -/
theorem read_run (ps : List Pair) (v : State) (src : List Byte) (k : Nat) (ha : v.d.state = .active) (hs : v.d.src = src)
    (hk : v.d.cursor.toNat = k) (hlen : 8 * src.length < 2 ^ 64) (hrem : k + pairBits ps ≤ 8 * src.length)
    (hps : ∀ q ∈ ps, q.code.toNat < 2 ^ q.width ∧ q.code ≠ stopCode)
    (hp : PairsAt (streamBit v.cfg.bitPlacement src) k ps) :
    ∃ u, execAll (ps.map getOf) v = .next u ∧ u.cfg = v.cfg ∧ u.d.state = .active ∧ u.d.src = src ∧
      u.d.cursor.toNat = k + pairBits ps := by
  subst hs
  induction ps generalizing v k with
  | nil => exact ⟨v, rfl, rfl, ha, rfl, by simpa [pairBits] using hk⟩
  | cons q ps ih =>
    obtain ⟨hc, hn⟩ := hps q (by simp)
    obtain ⟨p1, p2, p3⟩ := hp
    simp only [pairBits] at hrem
    obtain ⟨-, e, cur⟩ := unpackPair_at false hk hlen (by omega) hc p1 p2
    have he : exec (getOf q) v = .next (respond .ok (pairData q.width q.code q.sym) { v with d := v.d.consumed q.width }) := by
      show Host.Outcome.next (whenActive .d v _) = _
      rw [whenActive_d ha, e hn (by simp)]
    rw [List.map_cons, execAll_step he]
    obtain ⟨u, a, b, c, d, f⟩ := ih (respond .ok (pairData q.width q.code q.sym) { v with d := v.d.consumed q.width })
      (k + q.width + 8) ha cur (fun q hq => hps q (by simp [hq])) hlen (by simp only [respond_d, consumed_src]; omega) p3
    exact ⟨u, a, b, c, d, by rw [f, pairBits]; omega⟩

end Sys2Proof.Machine
end

