-- ==== Sys2Proof/Laws/PerInstr.lean ====
section
/-! SUPPORT. Facts stated for each constructor of `Instr` on its own. -/

namespace Sys2Proof.Laws.TableRow

/-- The `(match, mask)` pair of each command's row of spec/opcode_table.json. -/
def row : Instr → Word × Word
  | .wcalc _ => (0x00000000, 0xFF0000FF)
  | .eInit => (0x10000000, 0xFFFFFFFF)
  | .ePut _ _ _ => (0x20000000, 0xF0000000)
  | .ePuta _ _ => (0x30000000, 0xFF000000)
  | .eAdv => (0x40000000, 0xFFFFFFFF)
  | .eFlush => (0x50000000, 0xFFFFFFFF)
  | .eWidth => (0x60000000, 0xFFFFFFFF)
  | .rd _ => (0x80000000, 0xFFFFFF00)
  | .dInit => (0x90000000, 0xFFFFFFFF)
  | .dGet _ => (0xA0000000, 0xF0FFFFFF)
  | .dGeta => (0xB0000000, 0xFFFFFFFF)
  | .dAdv => (0xC0000000, 0xFFFFFFFF)
  | .dWidth => (0xE0000000, 0xFFFFFFFF)

/-- The command's word is a word of its row: masked, it is the row's match (spec/30_encoding.md R76). -/
def Statement (i : Instr) : Prop := encode i &&& (row i).2 = (row i).1

/-- The fields of a word under a mask are the fields under the mask's fields. -/
theorem wordOf_and (f g : Fields) :
    wordOf f &&& wordOf g = wordOf { op := f.op &&& g.op, wf := f.wf &&& g.wf, code := f.code &&& g.code, sym := f.sym &&& g.sym } := by
  simp only [wordOf]
  apply BitVec.eq_of_getLsbD_eq
  intro i _
  simp only [BitVec.getLsbD_and, BitVec.getLsbD_append]
  split
  · rfl
  · split
    · rfl
    · split <;> rfl

theorem wcalc (n : Code) : Statement (.wcalc n) := by
  show wordOf (encodeFields (.wcalc n)) &&& wordOf { op := 0xF, wf := 0xF, code := 0, sym := 0xFF } = _
  rw [wordOf_and]
  simp [encodeFields, wordOf, row]
theorem eInit : Statement .eInit := by unfold Statement; decide
theorem ePut (code : Code) (sym : Byte) (width : Nat) : Statement (.ePut code sym width) := by
  show wordOf (encodeFields (.ePut code sym width)) &&& wordOf { op := 0xF, wf := 0, code := 0, sym := 0 } = _
  rw [wordOf_and]
  simp [encodeFields, wordOf, row]
theorem ePuta (code : Code) (sym : Byte) : Statement (.ePuta code sym) := by
  show wordOf (encodeFields (.ePuta code sym)) &&& wordOf { op := 0xF, wf := 0xF, code := 0, sym := 0 } = _
  rw [wordOf_and]
  simp [encodeFields, wordOf, row]
theorem eAdv : Statement .eAdv := by unfold Statement; decide
theorem eFlush : Statement .eFlush := by unfold Statement; decide
theorem eWidth : Statement .eWidth := by unfold Statement; decide
theorem rd (reg : Byte) : Statement (.rd reg) := by
  show wordOf (encodeFields (.rd reg)) &&& wordOf { op := 0xF, wf := 0xF, code := 0xFFFF, sym := 0 } = _
  rw [wordOf_and]
  simp [encodeFields, wordOf, row]
theorem dInit : Statement .dInit := by unfold Statement; decide
theorem dGet (width : Nat) : Statement (.dGet width) := by
  show wordOf (encodeFields (.dGet width)) &&& wordOf { op := 0xF, wf := 0, code := 0xFFFF, sym := 0xFF } = _
  rw [wordOf_and]
  simp [encodeFields, wordOf, row]
theorem dGeta : Statement .dGeta := by unfold Statement; decide
theorem dAdv : Statement .dAdv := by unfold Statement; decide
theorem dWidth : Statement .dWidth := by unfold Statement; decide

end Sys2Proof.Laws.TableRow
end

