-- ==== Sys2Proof/Laws/Protocol.lean ====
section
/-! SUPPORT. A host that follows the protocol (spec/43_reset_arbiter.md R156 to R159): what the encoder's commands leave in the
stream, what the decoder's reads give back, and the relation between the encoder's trie and the decoder's word table. -/

namespace Sys2Proof.Machine

open Sys2Proof.Spec

variable {cfg : Config} {s t u v : State} {h : EncoderHost} {ps : List Pair} {D : DecoderHost}

theorem emptyCode_toNat : emptyCode.toNat = 0 := rfl
theorem stopCode_toNat : stopCode.toNat = 1 := rfl
theorem startCode_toNat : startCode.toNat = 2 := rfl

/-! ### One command issued -/

theorem decode_ePuta (c : Code) (y : Byte) : decode (encode (.ePuta c y)) = .command (.ePuta c y) := by
  rw [decode_command_iff, fieldsOf_encode]
  exact ⟨rfl, by simp [encodeFields, reservedFieldSet, usedFields]⟩

/-- A command issued: the response is the one its meaning gives. -/
theorem issue_of_exec {i : Instr} {k : RKind} {data : Word} (hd : decode (encode i) = .command i)
    (he : exec i (acceptCommand (presentWord (encode i) s)) = .next t)
    (hr : t.ports.responses = s.ports.responses ++ [{ rkind := k, rdata := data }]) :
    issue i s = some ({ rkind := k, rdata := data }, t) := by
  have : step (presentWord (encode i) s) = .next t := by
    rw [step_command (w := encode i) (rest := s.ports.pending.tail) rfl hd, he]
  simp [issue, this, hr]

theorem issueOk_of_exec {i : Instr} {data : Word} (hd : decode (encode i) = .command i)
    (he : exec i (acceptCommand (presentWord (encode i) s)) = .next t)
    (hr : t.ports.responses = s.ports.responses ++ [{ rkind := .ok, rdata := data }]) : issueOk i s = some (data, t) := by
  simp [issueOk, issue_of_exec hd he hr]

theorem exec_dGeta_active (ha : s.d.state = .active) :
    exec .dGeta s = .next (unpackPair (codeWidth s.d.next.toNat) true s) := congrArg _ (whenActive_d ha _)

theorem exec_ePuta_active {c : Code} (y : Byte) (ha : s.e.state = .active) (hc : c.toNat < s.e.next.toNat) :
    exec (.ePuta c y) s = .next (packPair c y (codeWidth s.e.next.toNat) s) := by
  refine congrArg _ ((whenActive_e ha _).trans (if_neg ?_))
  rw [BitVec.le_def]; omega

/-! ### The fields of the responses -/

theorem advCounter_advData (f : Bool) (n : Code) : advCounter (advData f n) = n := by
  apply BitVec.eq_of_getLsbD_eq
  intro i hi
  simp only [advCounter, advData, BitVec.getLsbD_extractLsb', BitVec.getLsbD_append]
  simp [hi]

theorem advFired_advData (f : Bool) (n : Code) : advFired (advData f n) = f := by
  simp only [advFired, advData, BitVec.getLsbD_append]
  cases f <;> rfl

theorem pairCode_pairData (w : Nat) (c : Code) (y : Byte) : pairCode (pairData w c y) = c := by
  apply BitVec.eq_of_getLsbD_eq
  intro i hi
  simp only [pairCode, pairData, BitVec.getLsbD_extractLsb', BitVec.getLsbD_append]
  simp [hi]

theorem pairSym_pairData (w : Nat) (c : Code) (y : Byte) : pairSym (pairData w c y) = y := by
  apply BitVec.eq_of_getLsbD_eq
  intro i hi
  simp only [pairSym, pairData, BitVec.getLsbD_extractLsb', BitVec.getLsbD_append]
  simp [hi]

/-! ### The decoder's host state, pair by pair -/

/-- The decoder after it has appended the word `w ++ [y]` and advanced (R159). -/
def DecoderHost.add (cfg : Config) (D : DecoderHost) (w : List Byte) (y : Byte) : DecoderHost :=
  { table := if counterFires cfg D.next then [] else D.table ++ [(D.next, w ++ [y])]
    next := counterAfter cfg D.next
    output := D.output ++ (w ++ [y]) }

/-- The decoder on one data pair, if the pair has the width and a code the decoder expects. -/
def DecoderHost.read (cfg : Config) (D : DecoderHost) (q : Pair) : Option DecoderHost :=
  if q.width = codeWidth D.next.toNat ∧ q.code.toNat < D.next.toNat ∧ q.code ≠ stopCode then
    (tableWord D.table q.code).map fun w => D.add cfg w q.sym
  else none

/-- The decoder on a list of data pairs. -/
def DecoderHost.readAll (cfg : Config) : List Pair → DecoderHost → Option DecoderHost
  | [], D => some D
  | q :: ps, D => (D.read cfg q).bind (DecoderHost.readAll cfg ps)

theorem readAll_snoc (cfg : Config) (ps : List Pair) (q : Pair) (D : DecoderHost) :
    DecoderHost.readAll cfg (ps ++ [q]) D = (DecoderHost.readAll cfg ps D).bind fun E => E.read cfg q := by
  induction ps generalizing D with
  | nil =>
    simp only [List.nil_append, DecoderHost.readAll, Option.bind_some]
    cases D.read cfg q <;> rfl
  | cons p ps ih =>
    simp only [List.cons_append, DecoderHost.readAll]
    cases D.read cfg p with
    | none => rfl
    | some E => simp only [Option.bind_some]; exact ih E

theorem tableWord_append {T : List (Code × List Byte)} {c : Code} {w : List Byte} (x : Code × List Byte)
    (h : tableWord T c = some w) : tableWord (T ++ [x]) c = some w := by
  unfold tableWord at h ⊢
  split
  · rename_i h0; rw [if_pos h0] at h; exact h
  · rename_i h0
    rw [if_neg h0] at h
    rw [List.find?_append]
    cases hf : T.find? (fun x => x.1 = c) with
    | none => rw [hf] at h; cases h
    | some y => rw [hf] at h; simpa using h

theorem tableWord_new {T : List (Code × List Byte)} {n : Code} (w : List Byte) (h0 : n ≠ emptyCode)
    (h : ∀ x ∈ T, x.1 ≠ n) : tableWord (T ++ [(n, w)]) n = some w := by
  unfold tableWord
  rw [if_neg h0, List.find?_append]
  have : T.find? (fun x => x.1 = n) = none := by
    rw [List.find?_eq_none]; intro x hx; simpa using h x hx
  simp [this]

/-! ### The decoder on a stream -/

/-- The decoder's loop on a stream that holds `ps` and then a STOP pair: it outputs what the pairs give. -/
theorem decodeLoop_run (ps : List Pair) (stop : Pair) (D E : DecoderHost) (v : State) (k fuel : Nat) (hl : v.cfg.Legal)
    (ha : v.d.state = .active) (hn : v.d.next = D.next) (hr : counterInRange v.cfg D.next) (hk : v.d.cursor.toNat = k)
    (hlen : 8 * v.d.src.length < 2 ^ 64) (hrem : k + pairBits (ps ++ [stop]) ≤ 8 * v.d.src.length)
    (hp : PairsAt (streamBit v.cfg.bitPlacement v.d.src) k (ps ++ [stop]))
    (hrun : DecoderHost.readAll v.cfg ps D = some E) (hs : stop.code = stopCode) (hw : stop.width = codeWidth E.next.toNat)
    (hf : ps.length < fuel) : ∃ u, decodeLoop fuel D v = some (E.output, u) := by
  induction ps generalizing D v k fuel with
  | nil =>
    obtain ⟨fuel, rfl⟩ : ∃ f, fuel = f + 1 := ⟨fuel - 1, by simp at hf; omega⟩
    simp only [DecoderHost.readAll, Option.some.injEq] at hrun
    subst hrun
    simp only [List.nil_append] at hp hrem
    obtain ⟨p1, p2, -⟩ := hp
    simp only [pairBits] at hrem
    have hfit : stop.code.toNat < 2 ^ stop.width := by
      have := lt_two_pow_codeWidth D.next.toNat
      have := hr.1
      rw [startCode_toNat] at this
      rw [hs, hw, stopCode_toNat]; omega
    obtain ⟨e, -, -⟩ := unpackPair_at (v := acceptCommand (presentWord (encode .dGeta) v)) true hk hlen (by
      simp only [acceptCommand_d, presentWord_d]; omega) hfit p1 p2
    have he := exec_dGeta_active (s := acceptCommand (presentWord (encode .dGeta) v)) ha
    rw [acceptCommand_d, presentWord_d, hn, ← hw, e hs] at he
    have hi := issue_of_exec (s := v) (k := .stop) (data := pairData stop.width stop.code stop.sym) (by decide) he rfl
    exact ⟨_, by rw [decodeLoop, hi]; rfl⟩
  | cons q ps ih =>
    obtain ⟨fuel, rfl⟩ : ∃ f, fuel = f + 1 := ⟨fuel - 1, by simp at hf; omega⟩
    simp only [List.cons_append] at hp hrem
    obtain ⟨p1, p2, p3⟩ := hp
    simp only [pairBits] at hrem
    simp only [DecoderHost.readAll, Option.bind_eq_some_iff] at hrun
    obtain ⟨F, hF, hrun⟩ := hrun
    simp only [DecoderHost.read] at hF
    split at hF
    case isFalse => cases hF
    rename_i hq
    obtain ⟨qw, qlt, qns⟩ := hq
    simp only [Option.map_eq_some_iff] at hF
    obtain ⟨w, hw', rfl⟩ := hF
    have hfit : q.code.toNat < 2 ^ q.width := by
      have := lt_two_pow_codeWidth D.next.toNat
      rw [qw]; omega
    obtain ⟨-, e, cur⟩ := unpackPair_at (v := acceptCommand (presentWord (encode .dGeta) v)) true hk hlen (by
      simp only [acceptCommand_d, presentWord_d]; omega) hfit p1 p2
    have he := exec_dGeta_active (s := acceptCommand (presentWord (encode .dGeta) v)) ha
    rw [acceptCommand_d, presentWord_d, hn, ← qw,
      e qns (fun _ => by simp only [acceptCommand_d, presentWord_d, hn]; exact qlt)] at he
    have hi := issue_of_exec (s := v) (k := .ok) (data := pairData q.width q.code q.sym) (by decide) he rfl
    generalize hx : respond .ok (pairData q.width q.code q.sym)
      { acceptCommand (presentWord (encode .dGeta) v) with
        d := (acceptCommand (presentWord (encode .dGeta) v)).d.consumed q.width } = x at hi
    have xcfg : x.cfg = v.cfg := by rw [← hx]; rfl
    have xd : x.d = v.d.consumed q.width := by rw [← hx]; rfl
    have hadv : exec .dAdv (acceptCommand (presentWord (encode .dAdv) x)) =
        .next (advanceD (acceptCommand (presentWord (encode .dAdv) x))) := by
      refine congrArg _ (whenActive_d ?_ _)
      show x.d.state = _
      rw [xd]; exact ha
    have hia := issueOk_of_exec (s := x) (data := advData (counterFires v.cfg D.next) (counterAfter v.cfg D.next)) (by decide)
      hadv (by simp [advanceD, xcfg, xd, hn])
    generalize hy : advanceD (acceptCommand (presentWord (encode .dAdv) x)) = y at hia
    have ycfg : y.cfg = v.cfg := by rw [← hy]; simp [advanceD, xcfg]
    have yd : y.d = { v.d.consumed q.width with next := counterAfter v.cfg D.next, resets := y.d.resets } := by
      rw [← hy]; simp [advanceD, xcfg, xd, hn]
    obtain ⟨u, hu⟩ := ih (D.add v.cfg w q.sym) y (k + q.width + 8) fuel (by rw [ycfg]; exact hl) (by rw [yd]; exact ha)
      (by rw [yd]; rfl) (by rw [ycfg]; exact counterAfter_inRange hl hr) (by rw [yd]; exact cur) (by rw [yd]; exact hlen)
      (by rw [yd]; show _ ≤ 8 * v.d.src.length; omega) (by rw [ycfg, yd]; exact p3) (by rw [ycfg]; exact hrun)
      (by simp at hf; omega)
    refine ⟨u, ?_⟩
    rw [decodeLoop, hi]
    simp only [Option.bind_some, decodePair, pairCode_pairData, pairSym_pairData, hw', hia, Option.map_some,
      advFired_advData, advCounter_advData]
    exact hu

/-- The decoder on the bytes of a stream that holds `ps` and then a STOP pair. -/
theorem decodeStream_run (ps : List Pair) (stop : Pair) (bytes : List Byte) (hl : cfg.Legal) (hlen : bytes.length < 2 ^ 61)
    (hrem : pairBits (ps ++ [stop]) ≤ 8 * bytes.length)
    (hp : PairsAt (streamBit cfg.bitPlacement bytes) 0 (ps ++ [stop]))
    (hrun : DecoderHost.readAll cfg ps DecoderHost.initial = some D) (hs : stop.code = stopCode)
    (hw : stop.width = codeWidth D.next.toNat) : decodeStream cfg bytes = some D.output := by
  have he : exec .dInit (acceptCommand (presentWord (encode .dInit) (State.start cfg [] [bytes]))) =
      .next (openD bytes (acceptCommand (presentWord (encode .dInit) (State.start cfg [] [bytes])))) := by
    show execDInit _ = _
    exact if_pos hlen
  have hi := issueOk_of_exec (data := 0) (by decide) he rfl
  generalize hx : openD bytes (acceptCommand (presentWord (encode .dInit) (State.start cfg [] [bytes]))) = x at hi
  have xcfg : x.cfg = cfg := by rw [← hx]; rfl
  have xd : x.d = DChannel.opened bytes := by rw [← hx]; rfl
  have hcount : 9 * ps.length ≤ pairBits ps := by
    clear hp hrem hl
    generalize DecoderHost.initial = D0 at hrun
    induction ps generalizing D0 with
    | nil => simp
    | cons q ps ih =>
      simp only [DecoderHost.readAll, Option.bind_eq_some_iff] at hrun
      obtain ⟨F, hF, hrun⟩ := hrun
      have := ih F hrun
      simp only [DecoderHost.read] at hF
      split at hF
      · rename_i hq
        have := codeWidth_pos D0.next.toNat
        simp only [List.length_cons, pairBits, hq.1]; omega
      · cases hF
  rw [pairBits_append] at hrem
  obtain ⟨u, hu⟩ := decodeLoop_run ps stop DecoderHost.initial D x 0 (8 * bytes.length + 1) (by rw [xcfg]; exact hl)
    (by rw [xd]; rfl) (by rw [xd]; rfl) (by rw [xcfg]; exact counterInRange_start hl) (by rw [xd]; rfl)
    (by rw [xd]; show 8 * bytes.length < _; omega) (by rw [xd, pairBits_append]; show _ ≤ 8 * bytes.length; omega)
    (by rw [xcfg, xd]; exact hp) (by rw [xcfg]; exact hrun) hs hw (by omega)
  simp only [decodeStream, hi, Option.bind_some, hu, Option.map_some]

/-! ### The encoder's channel -/

/-- Channel E has packed `ps` on its stream, and its counter stands at `next`. -/
structure Packed (cfg : Config) (s : State) (ps : List Pair) (next : Code) : Prop where
  config : s.cfg = cfg
  active : s.e.state = .active
  stream : StreamOk cfg.bitPlacement s.e
  cursor : s.e.cursor.toNat = pairBits ps
  pairs : PairsAt (s.e.bit cfg.bitPlacement) 0 ps
  counter : s.e.next = next
  range : counterInRange cfg next
  short : pairBits ps ≤ 24 * ps.length

/-- E.PUTA of a code below the counter, issued. -/
theorem issue_puta {n : Code} {c : Code} (y : Byte) (hp : Packed cfg s ps n) (hc : c.toNat < n.toNat)
    (room : pairBits ps + 24 < 2 ^ 64) :
    ∃ t d, issueOk (.ePuta c y) s = some (d, t) ∧ Packed cfg t (ps ++ [⟨c, y, codeWidth n.toNat⟩]) n := by
  have hw := codeWidth_code_le n
  obtain ⟨rfl, ha, ok, cur, hat, rfl, hr, hsh⟩ := hp
  generalize hs1 : acceptCommand (presentWord (encode (.ePuta c y)) s) = s1
  have cfg1 : s1.cfg = s.cfg := by rw [← hs1]; rfl
  have e1 : s1.e = s.e := by rw [← hs1]; rfl
  obtain ⟨c', e, hst, hnx, ok', cur', new1, new2, old⟩ := packPair_step (s := s1) (code := c) (sym := y)
    (width := codeWidth s.e.next.toNat) (by rw [cfg1, e1]; exact ok) (by rw [e1]; omega)
  have he := exec_ePuta_active (s := s1) y (by rw [e1]; exact ha) (by rw [e1]; exact hc)
  rw [e1, e, ← hs1] at he
  have hi := issueOk_of_exec (s := s) (decode_ePuta c y) he rfl
  refine ⟨_, _, hi, ?_⟩
  rw [cfg1, e1] at *
  refine ⟨cfg1, hst.trans ha, ok', by rw [pairBits_append]; show c'.cursor.toNat = _; rw [cur', cur]; simp only [pairBits]; omega,
    ?_, hnx, hr, by rw [pairBits_append, List.length_append, List.length_singleton]; simp only [pairBits]; omega⟩
  rw [PairsAt_append]
  rw [cur] at new1 new2 old
  refine ⟨PairsAt_congr (fun j hj => old j (by omega)) hat, ?_, ?_, trivial⟩
  · intro i hi; rw [Nat.zero_add]; exact new1 i hi
  · intro i hi; rw [Nat.zero_add]; exact new2 i hi

/-- E.ADV, issued. -/
theorem issue_adv {n : Code} (hl : cfg.Legal) (hp : Packed cfg s ps n) :
    ∃ t, issueOk .eAdv s = some (advData (counterFires cfg n) (counterAfter cfg n), t) ∧
      Packed cfg t ps (counterAfter cfg n) := by
  obtain ⟨rfl, ha, ok, cur, hat, rfl, hr, hsh⟩ := hp
  have he : exec .eAdv (acceptCommand (presentWord (encode .eAdv) s)) =
      .next (advanceE (acceptCommand (presentWord (encode .eAdv) s))) :=
    congrArg _ (whenActive_e (s := acceptCommand (presentWord (encode .eAdv) s)) ha _)
  refine ⟨_, issueOk_of_exec (by decide) he (by simp [advanceE]), ?_⟩
  generalize hx : advanceE (acceptCommand (presentWord (encode .eAdv) s)) = x
  have xcfg : x.cfg = s.cfg := by rw [← hx]; simp [advanceE]
  have xe : x.e = { s.e with next := counterAfter s.cfg s.e.next, resets := x.e.resets } := by rw [← hx]; simp [advanceE]
  refine ⟨xcfg, by rw [xe]; exact ha, by rw [xe]; exact ⟨ok.cursor, ok.acc⟩, by rw [xe]; exact cur, ?_, by rw [xe],
    counterAfter_inRange hl hr, hsh⟩
  rw [xe]; exact hat

/-- A data pair and its E.ADV, issued. -/
theorem issue_pair {n : Code} {c : Code} (y : Byte) (hl : cfg.Legal) (hp : Packed cfg s ps n) (hc : c.toNat < n.toNat)
    (room : pairBits ps + 24 < 2 ^ 64) :
    ∃ t1 t2 d, issueOk (.ePuta c y) s = some (d, t1) ∧
      issueOk .eAdv t1 = some (advData (counterFires cfg n) (counterAfter cfg n), t2) ∧
      Packed cfg t2 (ps ++ [⟨c, y, codeWidth n.toNat⟩]) (counterAfter cfg n) := by
  obtain ⟨t1, d, h1, p1⟩ := issue_puta y hp hc room
  obtain ⟨t2, h2, p2⟩ := issue_adv hl p1
  exact ⟨t1, t2, d, h1, h2, p2⟩

/-- The STOP pair and the flush, issued: the bytes of the finished stream. -/
theorem encodeEnd_run {n : Code} (hp : Packed cfg s ps n) (room : pairBits ps + 32 < 2 ^ 64) :
    ∃ t, encodeEnd s = some t ∧ 8 * t.e.out.length < pairBits ps + 32 ∧
      pairBits (ps ++ [⟨stopCode, 0, codeWidth n.toNat⟩]) ≤ 8 * t.e.out.length ∧
      PairsAt (streamBit cfg.bitPlacement t.e.out) 0 (ps ++ [⟨stopCode, 0, codeWidth n.toNat⟩]) := by
  have hw := codeWidth_code_le n
  have hn := hp.range.1
  obtain ⟨t, d, h1, p⟩ := issue_puta (c := stopCode) 0 hp (by
    rw [startCode_toNat] at hn
    rw [stopCode_toNat]; omega)
    (by omega)
  obtain ⟨rfl, ha, ok, cur, hat, -, -, -⟩ := p
  have hpb : pairBits (ps ++ [⟨stopCode, 0, codeWidth n.toNat⟩]) = pairBits ps + (codeWidth n.toNat + 8) := by
    rw [pairBits_append]; simp [pairBits]
  have hpad := padBits_lt t.e
  obtain ⟨c, hf, hlen, hb⟩ := flush_run (acceptCommand (presentWord (encode .eFlush) t)) ok ha
    (by simp only [acceptCommand_e, presentWord_e]; omega)
  simp only [acceptCommand_e, presentWord_e, acceptCommand_cfg, presentWord_cfg] at hlen hb
  have hi := issueOk_of_exec (by decide) hf rfl
  generalize hx : respond .ok (padData (acceptCommand (presentWord (encode .eFlush) t)).e.padBits)
    { acceptCommand (presentWord (encode .eFlush) t) with e := c } = x at hi
  have xe : x.e = c := by rw [← hx]; rfl
  refine ⟨x, by simp only [encodeEnd, h1, Option.bind_some, hi, Option.map_some], ?_, ?_, ?_⟩
  · rw [xe]; omega
  · rw [xe]; omega
  · rw [xe]; exact PairsAt_congr (fun j hj => hb j (by omega)) hat

/-! ### The encoder's trie and the decoder's table -/

/-- The encoder `h` and a decoder `D` that has read the pairs the encoder has packed: their counters agree, and every node of the
trie spells the word the table holds at its code (R160). -/
structure Matched (h : EncoderHost) (D : DecoderHost) : Prop where
  next : D.next = h.next
  fresh : ∀ x ∈ D.table, x.1.toNat < h.next.toNat
  trie : ∀ x ∈ h.trie, x.child ≠ stopCode ∧ x.child.toNat < h.next.toNat ∧
    ∃ w, tableWord D.table x.parent = some w ∧ tableWord D.table x.child = some (w ++ [x.sym])
  node : h.cur ≠ stopCode ∧ h.cur.toNat < h.next.toNat
  word : ∃ w, tableWord D.table h.cur = some w
  root : h.reachedBy = none → h.cur = emptyCode
  edge : ∀ p y, h.reachedBy = some (p, y) → p ≠ stopCode ∧ p.toNat < h.next.toNat ∧
    ∃ w, tableWord D.table p = some w ∧ tableWord D.table h.cur = some (w ++ [y])

theorem tableWord_empty (T : List (Code × List Byte)) : tableWord T emptyCode = some [] := by simp [tableWord]

theorem matched_initial : Matched EncoderHost.initial DecoderHost.initial where
  next := rfl
  fresh := by simp [DecoderHost.initial]
  trie := by simp [EncoderHost.initial]
  node := by decide
  word := ⟨[], tableWord_empty _⟩
  root := fun _ => rfl
  edge := by simp [EncoderHost.initial]

/-- A hit moves the encoder to the child. -/
theorem matched_hit {sym : Byte} {child : Code} (m : Matched h D) (hc : trieChild h.trie h.cur sym = some child) :
    Matched { h with cur := child, reachedBy := some (h.cur, sym) } D ∧
      ∃ w, tableWord D.table h.cur = some w ∧ tableWord D.table child = some (w ++ [sym]) := by
  simp only [trieChild, Option.map_eq_some_iff] at hc
  obtain ⟨x, hx, rfl⟩ := hc
  have hmem := List.mem_of_find?_eq_some hx
  have hp := List.find?_some hx
  simp only [decide_eq_true_eq] at hp
  obtain ⟨h1, h2, w, h3, h4⟩ := m.trie x hmem
  rw [hp.1] at h3
  rw [hp.2] at h4
  refine ⟨⟨m.next, m.fresh, m.trie, ⟨h1, h2⟩, ⟨_, h4⟩, by simp, ?_⟩, w, h3, h4⟩
  intro p y he
  simp only [Option.some.injEq, Prod.mk.injEq] at he
  obtain ⟨rfl, rfl⟩ := he
  exact ⟨m.node.1, m.node.2, w, h3, h4⟩

/-- A miss adds the new entry on both sides, or resets both. -/
theorem matched_miss {sym : Byte} {w : List Byte} (hl : cfg.Legal) (hr : counterInRange cfg h.next) (m : Matched h D)
    (hw : tableWord D.table h.cur = some w) :
    Matched
      { trie := if counterFires cfg h.next then [] else h.trie ++ [{ parent := h.cur, sym := sym, child := h.next }]
        cur := emptyCode, reachedBy := none, next := counterAfter cfg h.next } (D.add cfg w sym) := by
  have hn := m.next
  have h0 := (counterAfter_inRange hl hr).1
  have hpos : 0 < (counterAfter cfg h.next).toNat := by
    rw [startCode_toNat] at h0; omega
  have h2 := hr.1
  rw [startCode_toNat] at h2
  by_cases hf : counterFires cfg h.next = true
  · exact {
      next := by simp [DecoderHost.add, hn]
      fresh := by simp [DecoderHost.add, hn, hf]
      trie := by simp [hf]
      node := ⟨by simp [emptyCode, stopCode], by simpa [emptyCode] using hpos⟩
      word := ⟨[], tableWord_empty _⟩
      root := fun _ => rfl
      edge := by simp }
  · have hne : h.next.toNat + 1 ≠ cfg.maxCode := fun e => hf ((counterFires_iff _ _).mpr e)
    have hca := counterAfter_toNat hl hr hne
    have htab : (D.add cfg w sym).table = D.table ++ [(h.next, w ++ [sym])] := by simp [DecoderHost.add, hn, hf]
    have hnew : tableWord (D.table ++ [(h.next, w ++ [sym])]) h.next = some (w ++ [sym]) := by
      refine tableWord_new _ (fun e => ?_) (fun x hx e => ?_)
      · have := congrArg BitVec.toNat e
        rw [emptyCode_toNat] at this; omega
      · have := m.fresh x hx
        rw [e] at this; omega
    exact {
      next := by simp [DecoderHost.add, hn]
      fresh := by
        rw [htab]
        intro x hx
        simp only [List.mem_append, List.mem_singleton] at hx
        rw [hca]
        rcases hx with hx | rfl
        · have := m.fresh x hx; omega
        · simp
      trie := by
        rw [htab]
        intro x hx
        simp only [hf, Bool.false_eq_true, if_false, List.mem_append, List.mem_singleton] at hx
        rw [hca]
        rcases hx with hx | rfl
        · obtain ⟨a, b, w', c, d⟩ := m.trie x hx
          exact ⟨a, Nat.lt_succ_of_lt b, w', tableWord_append _ c, tableWord_append _ d⟩
        · refine ⟨fun e => ?_, by simp, w, tableWord_append _ hw, hnew⟩
          have := congrArg BitVec.toNat (show h.next = stopCode from e)
          rw [stopCode_toNat] at this; omega
      node := ⟨by simp [emptyCode, stopCode], by simpa [emptyCode] using hpos⟩
      word := ⟨[], tableWord_empty _⟩
      root := fun _ => rfl
      edge := by simp }

/-- The decoder reads a pair of a code it knows. -/
theorem read_pair {c : Code} {y : Byte} {w : List Byte} (hn : c ≠ stopCode) (hlt : c.toNat < D.next.toNat)
    (hw : tableWord D.table c = some w) : D.read cfg ⟨c, y, codeWidth D.next.toNat⟩ = some (D.add cfg w y) := by
  simp [DecoderHost.read, hn, hlt, hw]

/-- One input symbol: the encoder goes on, a decoder of its pairs stays matched, and the decoder's output and the pending match
together have grown by the symbol. -/
theorem encodeSymbol_run {sym : Byte} {w : List Byte} (hl : cfg.Legal) (hp : Packed cfg s ps h.next) (m : Matched h D)
    (hrun : DecoderHost.readAll cfg ps DecoderHost.initial = some D) (hw : tableWord D.table h.cur = some w)
    (room : 24 * ps.length + 24 < 2 ^ 64) :
    ∃ h' t qs E w', encodeSymbol sym h s = some (h', t) ∧ Packed cfg t qs h'.next ∧ Matched h' E ∧
      DecoderHost.readAll cfg qs DecoderHost.initial = some E ∧ tableWord E.table h'.cur = some w' ∧
      qs.length ≤ ps.length + 1 ∧ E.output ++ w' = D.output ++ w ++ [sym] := by
  unfold encodeSymbol
  cases hc : trieChild h.trie h.cur sym with
  | some child =>
    obtain ⟨m', w2, hw2, hw3⟩ := matched_hit m hc
    rw [hw] at hw2
    cases hw2
    exact ⟨_, _, ps, D, _, rfl, hp, m', hrun, hw3, by omega, by simp⟩
  | none =>
    have hsh := hp.short
    obtain ⟨t1, t2, d, h1, h2, p2⟩ := issue_pair sym hl hp m.node.2 (by omega)
    have hm := matched_miss (sym := sym) hl hp.range m hw
    refine ⟨_, t2, _, D.add cfg w sym, [], ?_, p2, hm, ?_, tableWord_empty _, by simp, ?_⟩
    · simp only [encodeMiss, h1, h2, Option.bind_some, Option.map_some, advFired_advData, advCounter_advData]
    · rw [readAll_snoc, hrun, Option.bind_some, ← m.next]
      exact read_pair m.node.1 (by rw [m.next]; exact m.node.2) hw
    · simp [DecoderHost.add]

/-- All the input symbols. -/
theorem encodeSymbols_run (input : List Byte) {w : List Byte} (hl : cfg.Legal) (hp : Packed cfg s ps h.next) (m : Matched h D)
    (hrun : DecoderHost.readAll cfg ps DecoderHost.initial = some D) (hw : tableWord D.table h.cur = some w)
    (room : 24 * (ps.length + input.length) < 2 ^ 64) :
    ∃ h' t qs E w', encodeSymbols input h s = some (h', t) ∧ Packed cfg t qs h'.next ∧ Matched h' E ∧
      DecoderHost.readAll cfg qs DecoderHost.initial = some E ∧ tableWord E.table h'.cur = some w' ∧
      qs.length ≤ ps.length + input.length ∧ E.output ++ w' = D.output ++ w ++ input := by
  induction input generalizing s h ps D w with
  | nil => exact ⟨h, s, ps, D, w, rfl, hp, m, hrun, hw, by simp, by simp⟩
  | cons sym rest ih =>
    simp only [List.length_cons] at room
    obtain ⟨h1, t1, qs, E, w1, e1, p1, m1, r1, hw1, l1, o1⟩ := encodeSymbol_run (sym := sym) hl hp m hrun hw (by omega)
    obtain ⟨h2, t2, qs2, E2, w2, e2, p2, m2, r2, hw2, l2, o2⟩ := ih p1 m1 r1 hw1 (by omega)
    refine ⟨h2, t2, qs2, E2, w2, by simp only [encodeSymbols, e1, Option.bind_some, e2], p2, m2, r2, hw2, ?_, ?_⟩
    · simp only [List.length_cons]; omega
    · rw [o2, o1]; simp

/-- The pending match. -/
theorem encodePending_run {w : List Byte} (hl : cfg.Legal) (hp : Packed cfg s ps h.next) (m : Matched h D)
    (hrun : DecoderHost.readAll cfg ps DecoderHost.initial = some D) (hw : tableWord D.table h.cur = some w)
    (room : 24 * ps.length + 24 < 2 ^ 64) :
    ∃ t qs E, encodePending h s = some t ∧ Packed cfg t qs E.next ∧
      DecoderHost.readAll cfg qs DecoderHost.initial = some E ∧ qs.length ≤ ps.length + 1 ∧ E.output = D.output ++ w := by
  unfold encodePending
  cases hr : h.reachedBy with
  | none =>
    rw [m.root hr, tableWord_empty] at hw
    cases hw
    exact ⟨s, ps, D, rfl, by rw [m.next]; exact hp, hrun, by omega, by simp⟩
  | some e =>
    obtain ⟨p, y⟩ := e
    obtain ⟨h1, h2, w', hw1, hw2⟩ := m.edge p y hr
    rw [hw] at hw2
    cases hw2
    have hsh := hp.short
    obtain ⟨t1, t2, d, i1, i2, p2⟩ := issue_pair y hl hp h2 (by omega)
    refine ⟨t2, ps ++ [⟨p, y, codeWidth h.next.toNat⟩], D.add cfg w' y, by simp only [i1, i2, Option.bind_some, Option.map_some], ?_, ?_, by simp, rfl⟩
    · show Packed cfg t2 _ (counterAfter cfg D.next)
      rw [m.next]; exact p2
    · rw [readAll_snoc, hrun, Option.bind_some, ← m.next]
      exact read_pair h1 (by rw [m.next]; exact h2) hw1

/-- The whole encoder: the bytes it emits hold data pairs from which a decoder makes the input, and then the STOP pair. -/
theorem encodeStream_run (input : List Byte) (hl : cfg.Legal) (room : input.length < 2 ^ 56) :
    ∃ bytes qs E, encodeStream cfg input = some bytes ∧ DecoderHost.readAll cfg qs DecoderHost.initial = some E ∧
      E.output = input ∧ bytes.length < 2 ^ 61 ∧
      pairBits (qs ++ [⟨stopCode, 0, codeWidth E.next.toNat⟩]) ≤ 8 * bytes.length ∧
      PairsAt (streamBit cfg.bitPlacement bytes) 0 (qs ++ [⟨stopCode, 0, codeWidth E.next.toNat⟩]) := by
  have hi := issueOk_of_exec (i := .eInit) (s := State.start cfg [] []) (data := 0) (by decide) rfl rfl
  generalize hx : openE (acceptCommand (presentWord (encode .eInit) (State.start cfg [] []))) = x at hi
  have hp : Packed cfg x [] EncoderHost.initial.next := by
    rw [← hx]
    exact ⟨rfl, rfl, streamOk_empty _ rfl rfl rfl, rfl, trivial, rfl, counterInRange_start hl, by simp [pairBits]⟩
  obtain ⟨h1, t1, ps1, D1, w1, e1, p1, m1, r1, hw1, l1, o1⟩ :=
    encodeSymbols_run input hl hp matched_initial rfl (tableWord_empty _) (by simp; omega)
  simp only [List.length_nil] at l1
  obtain ⟨t2, ps2, D2, e2, p2, r2, l2, o2⟩ := encodePending_run hl p1 m1 r1 hw1 (by omega)
  have hsh := p2.short
  obtain ⟨t3, e3, hlen, hrem, hat⟩ := encodeEnd_run p2 (by omega)
  refine ⟨t3.e.out, ps2, D2, ?_, r2, by rw [o2, o1]; simp [DecoderHost.initial], by omega, hrem, hat⟩
  simp only [encodeStream, encodeOn, hi, Option.bind_some, e1, e2, e3, Option.map_some]

end Sys2Proof.Machine
end

