-- ==== Sys2Proof/Laws/Registers.lean ====
section
/-! SUPPORT. The words RD reads, as numbers (spec/44_register_access.md R171); the commands an assembler makes are well formed
(spec/30_encoding.md R84); and the operations of channel E do not depend on channel D (spec/10_state.md R21). -/

namespace Sys2Proof.Machine

open Sys2Proof.Spec

/-! ### The register words -/

theorem eStatusWord_eq (c : EChannel) :
    eStatusWord c = BitVec.ofNat 32 (codeOfState c.state + 2 ^ 8 * (c.cause.elim 0 codeOfCause)) := by
  unfold eStatusWord
  rcases c.state <;> rcases c.cause with _ | x <;> first | rfl | (cases x <;> rfl)

theorem dStatusWord_eq (c : DChannel) :
    dStatusWord c = BitVec.ofNat 32
      (codeOfState c.state + 2 ^ 2 * codeOfReason c.reason + 2 ^ 8 * (c.cause.elim 0 codeOfCause)) := by
  unfold dStatusWord
  rcases c.state <;> rcases c.reason <;> rcases c.cause with _ | x <;> first | rfl | (cases x <;> rfl)

theorem codeWord_eq (n : Code) : (0#16 ++ n : Word) = BitVec.ofNat 32 n.toNat := by
  apply BitVec.eq_of_toNat_eq
  have := n.isLt
  simp only [BitVec.toNat_append, BitVec.toNat_ofNat]
  simp
  omega

theorem cursorLow_eq (c : BitVec 64) : c.extractLsb' 0 32 = BitVec.ofNat 32 (c.toNat % 2 ^ 32) := by
  apply BitVec.eq_of_toNat_eq; simp

theorem cursorHigh_eq (c : BitVec 64) : c.extractLsb' 32 32 = BitVec.ofNat 32 (c.toNat / 2 ^ 32) := by
  apply BitVec.eq_of_toNat_eq; simp [Nat.shiftRight_eq_div_pow]

theorem eAccWord_eq (c : EChannel) : eAccWord c = BitVec.ofNat 32 (c.acc.toNat + 2 ^ 8 * (c.cursor.toNat % 8)) := by
  apply BitVec.eq_of_toNat_eq
  have := c.acc.isLt
  simp only [eAccWord, BitVec.toNat_append, BitVec.toNat_ofNat]
  rw [← Nat.shiftLeft_add_eq_or_of_lt this, ← Nat.shiftLeft_add_eq_or_of_lt (by exact BitVec.isLt _)]
  simp [Nat.shiftLeft_eq]
  omega

theorem paramWord_eq {cfg : Config} (h : cfg.Legal) :
    paramWord cfg = BitVec.ofNat 32 (cfg.maxCode + if cfg.bitPlacement = .msb0 then 2 ^ 17 else 0) := by
  apply BitVec.eq_of_toNat_eq
  have := h.2
  simp only [paramWord, BitVec.toNat_append, BitVec.toNat_ofNat]
  rw [← Nat.shiftLeft_add_eq_or_of_lt (by omega), ← Nat.shiftLeft_add_eq_or_of_lt (BitVec.isLt _)]
  rcases hp : cfg.bitPlacement <;> simp [Nat.shiftLeft_eq, placementCode] <;> omega

/-! ### The assembler -/

theorem widthOperand_legal {v : Option Nat} {w : Nat} (h : widthOperand v = some w) : legalWidth w := by
  simp only [widthOperand, Option.bind_eq_some_iff] at h
  obtain ⟨n, _, h⟩ := h
  split at h
  · cases h; assumption
  · cases h

/-- The commands of a line are well formed (R84). -/
theorem commandsOf_wellFormed {m : Mnemonic} {operands : List (List Char)} {is : List Instr}
    (h : commandsOf m operands = some is) : ∀ i ∈ is, i.WellFormed := by
  unfold commandsOf at h
  split at h
  case h_3 =>
    simp only [Option.bind_eq_some_iff, Option.map_eq_some_iff] at h
    obtain ⟨c, _, w, hw, rfl⟩ := h
    intro i hi
    simp only [List.mem_singleton] at hi
    subst hi
    simpa [Instr.WellFormed, Instr.wellFormed] using widthOperand_legal hw
  case h_10 =>
    simp only [Option.map_eq_some_iff] at h
    obtain ⟨w, hw, rfl⟩ := h
    intro i hi
    simp only [List.mem_singleton] at hi
    subst hi
    simpa [Instr.WellFormed, Instr.wellFormed] using widthOperand_legal hw
  all_goals
    simp only [Option.map_eq_some_iff, Option.some.injEq, reduceCtorEq] at h
    try obtain ⟨_, _, rfl⟩ := h
    try subst h
    try simp [Instr.WellFormed, Instr.wellFormed, pseudoNop, pseudoEmit, pseudoEnd, pseudoStop]

/-! ### Channel E without channel D -/

theorem packPair_withD (code : Code) (sym : Byte) (width : Nat) (s : State) (d' : DChannel) :
    packPair code sym width { s with d := d' } = { packPair code sym width s with d := d' } := by
  rcases packPair_cases code sym width s with ⟨h, e⟩ | ⟨h, e⟩
  · rw [e]; exact packPair_overflow (s := { s with d := d' }) h
  · rw [e]
    refine (packPair_room (s := { s with d := d' }) h).trans ?_
    dsimp only
    generalize appendPair _ _ _ _ _ = c
    rfl

theorem flushE_withD (s : State) (d' : DChannel) : flushE { s with d := d' } = { flushE s with d := d' } := by
  rcases flushE_cases s with ⟨h, e⟩ | ⟨h, e⟩
  · rw [e]; exact flushE_overflow (s := { s with d := d' }) h
  · rw [e]
    refine (flushE_room (s := { s with d := d' }) h).trans ?_
    dsimp only
    generalize appendBits _ _ _ _ = c
    rfl

end Sys2Proof.Machine
end

