-- ==== Sys2Proof/Tests/Slice0.lean ====
section
/-! SUPPORT. The model's own tests: words written out from the encodings, ill-formed commands, single steps with the responses and
states of spec/95_test_vectors.md (the vector is named beside each), and for every statement with hypotheses a concrete state and
operands that meet them all. -/

namespace Sys2Proof.Tests

open Sys2Proof Sys2Proof.Machine Sys2Proof.Spec

/-! ### Small states -/

/-- A legal configuration with the LSB0 placement. -/
def cfg (maxCode : Nat) : Config := { maxCode := maxCode, bitPlacement := .lsb0 }

/-- A block whose channel E has just been opened. -/
def eOpen (maxCode : Nat) : State := { State.start (cfg maxCode) [] [] with e := EChannel.opened }

/-- A block whose channel D has just been opened on `src`. -/
def dOpen (maxCode : Nat) (src : List Byte) : State := { State.start (cfg maxCode) [] [] with d := DChannel.opened src }

/-- Channel E after `E.INIT; E.PUT 3, 'A', 2` (vector K4). -/
def eMid : State :=
  { eOpen 65535 with e := { EChannel.opened with cursor := 10, acc := 0x01, out := [0x07] } }

/-- A block whose two channels are in the same state. -/
def bothIn (st : ChanState) : State :=
  { State.start (cfg 65535) [] [] with
    e := { EChannel.reset with state := st }
    d := { DChannel.reset with state := st } }

/-- The state after one command word. -/
def after (w : Word) (s : State) : Option State :=
  match step (s.withFetchWord 32 w.toNat) with
  | .next t => some t
  | .fault _ => none
  | .refused _ => none

/-- The response to one command word, as `(rkind, rdata)`. -/
def reply (w : Word) (s : State) : Option (Nat × Nat) :=
  (after w s).bind fun t => t.ports.responses.getLast?.map fun r => ((rkindCode r.rkind).toNat, r.rdata.toNat)

/-! ### Ill-formed commands -/

theorem test_wellFormed_refuses_put_width_zero : (Instr.ePut 0 0 0).wellFormed = false := by decide
theorem test_wellFormed_refuses_put_width_seventeen : (Instr.ePut 0 0 17).wellFormed = false := by decide
theorem test_wellFormed_refuses_get_width_zero : (Instr.dGet 0).wellFormed = false := by decide
theorem test_wellFormed_refuses_get_width_seventeen : (Instr.dGet 17).wellFormed = false := by decide

/-! ### Decoding: words written out bit by bit from spec/30_encoding.md R70 and R73 (op, wf, code, sym) -/

theorem test_decode_width :
    decode 0b0000_0000_0001001000110100_00000000 = .command (.wcalc 0x1234) ∧
    decode 0b0110_0000_0000000000000000_00000000 = .command .eWidth ∧
    decode 0b1110_0000_0000000000000000_00000000 = .command .dWidth := by decide

theorem test_decode_pack :
    decode 0b0001_0000_0000000000000000_00000000 = .command .eInit ∧
    decode 0b0010_1000_0000000101010101_11000011 = .command (.ePut 0x155 0xC3 9) ∧
    decode 0b0011_0000_0000000000000010_01100001 = .command (.ePuta 2 0x61) ∧
    decode 0b0101_0000_0000000000000000_00000000 = .command .eFlush := by decide

theorem test_decode_unpack :
    decode 0b1001_0000_0000000000000000_00000000 = .command .dInit ∧
    decode 0b1010_1111_0000000000000000_00000000 = .command (.dGet 16) ∧
    decode 0b1011_0000_0000000000000000_00000000 = .command .dGeta := by decide

theorem test_decode_arbiter :
    decode 0b0100_0000_0000000000000000_00000000 = .command .eAdv ∧
    decode 0b1100_0000_0000000000000000_00000000 = .command .dAdv := by decide

theorem test_decode_register : decode 0b1000_0000_0000000000000000_00001101 = .command (.rd 0x0D) := by decide

/-- Vectors G8 and G7. -/
theorem test_decode_rejects :
    decode 0x70000000 = .illegalCommand ∧ decode 0xD0000000 = .illegalCommand ∧ decode 0xF0000000 = .illegalCommand ∧
    decode 0x81000000 = .reservedField 8 ∧ decode 0x80000100 = .reservedField 8 := by decide

theorem test_decodeTableWord :
    decodeTableWord 32 0xA1000000 = some (.dGet 2) ∧ decodeTableWord 32 0x70000000 = none := by decide

/-! ### One step, by vector -/

/-- Vectors S1 (n = 0, 8, 15) and W6. -/
theorem test_wcalc :
    reply 0x00000000 State.reset = some (0, 1) ∧ reply 0x00000800 State.reset = some (0, 4) ∧
    reply 0x00000F00 State.reset = some (0, 4) ∧ reply 0x00FFFF00 State.reset = some (0, 16) := by decide

/-- Vector W7. -/
theorem test_wcalc_reserved :
    (after 0x00000501 State.reset).map (fun t => (eStatusWord t.e, dStatusWord t.d)) = some (0, 0) ∧
    reply 0x00000501 State.reset = some (3, 2) := by decide

/-- Vectors W10 and W9. -/
theorem test_eWidth :
    reply 0x60000000 (eOpen 65535) = some (0, 2) ∧ reply 0x60000000 State.reset = some (3, 3) ∧
    (after 0x60000000 State.reset).map (fun t => eStatusWord t.e) = some 0x00000303 := by decide

/-- Vector W12: W(5) = 3. -/
theorem test_dWidth :
    reply 0xE0000000 { dOpen 65535 [] with d := { DChannel.opened [] with next := 5 } } = some (0, 3) := by decide

/-- Vector K8: the partial byte is discarded, the emitted byte stays with the host. -/
theorem test_eInit :
    reply 0x10000000 eMid = some (0, 0) ∧
    (after 0x10000000 eMid).map (fun t => (t.e.out, eAccWord t.e, t.e.cursor, t.outPort)) = some ([], 0, 0, [0x07]) := by
  decide

/-- Vector K7. -/
theorem test_ePut :
    reply 0x280155C3 (eOpen 65535) = some (0, 0x090155C3) ∧
    (after 0x280155C3 (eOpen 65535)).map (fun t => (t.e.out, eAccWord t.e)) = some ([0x55, 0x87], 0x00000101) := by decide

/-- Vectors K2, K5, K6 (at MAX_CODE 65536) and K1. -/
theorem test_ePut_faults :
    reply 0x21000441 (eOpen 65535) = some (3, 4) ∧ reply 0x2FFFFF00 (eOpen 65535) = some (3, 5) ∧
    reply 0x2FFFFFFF (eOpen 65536) = some (0, 0x10FFFFFF) ∧ reply 0x21000041 State.reset = some (3, 3) := by decide

/-- Vectors K12 and K17. -/
theorem test_ePuta :
    (after 0x30000061 (eOpen 65535)).map (fun t => (t.e.out, t.e.acc, t.e.cursor)) = some ([0x84], 0x01, 10) ∧
    reply 0x30000000 { eOpen 65535 with e := { EChannel.opened with cursor := 0xFFFFFFFFFFFFFFF5 } } =
      some (0, 0x02000000) := by decide

/-- Vectors K9 and K16. -/
theorem test_ePuta_faults :
    reply 0x30000241 (eOpen 65535) = some (3, 6) ∧
    reply 0x30000000 { eOpen 65535 with e := { EChannel.opened with cursor := 0xFFFFFFFFFFFFFFF6 } } = some (3, 7) := by
  decide

/-- Vectors A1 and A3. -/
theorem test_eAdv :
    reply 0x40000000 (eOpen 4) = some (0, 3) ∧
    reply 0x40000000 { eOpen 65535 with e := { EChannel.opened with next := 65534 } } = some (0, 0x00010002) ∧
    (after 0x40000000 { eOpen 65535 with e := { EChannel.opened with next := 65534 } }).map
      (fun t => (t.e.next, t.e.resets, t.ports.pulses)) = some (2, 1, [.e]) := by decide

/-- Vector A5. -/
theorem test_eAdv_reserved :
    (after 0x40000500 (eOpen 65535)).map (fun t => (eStatusWord t.e, t.e.next)) = some (0x00000203, 2) := by decide

/-- Vectors K13 and K15 (the same pad of 6 after 10 stream bits). -/
theorem test_eFlush :
    reply 0x50000000 (eOpen 65535) = some (0, 0) ∧ reply 0x50000000 eMid = some (0, 6) ∧
    (after 0x50000000 eMid).map (fun t => (t.e.out, t.e.cursor, eStatusWord t.e)) = some ([0x07, 0x01], 16, 2) := by decide

/-- Vectors G1, G3, G5 and G6. -/
theorem test_rd :
    reply 0x80000000 State.reset = some (0, 0x4C5A3738) ∧
    reply 0x80000001 (State.start { maxCode := 4, bitPlacement := .msb0 } [] []) = some (0, 0x00020004) ∧
    reply 0x8000000A State.reset = some (0, 2) ∧ reply 0x8000000E State.reset = some (3, 8) := by decide

/-- Vector K7's register, on the state of vector K4: accumulator 01, fill 2. -/
theorem test_rd_eAcc : reply 0x80000006 eMid = some (0, 0x00000201) := by decide

/-- Vector U11, and D.INIT's binding (R131). -/
theorem test_dInit :
    (after 0x90000000 (State.start (cfg 65535) [] [[0x01, 0x00]])).map (fun t => (t.d.src, dStatusWord t.d, t.ports.deliveries)) =
      some ([0x01, 0x00], 1, []) ∧
    (after 0x92000000 (State.start (cfg 65535) [] [[0x01, 0x00]])).map (fun t => (t.d.src, dStatusWord t.d)) =
      some ([], 0x00000203) := by decide

/-- Vectors U2, U6, U7. -/
theorem test_dGet :
    reply 0xA1000000 (dOpen 65535 [0x03, 0x00]) = some (0, 0x02000300) ∧
    reply 0xA1000000 (dOpen 65535 [0x05, 0xFC]) = some (1, 0x02000101) ∧
    reply 0xA8000000 (dOpen 65535 [0x01, 0x00]) = some (2, 16) := by decide

/-- Vectors U5 and U10. -/
theorem test_dGet_state :
    (after 0xA1000000 (dOpen 65535 [0x01, 0x00])).map (fun t => (t.d.cursor, dStatusWord t.d)) = some (10, 0x06) ∧
    (after 0xA1000000 State.reset).map (fun t => dStatusWord t.d) = some 0x00000303 := by decide

/-- Vectors U1, U3 and U12. -/
theorem test_dGeta :
    reply 0xB0000000 (dOpen 65535 [0x03, 0x00]) = some (3, 6) ∧ reply 0xB0000000 (dOpen 65535 [0x00]) = some (2, 8) ∧
    reply 0xB0000000 (dOpen 65535 [0x84, 0x19]) = some (0, 0x02000061) := by decide

/-- Vector U3's last line: FAULTED, reason 2 kept, cause 3. -/
theorem test_dGeta_after_done :
    (after 0xB0000000 { dOpen 65535 [0x00] with d := (DChannel.opened [0x00]).ended .exhausted }).map
      (fun t => dStatusWord t.d) = some 0x0000030B := by decide

/-- Vectors A6 and W13 (at MAX_CODE 3 every advance fires). -/
theorem test_dAdv :
    reply 0xC0000000 (dOpen 65535 []) = some (0, 3) ∧ reply 0xC0000000 (dOpen 3 []) = some (0, 0x00010002) := by decide

/-- Vector S7 at offset 1 under MSB0: the stream after the prefix pair and `E.PUT 0x155, 0xC3, 9`. -/
theorem test_msb0 :
    (after 0x280155C3 { eOpen 65535 with
      cfg := { maxCode := 65535, bitPlacement := .msb0 }
      e := { EChannel.opened with cursor := 9, acc := 0x00, out := [0x00] } }).map (fun t => (t.e.out, t.e.acc, t.e.cursor)) =
    some ([0x00, 0x55, 0x70], 0xC0, 26) := by decide

/-- Program P1, and its bytes under MSB0. -/
theorem test_encode_empty :
    encodeStream (cfg 65535) [] = some [0x01, 0x00] ∧
    encodeStream { maxCode := 65535, bitPlacement := .msb0 } [] = some [0x80, 0x00] := by decide

/-- spec/30_encoding.md R84 and R85: an operand outside its range is refused, and a comment and a name are read. -/
theorem test_assembler :
    assembleLine ['E', '.', 'P', 'U', 'T', ' ', '0', 'x', '1', '5', '5', ',', '0', 'x', 'C', '3', ',', ' ', '9'] = some [0x280155C3] ∧
    assembleLine ['E', '.', 'P', 'U', 'T', ' ', '0', ',', '0', ',', '1', '7'] = none ∧
    assembleLine ['R', 'D', '\t', 'E', '_', 'A', 'C', 'C', ' ', ';', 'x'] = some [0x80000006] ∧
    assembleLine ['E', '.', 'P', 'U', 'T', 'A', ' ', '0', ',', '\'', ';', '\'', ';', ','] = some [0x3000003B] ∧
    assembleLine ['E', '.', 'P', 'U', 'T', 'A', ' ', '0', ',', '\'', ',', '\''] = some [0x3000002C] := by decide

/-! ### Witnesses: the hypotheses of each statement are met -/

theorem eOpen_inv : (eOpen 65535).Inv :=
  ⟨by decide, EChannel_opened_inv (by decide), DChannel_reset_inv (by decide)⟩

theorem eOpen_small_inv : (eOpen 3).Inv :=
  ⟨by decide, EChannel_opened_inv (by decide), DChannel_reset_inv (by decide)⟩

theorem dOpen_inv : (dOpen 65535 [0x03, 0x00]).Inv :=
  ⟨by decide, EChannel_reset_inv (by decide), DChannel_opened_inv (by decide) (by decide)⟩

theorem dOpen_small_inv : (dOpen 3 []).Inv :=
  ⟨by decide, EChannel_reset_inv (by decide), DChannel_opened_inv (by decide) (by decide)⟩

theorem eMid_inv : eMid.Inv :=
  ⟨by decide,
    { counter := by decide
      cursor := by decide
      acc := by
        intro j h1 h2
        have h1 : 2 ≤ j := h1
        have : j = 2 ∨ j = 3 ∨ j = 4 ∨ j = 5 ∨ j = 6 ∨ j = 7 := by omega
        rcases this with h | h | h | h | h | h <;> subst h <;> decide
      cause := by decide
      flushed := by decide },
    DChannel_reset_inv (by decide)⟩

/-- Channel E one pair of width 1 short of the cursor's last value: 2^64 - 10 stream bits. -/
def eLate (out : List Byte) : State :=
  { eOpen 65535 with e := { EChannel.opened with cursor := 0xFFFFFFFFFFFFFFF6, out := out } }

theorem exists_bytes (n : Nat) : ∃ out : List Byte, out.length = n := ⟨List.replicate n 0, List.length_replicate⟩

/-- It meets the invariant when it has emitted its 2^61 - 2 bytes. -/
theorem eLate_inv {out : List Byte} (h : out.length = 2 ^ 61 - 2) : (eLate out).Inv :=
  ⟨by show (cfg 65535).Legal; decide,
    { counter := (EChannel_opened_inv (cfg := cfg 65535) (by decide)).counter
      cursor := by
        show (0xFFFFFFFFFFFFFFF6 : BitVec 64).toNat = 8 * out.length + (0xFFFFFFFFFFFFFFF6 : BitVec 64).toNat % 8
        rw [h]; decide
      acc := fun j _ _ => BitVec.getLsbD_zero
      cause := (EChannel_opened_inv (cfg := cfg 65535) (by decide)).cause
      flushed := fun h => by cases h },
    DChannel_reset_inv (cfg := cfg 65535) (by decide)⟩

theorem witness_EncodeThenDecodeReturnsTheCommand :
    (Instr.ePut 0xFFFF 0xFF 16).WellFormed ∧ (Instr.ePut 0 0 1).WellFormed ∧ (Instr.dGet 16).WellFormed := by decide

theorem witness_DecodedCommandEncodesToItsWord : decode 0xAF000000 = .command (.dGet 16) := by decide

theorem witness_DecodingFollowsTheOpcodeMap :
    opOf 0x7FFFFFFF = 0x7 ∧ opOf 0xD0000000 = 0xD ∧ opOf 0xF0000000 = 0xF ∧
    (∃ r ∈ opcodeMap, opOf 0x33000100 = r.op ∧ reservedSet r 0x33000100) ∧
    (∃ r ∈ opcodeMap, opOf 0x21000441 = r.op ∧ ¬ reservedSet r 0x21000441) := by
  refine ⟨by decide, by decide, by decide, ?_, ?_⟩
  · exact ⟨_, .tail _ (.tail _ (.tail _ (.head _))), by decide, .inl ⟨rfl, by decide⟩⟩
  · exact ⟨_, .tail _ (.tail _ (.head _)), by decide, by simp [reservedSet]⟩

theorem witness_StepRunsTheDecodedCommand :
    (State.start (cfg 65535) [.command 0x40000000] []).ports.pending = [.command 0x40000000] ∧
    decode 0x40000000 = .command .eAdv := by decide

theorem witness_NoMoveHoldsTheState : State.reset.ports.pending = [] := by decide

theorem witness_ReservedOpcodeOnlyAnswers :
    (State.start (cfg 3) [.command 0x7FFFFFFF] []).ports.pending = [.command 0x7FFFFFFF] ∧ opOf 0x7FFFFFFF = 0x7 ∧
    opOf 0xD0000000 = 0xD ∧ opOf 0xF0000000 = 0xF := by decide

/-- One word for each of the three outcomes: WCALC names no channel, E.INIT names E, D.INIT names D (vectors W7, U11). -/
theorem witness_ReservedFieldFaultsFirst :
    (∃ r ∈ opcodeMap, opOf 0x00000501 = r.op ∧ reservedSet r 0x00000501 ∧ r.channel = none) ∧
    (∃ r ∈ opcodeMap, opOf 0x10000001 = r.op ∧ reservedSet r 0x10000001 ∧ r.channel = some .e) ∧
    (∃ r ∈ opcodeMap, opOf 0x92000000 = r.op ∧ reservedSet r 0x92000000 ∧ r.channel = some .d) := by
  refine ⟨?_, ?_, ?_⟩
  · exact ⟨_, .head _, by decide, .inr (.inr ⟨rfl, by decide⟩), rfl⟩
  · exact ⟨_, .tail _ (.head _), by decide, .inr (.inr ⟨rfl, by decide⟩), rfl⟩
  · exact ⟨_, .tail _ (.tail _ (.tail _ (.tail _ (.tail _ (.tail _ (.tail _ (.tail _ (.head _)))))))), by decide,
      .inl ⟨rfl, by decide⟩, rfl⟩

theorem witness_EveryCommandAnswersExactlyOnce :
    (State.start (cfg 3) [.command 0x90000000, .rst] []).ports.pending = .command 0x90000000 :: [.rst] := by decide

theorem witness_HardwareResetRestoresEveryRegister : { eMid with ports := { eMid.ports with pending := [.rst] } }.ports.pending =
    .rst :: [] := by decide

theorem witness_EveryStartMeetsTheInvariant :
    Config.Legal { maxCode := 3, bitPlacement := .lsb0 } ∧ Config.Legal { maxCode := 65536, bitPlacement := .msb0 } := by decide

theorem witness_StepKeepsTheInvariant : eMid.Inv ∧ step eMid = .next eMid := ⟨eMid_inv, rfl⟩

theorem witness_WcalcAnswersTheBitLength :
    (1 : Code).toNat < 2 ∧ 2 ≤ (2 : Code).toNat ∧ 2 ≤ (0xFFFF : Code).toNat := by decide

theorem witness_CodeWidthProperties :
    (1 : Nat) ≤ 1 ∧ (1 : Nat) ≤ 65535 ∧ 2 ≤ 16 ∧ codeWidth 3 = 2 ∧ codeWidth 4 = 3 ∧ 65535 < 2 ^ 16 := by decide

theorem witness_WidthCommandsAnswerTheCounterWidth :
    (eOpen 3).e.state = .active ∧ (dOpen 3 []).d.state = .active := by decide

/-- The least counter, a counter one below a power of two, and the greatest counter of the widest configuration. -/
theorem witness_CounterWidthBounds :
    ((cfg 3).Legal ∧ 2 ≤ (2 : Code).toNat ∧ (2 : Code).toNat < (cfg 3).maxCode) ∧
    ((cfg 65536).Legal ∧ 2 ≤ (3 : Code).toNat ∧ (3 : Code).toNat < (cfg 65536).maxCode ∧ (3 : Code).toNat + 1 = 2 ^ 2) ∧
    ((cfg 65536).Legal ∧ 2 ≤ (65535 : Code).toNat ∧ (65535 : Code).toNat < (cfg 65536).maxCode) := by decide

/-- Mid-byte with the widest pair, and one pair of width 1 short of the cursor's last value. -/
theorem witness_EPutAppendsThePair :
    (eMid.Inv ∧ eMid.e.state = .active ∧ legalWidth 16 ∧ (65534 : Code).toNat < eMid.cfg.maxCode ∧
      (65534 : Code).toNat < 2 ^ 16 ∧ eMid.e.cursor.toNat + 16 + 8 ≤ 2 ^ 64 - 1) ∧
    (∃ s : State, s.Inv ∧ s.e.state = .active ∧ legalWidth 1 ∧ (1 : Code).toNat < s.cfg.maxCode ∧ (1 : Code).toNat < 2 ^ 1 ∧
      s.e.cursor.toNat + 1 + 8 = 2 ^ 64 - 1) := by
  refine ⟨⟨eMid_inv, by decide, by decide, by decide, by decide, by decide⟩, ?_⟩
  obtain ⟨out, h⟩ := exists_bytes (2 ^ 61 - 2)
  exact ⟨eLate out, eLate_inv h, rfl, by decide, by show 1 < 65535; decide, by decide,
    by show (0xFFFFFFFFFFFFFFF6 : BitVec 64).toNat + 1 + 8 = 2 ^ 64 - 1; decide⟩

theorem witness_EPutaAppendsThePairAtTheCounterWidth :
    eMid.Inv ∧ eMid.e.state = .active ∧ (1 : Code).toNat < eMid.e.next.toNat ∧
    eMid.e.cursor.toNat + codeWidth eMid.e.next.toNat + 8 ≤ 2 ^ 64 - 1 :=
  ⟨eMid_inv, by decide, by decide, by decide⟩

/-- One input for each clause: codes at MAX_CODE, at the width's bound and at the counter, and cursors one bit too far. -/
theorem witness_PackingFaultsInPriorityOrder :
    (eMid.e.state = .active ∧ legalWidth 16 ∧ eMid.cfg.maxCode ≤ (65535 : Code).toNat) ∧
    (legalWidth 2 ∧ (4 : Code).toNat < eMid.cfg.maxCode ∧ 2 ^ 2 ≤ (4 : Code).toNat) ∧
    ((eLate []).e.state = .active ∧ legalWidth 2 ∧ (3 : Code).toNat < (eLate []).cfg.maxCode ∧ (3 : Code).toNat < 2 ^ 2 ∧
      2 ^ 64 - 1 < (eLate []).e.cursor.toNat + 2 + 8) ∧
    (eMid.e.next.toNat ≤ (2 : Code).toNat) ∧
    ((1 : Code).toNat < (eLate []).e.next.toNat ∧ 2 ^ 64 - 1 < (eLate []).e.cursor.toNat + codeWidth (eLate []).e.next.toNat + 8) ∧
    (∃ s : State, s.e.state = .active ∧ 2 ^ 64 - 1 < s.e.cursor.toNat + (8 - s.e.cursor.toNat % 8) % 8) := by
  refine ⟨by decide, by decide, ⟨by decide, by decide, by decide, by decide, by decide⟩, by decide, ⟨by decide, by decide⟩, ?_⟩
  exact ⟨{ eOpen 65535 with e := { EChannel.opened with cursor := 0xFFFFFFFFFFFFFFFF } }, by decide, by decide⟩

/-- A pad of 0, and a pad of 6. -/
theorem witness_EFlushPadsAndCloses :
    ((eOpen 65535).Inv ∧ (eOpen 65535).e.state = .active ∧
      (eOpen 65535).e.cursor.toNat + (8 - (eOpen 65535).e.cursor.toNat % 8) % 8 ≤ 2 ^ 64 - 1) ∧
    (eMid.Inv ∧ eMid.e.state = .active ∧ eMid.e.cursor.toNat + (8 - eMid.e.cursor.toNat % 8) % 8 ≤ 2 ^ 64 - 1) :=
  ⟨⟨eOpen_inv, by decide, by decide⟩, ⟨eMid_inv, by decide, by decide⟩⟩

theorem eMid_put : exec (.ePut 0x155 0xC3 16) eMid = .next (respond .ok (pairData 16 0x155 0xC3)
    { eMid with e := appendPair eMid.cfg.bitPlacement 0x155 0xC3 16 eMid.e }) := by
  show Host.Outcome.next (whenActive .e eMid _) = _
  rw [whenActive_e (by decide), if_neg (by decide), if_neg (by decide), packPair_room (by decide)]

/-- E.PUT and E.PUTA complete at a counter of width 2 (vectors K4 and K12). -/
theorem witness_APairCompletesOneToThreeBytes :
    (eOpen 65535).Inv ∧ legalWidth 2 ∧ legalWidth 16 ∧ codeWidth (eOpen 65535).e.next.toNat = 2 ∧
    (∃ t, exec (.ePut 3 0x41 2) (eOpen 65535) = .next t ∧ t.e.state ≠ .faulted) ∧
    (∃ t, exec (.ePut 0x155 0xC3 16) eMid = .next t ∧ t.e.state ≠ .faulted) ∧
    (∃ t, exec (.ePuta 0 0x61) (eOpen 65535) = .next t ∧ t.e.state ≠ .faulted) :=
  ⟨eOpen_inv, by decide, by decide, by decide, ⟨_, rfl, by decide⟩,
    ⟨_, eMid_put, by rw [respond_e, appendPair_state]; decide⟩,
    ⟨_, rfl, by decide⟩⟩

theorem witness_FinishedStreamLength :
    (eOpen 65535).Inv ∧ FreshStream (eOpen 65535).e ∧
    (∀ p ∈ [Pair.mk 0x155 0xC3 9, Pair.mk 65534 0 16], Packable (eOpen 65535).cfg p) ∧
    pairBits [Pair.mk 0x155 0xC3 9, Pair.mk 65534 0 16] + 7 < 2 ^ 64 := by
  refine ⟨eOpen_inv, ⟨by decide, by decide, by decide, by decide⟩, ?_, by decide⟩
  intro p hp
  simp only [List.mem_cons, List.not_mem_nil, or_false] at hp
  rcases hp with rfl | rfl <;> exact ⟨by decide, by decide, by decide⟩

theorem witness_StreamsAreLittleEndianIntegers : 3 + 13 ≤ 8 * ([0x84, 0x19] : List Byte).length := by decide

/-- The empty input, an input of 2^61 - 1 bytes and one of 2^61 bytes. -/
theorem witness_DInitBindsTheDelivery :
    (State.reset.ports.deliveries.headD []).length < 2 ^ 61 ∧
    (∃ s : State, (s.ports.deliveries.headD []).length = 2 ^ 61 - 1) ∧
    ∃ s : State, (s.ports.deliveries.headD []).length = 2 ^ 61 := by
  obtain ⟨short, h1⟩ := exists_bytes (2 ^ 61 - 1)
  obtain ⟨long, h2⟩ := exists_bytes (2 ^ 61)
  exact ⟨by decide, ⟨State.start (cfg 3) [] [short], h1⟩, ⟨State.start (cfg 3) [] [long], h2⟩⟩

/-- 16 bits left: one short of a pair of width 9, exactly one pair of width 8; and the code read is a STOP code, a code at the
counter, and a code that `D.GET` takes (vectors U5, U1, U2). -/
theorem witness_GetCommandsUnpackThePairAtTheCursor :
    (dOpen 65535 [0x01, 0x00]).d.state = .active ∧ legalWidth 9 ∧ legalWidth 8 ∧
    8 * (dOpen 65535 [0x01, 0x00]).d.src.length - (dOpen 65535 [0x01, 0x00]).d.cursor.toNat = 16 ∧
    codeAtCursor (dOpen 65535 [0x01, 0x00]) 2 = 1 ∧
    (dOpen 65535 [0x03, 0x00]).d.next.toNat ≤ (codeAtCursor (dOpen 65535 [0x03, 0x00]) 2).toNat ∧
    codeAtCursor (dOpen 65535 [0x03, 0x00]) 2 ≠ 1 ∧ codeAtCursor (dOpen 65535 [0x84, 0x19]) 2 = 0 := by decide

theorem witness_AfterDoneReadsFault : (bothIn .done).d.state = .done := by decide

theorem witness_PadBitsNeverFormAPair :
    ∃ t, eMid.Inv ∧ exec .eFlush eMid = .next t ∧ t.e.state = .done ∧
      (let v : State := { dOpen 65535 t.e.out with d := { DChannel.opened t.e.out with cursor := eMid.e.cursor } }
       v.d.state = .active ∧ v.d.src = t.e.out ∧ v.d.cursor = eMid.e.cursor) ∧
      ∃ width, legalWidth width ∧ Instr.dGet 1 = .dGet width :=
  ⟨_, eMid_inv, rfl, by decide, ⟨by decide, by decide, by decide⟩, 1, by decide, rfl⟩

/-- A data pair before the STOP pair, and a pair after it; and a data pair that is read last. -/
theorem witness_UnpackingInvertsPacking :
    (eOpen 65535).Inv ∧ FreshStream (eOpen 65535).e ∧
    (∀ q ∈ [Pair.mk 0 0x61 2] ++ Pair.mk 1 0 2 :: [Pair.mk 5 7 3], Packable (eOpen 65535).cfg q) ∧
    pairBits ([Pair.mk 0 0x61 2] ++ Pair.mk 1 0 2 :: [Pair.mk 5 7 3]) + 7 < 2 ^ 64 ∧
    (∀ q ∈ [Pair.mk 0 0x61 2], q.code ≠ stopCode) ∧
    (dOpen 3 []).cfg.bitPlacement = (eOpen 65535).cfg.bitPlacement ∧ (dOpen 3 []).d.state = .active ∧
    (dOpen 3 []).d.cursor = 0 := by
  refine ⟨eOpen_inv, ⟨by decide, by decide, by decide, by decide⟩, ?_, by decide, ?_, by decide, by decide, by decide⟩
  · intro p hp
    simp only [List.cons_append, List.nil_append, List.mem_cons, List.not_mem_nil, or_false] at hp
    rcases hp with rfl | rfl | rfl <;> exact ⟨by decide, by decide, by decide⟩
  · intro p hp
    simp only [List.mem_singleton] at hp
    subst hp; decide

/-- The block of `witness_UnpackingInvertsPacking` bound to the bytes E emits. -/
theorem witness_UnpackingInvertsPacking_bound :
    ∃ flushed, execAll [putOf (Pair.mk 0 0x61 2), putOf (Pair.mk 1 0 2), .eFlush] (eOpen 65535) = .next flushed ∧
      (dOpen 3 flushed.e.out).d.src = flushed.e.out ∧ flushed.e.out.length = 3 := ⟨_, rfl, rfl, by decide⟩

/-- A counter that does not reach MAX_CODE and one that does, on each channel. -/
theorem witness_AdvanceFollowsTheArbiter :
    ((eOpen 65535).Inv ∧ (eOpen 65535).e.state = .active ∧ (eOpen 65535).e.next.toNat + 1 ≠ (eOpen 65535).cfg.maxCode) ∧
    ((eOpen 3).Inv ∧ (eOpen 3).e.state = .active ∧ (eOpen 3).e.next.toNat + 1 = (eOpen 3).cfg.maxCode) ∧
    ((dOpen 65535 [0x03, 0x00]).Inv ∧ (dOpen 65535 [0x03, 0x00]).d.state = .active ∧
      (dOpen 65535 [0x03, 0x00]).d.next.toNat + 1 ≠ (dOpen 65535 [0x03, 0x00]).cfg.maxCode) ∧
    ((dOpen 3 []).Inv ∧ (dOpen 3 []).d.state = .active ∧ (dOpen 3 []).d.next.toNat + 1 = (dOpen 3 []).cfg.maxCode) :=
  ⟨⟨eOpen_inv, by decide, by decide⟩, ⟨eOpen_small_inv, by decide, by decide⟩, ⟨dOpen_inv, by decide, by decide⟩,
    ⟨dOpen_small_inv, by decide, by decide⟩⟩

/-- Two advances of channel E among other commands, and two of channel D (vector A1's counter). -/
theorem witness_CounterSequence :
    (cfg 4).Legal ∧
    (∃ t, execAll [.eAdv, .ePuta 0 0, .rd 3, .eAdv] (eOpen 4) = .next t ∧ t.e.state ≠ .faulted ∧ t.e.state = .active) ∧
    ((eOpen 4).e.state = .active ∧ (eOpen 4).e.next = 2 ∧ (eOpen 4).e.resets = 0 ∧
      Instr.eInit ∉ [Instr.eAdv, .ePuta 0 0, .rd 3, .eAdv]) ∧
    (∃ t, execAll [.dAdv, .wcalc 7, .dAdv] (dOpen 4 []) = .next t ∧ t.d.state ≠ .faulted ∧ t.d.state = .active) ∧
    ((dOpen 4 []).d.state = .active ∧ (dOpen 4 []).d.next = 2 ∧ (dOpen 4 []).d.resets = 0 ∧
      Instr.dInit ∉ [Instr.dAdv, .wcalc 7, .dAdv]) :=
  ⟨by decide, ⟨_, rfl, by decide, by decide⟩, by decide, ⟨_, rfl, by decide, by decide⟩, by decide⟩

theorem witness_EqualAdvancesSynchronise :
    (eOpen 4).cfg.Legal ∧ (dOpen 4 []).cfg.maxCode = (eOpen 4).cfg.maxCode ∧
    JustOpened .e (eOpen 4) ∧ initOf .e ∉ [Instr.eAdv, .ePuta 0 0, .eAdv] ∧
    (∃ t, execAll [.eAdv, .ePuta 0 0, .eAdv] (eOpen 4) = .next t ∧ t.channelState .e ≠ .faulted) ∧
    JustOpened .d (dOpen 4 []) ∧ initOf .d ∉ [Instr.dAdv, .dAdv] ∧
    (∃ v, execAll [.dAdv, .dAdv] (dOpen 4 []) = .next v ∧ v.channelState .d ≠ .faulted) ∧
    [Instr.eAdv, .ePuta 0 0, .eAdv].count (advOf .e) = [Instr.dAdv, .dAdv].count (advOf .d) :=
  ⟨by decide, by decide, ⟨by decide, by decide, by decide⟩, by decide, ⟨_, rfl, by decide⟩,
    ⟨by decide, by decide, by decide⟩, by decide, ⟨_, rfl, by decide⟩, by decide⟩

theorem witness_EncodeThenDecodeReturnsTheInput :
    (cfg 3).Legal ∧ ([] : List Byte).length < 2 ^ 56 ∧ ([0x61, 0x61] : List Byte).length < 2 ^ 56 := by decide

theorem witness_RdAnswersTheRegisterMap :
    eMid.cfg.Legal ∧ 0x0E ≤ (0x0E : Byte).toNat ∧ 0x0E ≤ (0xFF : Byte).toNat := by decide

theorem witness_RegistersReadTheirResetValues : (cfg 65536).Legal ∧ (cfg 3).Legal := by decide

theorem witness_CursorHalvesMakeTheCursor :
    ((0x04 : Byte) = 0x04 ∧ (0x05 : Byte) = 0x05 ∧ (eLate []).e.cursor = (eLate []).e.cursor) ∧
    ((0x0B : Byte) = 0x0B ∧ (0x0C : Byte) = 0x0C ∧ (eLate []).d.cursor = (eLate []).d.cursor) := ⟨⟨rfl, rfl, rfl⟩, ⟨rfl, rfl, rfl⟩⟩

theorem witness_InactiveChannelRefusesItsCommands :
    (bothIn .idle).e.state ≠ .active ∧ (bothIn .done).e.state ≠ .active ∧ (bothIn .faulted).e.state ≠ .active ∧
    (bothIn .idle).d.state ≠ .active ∧ (bothIn .done).d.state ≠ .active ∧ (bothIn .faulted).d.state ≠ .active := by decide

/-- A FAULT that names no channel, one of channel E and one of channel D. -/
theorem witness_FaultsArePrecise :
    (∃ t, step (State.start (cfg 3) [.command 0x70000000] []) = .next t ∧
      t.ports.responses = [] ++ [{ rkind := .fault, rdata := 0x01 }]) ∧
    (∃ t, step (State.start (cfg 3) [.command 0x40000000] []) = .next t ∧
      t.ports.responses = [] ++ [{ rkind := .fault, rdata := 0x03 }]) ∧
    (∃ t, step (State.start (cfg 3) [.command 0xC0000000] []) = .next t ∧
      t.ports.responses = [] ++ [{ rkind := .fault, rdata := 0x03 }]) :=
  ⟨⟨_, rfl, rfl⟩, ⟨_, rfl, rfl⟩, ⟨_, rfl, rfl⟩⟩

theorem witness_FaultsAreSticky :
    (∃ t, step (bothIn .faulted) = .next t) ∧ (bothIn .faulted).e.state = .faulted ∧ (bothIn .faulted).d.state = .faulted :=
  ⟨⟨_, rfl⟩, by decide, by decide⟩

/-- Every cause is answered somewhere: the eight codes in their order. -/
theorem witness_FaultCausesComeFromTheirTable :
    reply 0x70000000 State.reset = some (3, 0x01) ∧ reply 0x01000500 State.reset = some (3, 0x02) ∧
    reply 0x40000000 State.reset = some (3, 0x03) ∧ reply 0x21000441 eMid = some (3, 0x04) ∧
    reply 0x2FFFFF00 eMid = some (3, 0x05) ∧ reply 0x30000241 eMid = some (3, 0x06) ∧
    reply 0x50000000 { eOpen 3 with e := { EChannel.opened with cursor := 0xFFFFFFFFFFFFFFFF } } = some (3, 0x07) ∧
    reply 0x800000FF State.reset = some (3, 0x08) := by decide

theorem witness_ChannelsShareNothing :
    (∃ r ∈ opcodeMap, opOf 0x40000000 = r.op ∧ r.channel = some .e) ∧
    (∃ r ∈ opcodeMap, opOf 0x90000000 = r.op ∧ r.channel = some .d) ∧
    (∃ t, step (State.start (cfg 3) [.command 0x90000000] []) = .next t) ∧
    ∃ long, step (State.start (cfg 3) [.command 0x90000000] [long]) = .refused .inputTooLong := by
  refine ⟨⟨_, .tail _ (.tail _ (.tail _ (.tail _ (.head _)))), by decide, rfl⟩,
    ⟨_, .tail _ (.tail _ (.tail _ (.tail _ (.tail _ (.tail _ (.tail _ (.tail _ (.head _)))))))), by decide, rfl⟩,
    ⟨_, rfl⟩, ?_⟩
  obtain ⟨long, h⟩ := exists_bytes (2 ^ 61)
  refine ⟨long, ?_⟩
  rw [step_command (w := 0x90000000) (rest := []) rfl (i := .dInit) (by decide)]
  exact if_neg (show ¬ long.length < 2 ^ 61 from by omega)

/-- A step that writes a cause: E.ADV and D.ADV after reset (R182, NOT_ACTIVE). -/
theorem witness_RegistersHaveOnlyTheirWriters_cause :
    (after 0x40000000 State.reset).map (fun t => (t.e.cause, t.ports.responses)) =
      some (some .notActive, [{ rkind := .fault, rdata := 3 }]) ∧
    (after 0xC0000000 State.reset).map (fun t => (t.d.cause, t.ports.responses)) =
      some (some .notActive, [{ rkind := .fault, rdata := 3 }]) := by decide

/-- A step that writes a counter: E.ADV. -/
theorem witness_RegistersHaveOnlyTheirWriters :
    ∃ t, step { eOpen 4 with ports := { (eOpen 4).ports with pending := [.command 0x40000000] } } = .next t ∧
      t.e.next ≠ (eOpen 4).e.next := ⟨_, rfl, by decide⟩

/-- One step for each change of a channel's state. -/
theorem witness_ChannelStatesChangeOnlyAsListed :
    (after 0x10000000 State.reset).map (·.e.state) = some .active ∧ (after 0x50000000 eMid).map (·.e.state) = some .done ∧
    (after 0x40000000 State.reset).map (·.e.state) = some .faulted ∧
    (after 0xA1000000 (dOpen 3 [0x01, 0x00])).map (·.d.state) = some .done ∧
    (after 0xA1000000 (dOpen 3 [])).map (·.d.state) = some .done := by decide

theorem witness_ReadingCommandsOnlyAnswer :
    (Instr.eWidth = .eWidth ∧ (eOpen 3).e.state = .active) ∧ (Instr.dWidth = .dWidth ∧ (dOpen 3 []).d.state = .active) := by decide

theorem witness_CompletedChannelECommandsFrame :
    (∃ t, exec (.ePut 3 0x41 2) (eOpen 65535) = .next t ∧ t.e.state ≠ .faulted) ∧
    (∃ t, exec (.ePuta 1 0) (eOpen 65535) = .next t ∧ t.e.state ≠ .faulted) ∧
    (∃ t, exec .eFlush eMid = .next t ∧ t.e.state ≠ .faulted) ∧ ∃ t, exec .eAdv eMid = .next t ∧ t.e.state ≠ .faulted :=
  ⟨⟨_, rfl, by decide⟩, ⟨_, rfl, by decide⟩, ⟨_, rfl, by decide⟩, ⟨_, rfl, by decide⟩⟩

theorem witness_CompletedChannelDCommandsFrame :
    (∃ t, exec (.dGet 2) (dOpen 65535 [0x03, 0x00]) = .next t ∧ t.d.state ≠ .faulted) ∧
    (∃ t, exec .dGeta (dOpen 65535 [0x84, 0x19]) = .next t ∧ t.d.state ≠ .faulted) ∧
    ∃ t, exec .dAdv (dOpen 65535 []) = .next t ∧ t.d.state ≠ .faulted :=
  ⟨⟨_, rfl, by decide⟩, ⟨_, rfl, by decide⟩, ⟨_, rfl, by decide⟩⟩

/-- A step that offers a byte, and one that opens a new stream. -/
theorem witness_OfferedBytesAreNeverTakenBack :
    (after 0x50000000 eMid).map (·.e.out) = some [0x07, 0x01] ∧
    (after 0x10000000 eMid).map (fun t => (t.ports.earlierOut, t.e.out)) = some ([0x07], []) := by decide

theorem witness_PlacementOnlyReversesStoredBytes :
    Instr.ePut 0 0 1 ≠ .rd 0x01 ∧ Instr.rd 0x00 ≠ .rd 0x01 ∧ Instr.rd 0x07 ≠ .rd 0x06 ∧ (∃ t, exec .eFlush eMid = .next t) ∧
    ∃ long, exec .dInit (State.start (cfg 3) [] [long]) = .refused .inputTooLong := by
  obtain ⟨long, h⟩ := exists_bytes (2 ^ 61)
  exact ⟨by decide, by decide, by decide, ⟨_, rfl⟩, long, if_neg (show ¬ long.length < 2 ^ 61 from by omega)⟩

theorem witness_AssembledWordsDecodeToTheirCommands :
    commandsOfLine ['D', '.', 'G', 'E', 'T', ' ', '1', '6'] = some [.dGet 16] ∧ commandsOfLine [] = some [] := by decide

theorem witness_PseudoInstructionsExpand :
    ∃ t, exec (.ePuta 2 0) (eOpen 65535) = .next t ∧ t.e.state = .faulted := ⟨_, rfl, by decide⟩

end Sys2Proof.Tests
end

/-! PROOFS, section file 10_state.md. What one step can be, and from it what a step makes of each channel: the invariant, the
writers of each register, the channel state machines, and that the channels share nothing. -/

namespace Sys2Proof.Machine

open Sys2Proof.Spec

variable {s t : State}

/-! ### The start of a run and the command at the port -/

theorem start_inv {cfg : Config} (h : cfg.Legal) (moves : List HostMove) (deliveries : List (List Byte)) :
    (State.start cfg moves deliveries).Inv := ⟨h, EChannel_reset_inv h, DChannel_reset_inv h⟩

/-- Settles O13: both channels start at their reset values, which meet the invariant. -/
theorem everyStartMeetsTheInvariant : Obligations.EveryStartMeetsTheInvariant :=
  ⟨fun _ moves deliveries h => start_inv h moves deliveries, start_inv (by decide) [] []⟩

/-- Settles O11: by the definitions of the start of a run and of the reset values. -/
theorem runsStartAtTheResetValues : Obligations.RunsStartAtTheResetValues :=
  ⟨fun _ _ _ => ⟨rfl, rfl, rfl, rfl, rfl⟩, rfl⟩

/-- Settles O5: the command at the port is taken, and the index advanced, before it is executed. -/
theorem stepRunsTheDecodedCommand : Obligations.StepRunsTheDecodedCommand := by
  intro s w rest i hp hd
  rw [step_command hp hd, acceptCommand_eq hp]

/-! ### The invariant -/

/-- Every step keeps the invariant: each kind of step does. -/
theorem step_inv (h : s.Inv) (hs : step s = .next t) : t.Inv := by
  rcases step_cases hs with ⟨-, rfl⟩ | ⟨-, rfl⟩ | ⟨i, -, hx⟩ | ⟨_, _, -, -, rfl⟩ | ⟨_, _, _, -, -, rfl⟩
  · exact h
  · exact hardwareReset_inv (takeMove_inv h)
  · exact exec_inv i (acceptCommand_inv h) hx
  · exact raise_inv _ _ (acceptCommand_inv h)
  · exact raise_inv _ _ (acceptCommand_inv h)

/-- Settles O14, by the kinds of step; each command and each shared operation keeps the invariant. -/
theorem stepKeepsTheInvariant : Obligations.StepKeepsTheInvariant := fun _ _ => step_inv

/-! ### What a step makes of each channel -/

/-- What a step from `s` to `t` makes of channel E, with the move that does it. -/
inductive StepE (s t : State) : Prop where
  | held (same : t.e = s.e)
  | reset (move : MoveIsReset s) (value : t.e = EChannel.reset)
  | opened (move : MoveIs s .eInit) (value : t.e = EChannel.opened)
  | faulted (c : Cause) (value : t.e = s.e.faultedBy c)
      (answer : t.ports.responses = s.ports.responses ++ [{ rkind := .fault, rdata := faultData c }])
  | advanced (move : MoveIs s .eAdv) (value : t.e = { s.e with next := t.e.next, resets := t.e.resets })
  | packed (move : (∃ code sym width, MoveIs s (.ePut code sym width)) ∨ ∃ code sym, MoveIs s (.ePuta code sym))
      (state : t.e.state = s.e.state) (cause : t.e.cause = s.e.cause) (next : t.e.next = s.e.next)
      (resets : t.e.resets = s.e.resets)
  | flushed (move : MoveIs s .eFlush) (before : s.e.state = .active) (after : t.e.state = .done)
      (cause : t.e.cause = s.e.cause) (next : t.e.next = s.e.next) (resets : t.e.resets = s.e.resets)

/-- What a step from `s` to `t` makes of channel D, with the move that does it. -/
inductive StepD (s t : State) : Prop where
  | held (same : t.d = s.d)
  | reset (move : MoveIsReset s) (value : t.d = DChannel.reset)
  | opened (move : MoveIs s .dInit) (value : ∃ src, t.d = DChannel.opened src)
  | faulted (c : Cause) (value : t.d = s.d.faultedBy c)
      (answer : t.ports.responses = s.ports.responses ++ [{ rkind := .fault, rdata := faultData c }])
  | advanced (move : MoveIs s .dAdv) (value : t.d = { s.d with next := t.d.next, resets := t.d.resets })
  | consumed (move : MoveIs s .dGeta ∨ ∃ width, MoveIs s (.dGet width)) (value : t.d = { s.d with cursor := t.d.cursor })
  | ended (move : MoveIs s .dGeta ∨ ∃ width, MoveIs s (.dGet width)) (before : s.d.state = .active) (r : Response)
      (answer : t.ports.responses = s.ports.responses ++ [r]) (kind : r.rkind = .stop ∨ r.rkind = .exhausted)
      (value : t.d = { s.d with cursor := t.d.cursor, state := .done, reason := t.d.reason })

/-- A fault raised at the step makes of channel E its fault record, or leaves it. -/
theorem StepE.of_raise (ch : Option Channel) (c : Cause) : StepE s (raise ch c (acceptCommand s)) := by
  rcases ch with _ | _ | _
  · exact .held rfl
  · exact .faulted c rfl rfl
  · exact .held rfl

/-- A fault raised at the step makes of channel D its fault record, or leaves it. -/
theorem StepD.of_raise (ch : Option Channel) (c : Cause) : StepD s (raise ch c (acceptCommand s)) := by
  rcases ch with _ | _ | _
  · exact .held rfl
  · exact .held rfl
  · exact .faulted c rfl rfl

/-- What a command executed at the step makes of channel E. -/
theorem StepE.of_exec {i : Instr} (move : MoveIs s i) (hx : exec i (acceptCommand s) = .next t) : StepE s t := by
  rcases answer_e (exec_answer i hx) with same | ⟨c, rfl, -⟩ | rfl | ⟨-, rfl, value⟩ |
    ⟨active, next, resets, cause, ⟨state, put⟩ | ⟨state, rfl⟩⟩
  · exact .held same
  · exact .of_raise _ c
  · cases hx; exact .opened move rfl
  · exact .advanced move value
  · refine .packed ?_ (state.trans active.symm) cause next resets
    rcases put with ⟨code, sym, width, rfl⟩ | ⟨code, sym, rfl⟩
    · exact .inl ⟨code, sym, width, move⟩
    · exact .inr ⟨code, sym, move⟩
  · exact .flushed move active state cause next resets

/-- D.INIT that is not refused opens channel D on the host's next delivery. -/
theorem exec_dInit_d (hx : exec .dInit s = .next t) : t.d = DChannel.opened (nextDelivery s) := by
  simp only [exec, execDInit] at hx
  split at hx
  · cases hx; rfl
  · cases hx

/-- What a command executed at the step makes of channel D. -/
theorem StepD.of_exec {i : Instr} (move : MoveIs s i) (hx : exec i (acceptCommand s) = .next t) : StepD s t := by
  have get (h : (∃ width, i = .dGet width) ∨ i = .dGeta) : MoveIs s .dGeta ∨ ∃ width, MoveIs s (.dGet width) := by
    rcases h with ⟨width, rfl⟩ | rfl
    · exact .inr ⟨width, move⟩
    · exact .inl move
  rcases answer_d (exec_answer i hx) with same | ⟨c, rfl, -⟩ | rfl | ⟨-, rfl, value⟩ |
    ⟨active, read, r, answer, ⟨-, value⟩ | ⟨kind, value⟩⟩
  · exact .held same
  · exact .of_raise _ c
  · exact .opened move ⟨_, exec_dInit_d hx⟩
  · exact .advanced move value
  · exact .consumed (get read) value
  · exact .ended (get read) active r answer kind value

/-- What any step makes of channel E. -/
theorem step_e (hs : step s = .next t) : StepE s t := by
  rcases step_cases hs with ⟨-, rfl⟩ | ⟨move, rfl⟩ | ⟨i, move, hx⟩ | ⟨_, _, -, -, rfl⟩ | ⟨_, _, _, -, -, rfl⟩
  · exact .held rfl
  · exact .reset move rfl
  · exact .of_exec move hx
  · exact .of_raise _ _
  · exact .of_raise _ _

/-- What any step makes of channel D. -/
theorem step_d (hs : step s = .next t) : StepD s t := by
  rcases step_cases hs with ⟨-, rfl⟩ | ⟨move, rfl⟩ | ⟨i, move, hx⟩ | ⟨_, _, -, -, rfl⟩ | ⟨_, _, _, -, -, rfl⟩
  · exact .held rfl
  · exact .reset move rfl
  · exact .of_exec move hx
  · exact .of_raise _ _
  · exact .of_raise _ _

theorem raise_cfg (ch : Option Channel) (c : Cause) (s : State) : (raise ch c s).cfg = s.cfg := by
  rcases ch with _ | _ | _ <;> rfl

/-- No step changes the configuration (spec/10_state.md R20). -/
theorem step_cfg (hs : step s = .next t) : t.cfg = s.cfg := by
  rcases step_cases hs with ⟨-, rfl⟩ | ⟨-, rfl⟩ | ⟨i, -, hx⟩ | ⟨_, _, -, -, rfl⟩ | ⟨_, _, _, -, -, rfl⟩
  · rfl
  · rfl
  · exact (answer_cfg (exec_answer i hx)).trans (acceptCommand_cfg s)
  · exact raise_cfg _ _ (acceptCommand s)
  · exact raise_cfg _ _ (acceptCommand s)

/-! ### The writers of each register -/

/-- The writers of `E.cause` (R25). -/
theorem StepE.cause (h : StepE s t) (hne : t.e.cause ≠ s.e.cause) :
    MoveIs s .eInit ∨ MoveIsReset s ∨ FirstFault s t s.e.state t.e.state t.e.cause := by
  cases h with
  | held same => exact absurd (by rw [same]) hne
  | reset move => exact .inr (.inl move)
  | opened move => exact .inl move
  | faulted c value answer =>
    rw [value] at hne ⊢
    obtain ⟨notFaulted, cause⟩ := EChannel_faultedBy_writes_cause hne
    exact .inr (.inr ⟨notFaulted, rfl, c, cause, by rw [answer, codeOfCause_eq]⟩)
  | advanced _ value => exact absurd (by rw [value]) hne
  | packed _ _ cause => exact absurd cause hne
  | flushed _ _ _ cause => exact absurd cause hne

/-- The writers of `E.next` and `E.resets` (R26, R29). -/
theorem StepE.counters (h : StepE s t) :
    (t.e.next = s.e.next ∧ t.e.resets = s.e.resets) ∨ MoveIs s .eInit ∨ MoveIs s .eAdv ∨ MoveIsReset s := by
  cases h with
  | held same => exact .inl (by rw [same]; exact ⟨rfl, rfl⟩)
  | reset move => exact .inr (.inr (.inr move))
  | opened move => exact .inr (.inl move)
  | faulted c value => exact .inl (by rw [value]; exact ⟨rfl, rfl⟩)
  | advanced move => exact .inr (.inr (.inl move))
  | packed _ _ _ next resets => exact .inl ⟨next, resets⟩
  | flushed _ _ _ _ next resets => exact .inl ⟨next, resets⟩

/-- The writers of the stream of channel E (R27, R28, R30). -/
theorem StepE.stream (h : StepE s t) :
    (t.e.cursor = s.e.cursor ∧ t.e.acc = s.e.acc ∧ t.e.out = s.e.out) ∨ MoveIs s .eInit ∨ MoveIs s .eFlush ∨ MoveIsReset s ∨
      (∃ code sym width, MoveIs s (.ePut code sym width)) ∨ (∃ code sym, MoveIs s (.ePuta code sym)) := by
  cases h with
  | held same => exact .inl (by rw [same]; exact ⟨rfl, rfl, rfl⟩)
  | reset move => exact .inr (.inr (.inr (.inl move)))
  | opened move => exact .inr (.inl move)
  | faulted c value => exact .inl (by rw [value]; exact ⟨rfl, rfl, rfl⟩)
  | advanced _ value => exact .inl (by rw [value]; exact ⟨rfl, rfl, rfl⟩)
  | packed move => exact .inr (.inr (.inr (.inr move)))
  | flushed move => exact .inr (.inr (.inl move))

/-- The writers of `D.cause` (R33). -/
theorem StepD.cause (h : StepD s t) (hne : t.d.cause ≠ s.d.cause) :
    MoveIs s .dInit ∨ MoveIsReset s ∨ FirstFault s t s.d.state t.d.state t.d.cause := by
  cases h with
  | held same => exact absurd (by rw [same]) hne
  | reset move => exact .inr (.inl move)
  | opened move => exact .inl move
  | faulted c value answer =>
    rw [value] at hne ⊢
    obtain ⟨notFaulted, cause⟩ := DChannel_faultedBy_writes_cause hne
    exact .inr (.inr ⟨notFaulted, rfl, c, cause, by rw [answer, codeOfCause_eq]⟩)
  | advanced _ value => exact absurd (by rw [value]) hne
  | consumed _ value => exact absurd (by rw [value]) hne
  | ended _ _ _ _ _ value => exact absurd (by rw [value]) hne

/-- The writers of `D.next` and `D.resets` (R34, R36). -/
theorem StepD.counters (h : StepD s t) :
    (t.d.next = s.d.next ∧ t.d.resets = s.d.resets) ∨ MoveIs s .dInit ∨ MoveIs s .dAdv ∨ MoveIsReset s := by
  cases h with
  | held same => exact .inl (by rw [same]; exact ⟨rfl, rfl⟩)
  | reset move => exact .inr (.inr (.inr move))
  | opened move => exact .inr (.inl move)
  | faulted c value => exact .inl (by rw [value]; exact ⟨rfl, rfl⟩)
  | advanced move => exact .inr (.inr (.inl move))
  | consumed _ value => exact .inl (by rw [value]; exact ⟨rfl, rfl⟩)
  | ended _ _ _ _ _ value => exact .inl (by rw [value]; exact ⟨rfl, rfl⟩)

/-- The writers of `D.src` (R37). -/
theorem StepD.src (h : StepD s t) : t.d.src = s.d.src ∨ MoveIs s .dInit ∨ MoveIsReset s := by
  cases h with
  | held same => exact .inl (by rw [same])
  | reset move => exact .inr (.inr move)
  | opened move => exact .inr (.inl move)
  | faulted c value => exact .inl (by rw [value]; rfl)
  | advanced _ value => exact .inl (by rw [value])
  | consumed _ value => exact .inl (by rw [value])
  | ended _ _ _ _ _ value => exact .inl (by rw [value])

/-- The writers of `D.cursor` and `D.reason` (R32, R35). -/
theorem StepD.position (h : StepD s t) :
    (t.d.cursor = s.d.cursor ∧ t.d.reason = s.d.reason) ∨ MoveIs s .dInit ∨ MoveIsReset s ∨ MoveIs s .dGeta ∨
      ∃ width, MoveIs s (.dGet width) := by
  cases h with
  | held same => exact .inl (by rw [same]; exact ⟨rfl, rfl⟩)
  | reset move => exact .inr (.inr (.inl move))
  | opened move => exact .inr (.inl move)
  | faulted c value => exact .inl (by rw [value]; exact ⟨rfl, rfl⟩)
  | advanced _ value => exact .inl (by rw [value]; exact ⟨rfl, rfl⟩)
  | consumed move => exact .inr (.inr (.inr move))
  | ended move => exact .inr (.inr (.inr move))

/-- Settles O44: the writers of each register, read off what a step makes of its channel. -/
theorem registersHaveOnlyTheirWriters : Obligations.RegistersHaveOnlyTheirWriters := by
  intro s t hs
  have e := step_e hs
  have d := step_d hs
  refine ⟨step_cfg hs, e.cause, d.cause, fun h => e.counters.resolve_left fun same => h same.1,
    fun h => e.counters.resolve_left fun same => h same.2, fun h => e.stream.resolve_left ?_,
    fun h => d.counters.resolve_left fun same => h same.1, fun h => d.counters.resolve_left fun same => h same.2,
    fun h => d.src.resolve_left h, fun h => d.position.resolve_left ?_⟩
  · rintro ⟨cursor, acc, out⟩
    simp [cursor, acc, out] at h
  · rintro ⟨cursor, reason⟩
    simp [cursor, reason] at h

/-! ### The channel state machines -/

/-- How `E.state` changes (R24). -/
theorem StepE.state (h : StepE s t) (hne : t.e.state ≠ s.e.state) :
    (t.e.state = .active ∧ MoveIs s .eInit) ∨
    (t.e.state = .done ∧ s.e.state = .active ∧ MoveIs s .eFlush) ∨
    (t.e.state = .faulted ∧ ∃ data, t.ports.responses = s.ports.responses ++ [{ rkind := .fault, rdata := data }]) ∨
    (t.e.state = .idle ∧ MoveIsReset s) := by
  cases h with
  | held same => exact absurd (by rw [same]) hne
  | reset move value => exact .inr (.inr (.inr ⟨by rw [value]; rfl, move⟩))
  | opened move value => exact .inl ⟨by rw [value]; rfl, move⟩
  | faulted c value answer => exact .inr (.inr (.inl ⟨by rw [value]; rfl, _, answer⟩))
  | advanced _ value => exact absurd (by rw [value]) hne
  | packed _ state => exact absurd state hne
  | flushed move before after => exact .inr (.inl ⟨after, before, move⟩)

/-- How `D.state` changes (R31). -/
theorem StepD.state (h : StepD s t) (hne : t.d.state ≠ s.d.state) :
    (t.d.state = .active ∧ MoveIs s .dInit) ∨
    (t.d.state = .done ∧ s.d.state = .active ∧ (MoveIs s .dGeta ∨ ∃ width, MoveIs s (.dGet width)) ∧
      ∃ r, t.ports.responses = s.ports.responses ++ [r] ∧ (r.rkind = .stop ∨ r.rkind = .exhausted)) ∨
    (t.d.state = .faulted ∧ ∃ data, t.ports.responses = s.ports.responses ++ [{ rkind := .fault, rdata := data }]) ∨
    (t.d.state = .idle ∧ MoveIsReset s) := by
  cases h with
  | held same => exact absurd (by rw [same]) hne
  | reset move value => exact .inr (.inr (.inr ⟨by rw [value]; rfl, move⟩))
  | opened move value => obtain ⟨src, value⟩ := value; exact .inl ⟨by rw [value]; rfl, move⟩
  | faulted c value answer => exact .inr (.inr (.inl ⟨by rw [value]; rfl, _, answer⟩))
  | advanced _ value => exact absurd (by rw [value]) hne
  | consumed _ value => exact absurd (by rw [value]) hne
  | ended move before r answer kind value => exact .inr (.inl ⟨by rw [value], before, move, r, answer, kind⟩)

/-- Settles O45: each change of a channel's state, read off what a step makes of the channel. -/
theorem channelStatesChangeOnlyAsListed : Obligations.ChannelStatesChangeOnlyAsListed :=
  fun _ _ hs => ⟨(step_e hs).state, (step_d hs).state⟩

/-! ### The channels share nothing -/

/-- What a command leaves of the ports: only D.INIT takes a delivery, and only E.INIT ends a stream of `out_byte`. -/
theorem answer_ports {i : Instr} (h : Answer s i t) :
    (t.ports.deliveries = s.ports.deliveries ∨ i = .dInit) ∧ (t.ports.earlierOut = s.ports.earlierOut ∨ i = .eInit) := by
  cases h
  case eInit => exact ⟨.inl rfl, .inr rfl⟩
  case dInit => exact ⟨.inr rfl, .inl rfl⟩
  case notActive ch _ _ _ => cases ch <;> exact ⟨.inl rfl, .inl rfl⟩
  case eAdv => exact ⟨.inl (by simp [advanceE]), .inl (by simp [advanceE])⟩
  case dAdv => exact ⟨.inl (by simp [advanceD]), .inl (by simp [advanceD])⟩
  all_goals exact ⟨.inl rfl, .inl rfl⟩

/-- The opcode map names the channel that a fault of the opcode goes to (R73, R181). -/
theorem channelOfOp_of_mem_opcodeMap : ∀ r ∈ opcodeMap, channelOfOp r.op = r.channel := by decide

/-- A word whose opcode names a channel is a command of that channel, or its reserved-field fault. -/
theorem decode_of_channelOfOp {w : Word} {ch : Channel} (h : channelOfOp (fieldsOf w).op = some ch) :
    (∃ i, decode w = .command i ∧ i.channel = some ch) ∨ ∃ op, decode w = .reservedField op ∧ channelOfOp op = some ch := by
  cases hd : decode w with
  | command i => exact .inl ⟨i, rfl, (commandOf_channel ((decode_command_iff w i).mp hd).1).trans h⟩
  | illegalCommand =>
    have := channelOfOp_of_commandOf_none ((decode_illegal_iff w).mp hd)
    simp [this] at h
  | reservedField op =>
    obtain ⟨rfl, -, -⟩ := (decode_reserved_iff w op).mp hd
    exact .inr ⟨_, rfl, h⟩

/-- The ACTIVE check of channel E does not read channel D, if the body does not. -/
theorem whenActive_withD {body body' : State} {d' : DChannel} (h : body' = { body with d := d' }) :
    whenActive .e { s with d := d' } body' = { whenActive .e s body with d := d' } := by
  subst h
  by_cases ha : s.e.state = .active
  · rw [whenActive_e (s := { s with d := d' }) ha, whenActive_e ha]
  · rw [whenActive_e_inactive (s := { s with d := d' }) ha, whenActive_e_inactive ha]; rfl

/-- The ACTIVE check of channel D does not read channel E, if the body does not. -/
theorem whenActive_withE {body body' : State} {e' : EChannel} (h : body' = { body with e := e' }) :
    whenActive .d { s with e := e' } body' = { whenActive .d s body with e := e' } := by
  subst h
  by_cases ha : s.d.state = .active
  · rw [whenActive_d (s := { s with e := e' }) ha, whenActive_d ha]
  · rw [whenActive_d_inactive (s := { s with e := e' }) ha, whenActive_d_inactive ha]; rfl

theorem advanceE_withD (s : State) (d' : DChannel) : advanceE { s with d := d' } = { advanceE s with d := d' } := by
  unfold advanceE
  dsimp only
  cases counterFires s.cfg s.e.next <;> rfl

theorem advanceD_withE (s : State) (e' : EChannel) : advanceD { s with e := e' } = { advanceD s with e := e' } := by
  unfold advanceD
  dsimp only
  cases counterFires s.cfg s.d.next <;> rfl

theorem unpackPair_withE (width : Nat) (check : Bool) (s : State) (e' : EChannel) :
    unpackPair width check { s with e := e' } = { unpackPair width check s with e := e' } := by
  by_cases hr : s.d.remaining < width + 8
  · rw [unpackPair_exhausted hr]; exact unpackPair_exhausted (s := { s with e := e' }) hr
  have hr' := Nat.le_of_not_lt hr
  by_cases hc : codeAtCursor s width = stopCode
  · rw [unpackPair_stop hr' hc]; exact unpackPair_stop (s := { s with e := e' }) hr' hc
  by_cases hi : check = true ∧ s.d.next ≤ codeAtCursor s width
  · rw [unpackPair_invalid hr' hc hi]; exact unpackPair_invalid (s := { s with e := e' }) hr' hc hi
  · rw [unpackPair_pair hr' hc hi]; exact unpackPair_pair (s := { s with e := e' }) hr' hc hi

/-- A command of channel E is executed whatever channel D holds, and leaves it. -/
theorem exec_withD {i : Instr} (hi : i.channel = some .e) (s : State) :
    ∃ t, exec i s = .next t ∧ ∀ d', exec i { s with d := d' } = .next { t with d := d' } := by
  cases i with
  | eInit => exact ⟨_, rfl, fun _ => rfl⟩
  | ePut code sym width =>
    refine ⟨_, rfl, fun d' => congrArg _ (whenActive_withD ?_)⟩
    dsimp only
    split
    · rfl
    · split
      · rfl
      · exact packPair_withD ..
  | ePuta code sym =>
    refine ⟨_, rfl, fun d' => congrArg _ (whenActive_withD ?_)⟩
    dsimp only
    split
    · rfl
    · exact packPair_withD ..
  | eAdv => exact ⟨_, rfl, fun d' => congrArg _ (whenActive_withD (advanceE_withD s d'))⟩
  | eFlush => exact ⟨_, rfl, fun d' => congrArg _ (whenActive_withD (flushE_withD s d'))⟩
  | eWidth => exact ⟨_, rfl, fun d' => congrArg _ (whenActive_withD (s := s) (body := respond _ _ s) rfl)⟩
  | wcalc | rd | dInit | dGet | dGeta | dAdv | dWidth => cases hi

/-- A command of channel D is executed, or refused, whatever channel E holds, and leaves it. -/
theorem exec_withE {i : Instr} (hi : i.channel = some .d) (s : State) :
    (∃ t, exec i s = .next t ∧ ∀ e', exec i { s with e := e' } = .next { t with e := e' }) ∨
      ∃ x, exec i s = .refused x ∧ ∀ e', exec i { s with e := e' } = .refused x := by
  cases i with
  | dInit =>
    by_cases h : (nextDelivery s).length < 2 ^ 61
    · exact .inl ⟨_, if_pos h, fun e' => if_pos (c := (nextDelivery { s with e := e' }).length < 2 ^ 61) h⟩
    · exact .inr ⟨_, if_neg h, fun e' => if_neg (c := (nextDelivery { s with e := e' }).length < 2 ^ 61) h⟩
  | dGet width => exact .inl ⟨_, rfl, fun e' => congrArg _ (whenActive_withE (unpackPair_withE width false s e'))⟩
  | dGeta => exact .inl ⟨_, rfl, fun e' => congrArg _ (whenActive_withE (unpackPair_withE _ true s e'))⟩
  | dAdv => exact .inl ⟨_, rfl, fun e' => congrArg _ (whenActive_withE (advanceD_withE s e'))⟩
  | dWidth => exact .inl ⟨_, rfl, fun e' => congrArg _ (whenActive_withE (s := s) (body := respond _ _ s) rfl)⟩
  | wcalc | eInit | ePut | ePuta | eAdv | eFlush | eWidth | rd => cases hi

/-- A step on a word of channel E does the same whatever channel D holds, and takes no delivery. -/
theorem step_withD {w : Word} {rest : List HostMove} (hp : s.ports.pending = .command w :: rest)
    (hc : channelOfOp (fieldsOf w).op = some .e) :
    ∃ t, step s = .next t ∧ t.ports.deliveries = s.ports.deliveries ∧
      ∀ d', step { s with d := d' } = .next { t with d := d' } := by
  rcases decode_of_channelOfOp hc with ⟨i, hd, hi⟩ | ⟨op, hd, hop⟩
  · obtain ⟨t, ht, hall⟩ := exec_withD hi (acceptCommand s)
    have notInit : i ≠ .dInit := by rintro rfl; cases hi
    refine ⟨t, (step_command hp hd).trans ht, (answer_ports (exec_answer i ht)).1.resolve_right notInit, fun d' => ?_⟩
    exact (step_command (s := { s with d := d' }) hp hd).trans (hall d')
  · have reject (u : State) : rejectReserved op u = raise (some .e) .reservedField u := by rw [rejectReserved, hop]
    refine ⟨_, (step_reserved hp hd).trans (congrArg _ (reject _)), rfl, fun d' => ?_⟩
    exact (step_reserved (s := { s with d := d' }) hp hd).trans (congrArg _ (reject _))

/-- A step on a word of channel D does the same, or is refused, whatever channel E holds, and leaves its earlier bytes. -/
theorem step_withE {w : Word} {rest : List HostMove} (hp : s.ports.pending = .command w :: rest)
    (hc : channelOfOp (fieldsOf w).op = some .d) :
    (∃ t, step s = .next t ∧ t.ports.earlierOut = s.ports.earlierOut ∧
      ∀ e', step { s with e := e' } = .next { t with e := e' }) ∨
    ∃ x, step s = .refused x ∧ ∀ e', step { s with e := e' } = .refused x := by
  rcases decode_of_channelOfOp hc with ⟨i, hd, hi⟩ | ⟨op, hd, hop⟩
  · have hstep (e' : EChannel) := step_command (s := { s with e := e' }) hp hd
    rcases exec_withE hi (acceptCommand s) with ⟨t, ht, hall⟩ | ⟨x, hx, hall⟩
    · have notInit : i ≠ .eInit := by rintro rfl; cases hi
      exact .inl ⟨t, (step_command hp hd).trans ht, (answer_ports (exec_answer i ht)).2.resolve_right notInit,
        fun e' => (hstep e').trans (hall e')⟩
    · exact .inr ⟨x, (step_command hp hd).trans hx, fun e' => (hstep e').trans (hall e')⟩
  · have reject (u : State) : rejectReserved op u = raise (some .d) .reservedField u := by rw [rejectReserved, hop]
    refine .inl ⟨_, (step_reserved hp hd).trans (congrArg _ (reject _)), rfl, fun e' => ?_⟩
    exact (step_reserved (s := { s with e := e' }) hp hd).trans (congrArg _ (reject _))

/-- Settles O43: a channel that a step does not read is left as it is, as the step shows on the state with that very channel. -/
theorem channelsShareNothing : Obligations.ChannelsShareNothing := by
  intro s w rest r hp hr hop
  have named : channelOfOp (fieldsOf w).op = r.channel := by
    rw [← channelOfOp_of_mem_opcodeMap r hr, ← hop]; rfl
  refine ⟨fun he => ?_, fun hd => ?_⟩
  · obtain ⟨t, ht, deliveries, hall⟩ := step_withD hp (named.trans he)
    have same := Host.Outcome.next.inj (ht.symm.trans (hall s.d))
    exact ⟨t, ht, by rw [same], deliveries, hall⟩
  · rcases step_withE hp (named.trans hd) with ⟨t, ht, earlier, hall⟩ | ⟨x, hx, hall⟩
    · have same := Host.Outcome.next.inj (ht.symm.trans (hall s.e))
      constructor
      · intro u hu
        obtain rfl : t = u := Host.Outcome.next.inj (ht.symm.trans hu)
        exact ⟨by rw [same], earlier, hall⟩
      · intro x hx; rw [ht] at hx; cases hx
    · constructor
      · intro u hu; rw [hx] at hu; cases hu
      · intro y hy
        obtain rfl : x = y := Host.Outcome.refused.inj (hx.symm.trans hy)
        exact hall

end Sys2Proof.Machine

/-! PROOFS, section file 20_memory.md. The two bit placements, the little-endian integer of a byte sequence, the bytes a pair
completes, the history of `out_byte`, and the commands that only read. -/

namespace Sys2Proof.Machine

open Sys2Proof.Spec

variable {s t : State} {i : Instr}

/-! ### The two bit placements -/

@[simp] theorem mirrored_maxCode (s : State) : (mirrored s).cfg.maxCode = s.cfg.maxCode := rfl
@[simp] theorem mirrored_e_next (s : State) : (mirrored s).e.next = s.e.next := rfl

theorem mirrored_respond (k : RKind) (data : Word) (s : State) : mirrored (respond k data s) = respond k data (mirrored s) := rfl

/-- The ACTIVE check of a channel mirrors, if the body does. -/
theorem whenActive_mirrored {ch : Channel} {body body' : State} (h : body' = mirrored body) :
    whenActive ch (mirrored s) body' = mirrored (whenActive ch s body) := by
  rw [h, mirrored_whenActive]

theorem exec_rd_mirrored {reg : Byte} (param : reg ≠ 0x01) (acc : reg ≠ 0x06) (s : State) :
    ∃ t, exec (.rd reg) s = .next t ∧ exec (.rd reg) (mirrored s) = .next (mirrored t) := by
  have same := mirrored_registerValue param acc s
  cases hv : registerValue reg s with
  | some v => exact ⟨_, exec_rd_some hv, exec_rd_some (same.trans hv)⟩
  | none => exact ⟨_, exec_rd_none hv, (exec_rd_none (same.trans hv)).trans (congrArg _ (mirrored_raise _ _ s).symm)⟩

/-- D.INIT reads the length of the delivery, which mirroring keeps, and binds it. -/
theorem exec_dInit_mirrored (s : State) :
    (∃ t, exec .dInit s = .next t ∧ exec .dInit (mirrored s) = .next (mirrored t)) ∨
      ∃ x, exec .dInit s = .refused x ∧ exec .dInit (mirrored s) = .refused x := by
  have delivery := mirrored_nextDelivery s
  have len : (nextDelivery (mirrored s)).length = (nextDelivery s).length := by rw [delivery, List.length_map]
  by_cases short : (nextDelivery s).length < 2 ^ 61
  · refine .inl ⟨_, if_pos short, (if_pos (len ▸ short)).trans (congrArg _ ?_)⟩
    rw [delivery, mirrored_openD]
  · exact .inr ⟨_, if_neg short, if_neg (len ▸ short)⟩

/-- A command but RD PARAM and RD E_ACC gives on the mirrored state the mirror of what it gives on the state, or is refused on
both. -/
theorem exec_mirrored (param : i ≠ .rd 0x01) (acc : i ≠ .rd 0x06) (s : State) :
    (∃ t, exec i s = .next t ∧ exec i (mirrored s) = .next (mirrored t)) ∨
      ∃ x, exec i s = .refused x ∧ exec i (mirrored s) = .refused x := by
  cases i with
  | wcalc n => exact .inl ⟨_, rfl, rfl⟩
  | eInit => exact .inl ⟨_, rfl, congrArg _ (mirrored_openE s)⟩
  | ePut code sym width =>
    refine .inl ⟨_, rfl, congrArg _ (whenActive_mirrored ?_)⟩
    simp only [apply_ite mirrored, mirrored_raise, mirrored_packPair, mirrored_maxCode]
  | ePuta code sym =>
    refine .inl ⟨_, rfl, congrArg _ (whenActive_mirrored ?_)⟩
    simp only [apply_ite mirrored, mirrored_raise, mirrored_packPair, mirrored_e_next]
  | eAdv => exact .inl ⟨_, rfl, congrArg _ (whenActive_mirrored (mirrored_advanceE s))⟩
  | eFlush => exact .inl ⟨_, rfl, congrArg _ (whenActive_mirrored (mirrored_flushE s))⟩
  | eWidth => exact .inl ⟨_, rfl, congrArg _ (whenActive_mirrored (mirrored_respond _ _ s).symm)⟩
  | rd reg => exact .inl (exec_rd_mirrored (fun h => param (h ▸ rfl)) (fun h => acc (h ▸ rfl)) s)
  | dInit => exact exec_dInit_mirrored s
  | dGet width => exact .inl ⟨_, rfl, congrArg _ (whenActive_mirrored (mirrored_unpackPair width false s))⟩
  | dGeta => exact .inl ⟨_, rfl, congrArg _ (whenActive_mirrored (mirrored_unpackPair _ true s))⟩
  | dAdv => exact .inl ⟨_, rfl, congrArg _ (whenActive_mirrored (mirrored_advanceD s))⟩
  | dWidth => exact .inl ⟨_, rfl, congrArg _ (whenActive_mirrored (mirrored_respond _ _ s).symm)⟩

/-- Settles O50: each command mirrors, because each shared operation does. -/
theorem placementOnlyReversesStoredBytes : Obligations.PlacementOnlyReversesStoredBytes := by
  intro s i param acc
  rcases exec_mirrored param acc s with ⟨t, ht, hm⟩ | ⟨x, hx, hm⟩
  · rw [ht, hm]
    exact ⟨fun u hu => (by cases hu; rfl), fun x hx => (by cases hx)⟩
  · rw [hx, hm]
    exact ⟨fun u hu => (by cases hu), fun y hy => hy⟩

/-! ### The bytes a pair completes -/

/-- E.PUT or E.PUTA that does not leave channel E FAULTED had room for its pair, and appended it. -/
theorem answer_packed {code : Code} {sym : Byte} {width : Nat} (h : Answer s i t)
    (hi : i = .ePut code sym width ∨ (i = .ePuta code sym ∧ width = codeWidth s.e.next.toNat))
    (hf : t.e.state ≠ .faulted) :
    s.e.cursor.toNat + width + 8 ≤ 2 ^ 64 - 1 ∧ t.e = appendPair s.cfg.bitPlacement code sym width s.e := by
  rcases hi with rfl | ⟨rfl, rfl⟩
  · cases h with
    | put _ _ _ _ room => exact ⟨room, by simp only [respond_e]⟩
    | notActive _ ch hch => cases hch; exact absurd rfl hf
    | codeDomain | codeTooWide | putOverflow => exact absurd rfl hf
    | exhausted _ _ hi | stop _ _ hi | pair _ _ hi => simp at hi
  · cases h with
    | puta _ _ _ room => exact ⟨room, by simp only [respond_e]⟩
    | notActive _ ch hch => cases hch; exact absurd rfl hf
    | putaInvalid | putaOverflow => exact absurd rfl hf
    | exhausted _ _ hi | stop _ _ hi | pair _ _ hi => simp at hi

/-- The number of bytes emitted is the number of complete bytes of the stream (spec/10_state.md R40). -/
theorem StreamOk.out_length {p : BitPlacement} {c : EChannel} (ok : StreamOk p c) : c.out.length = c.cursor.toNat / 8 := by
  have := ok.cursor
  omega

/-- Appending a pair emits the bytes that the bits held and the pair's bits complete (R59). -/
theorem appendPair_completes {p : BitPlacement} {c : EChannel} {code : Code} {sym : Byte} {width : Nat} (ok : StreamOk p c)
    (room : c.cursor.toNat + width + 8 < 2 ^ 64) :
    ∃ more, more.length = (c.cursor.toNat % 8 + width + 8) / 8 ∧ (appendPair p code sym width c).out = c.out ++ more := by
  obtain ⟨ok', cursor, -⟩ := appendPair_spec p code sym width ok room
  obtain ⟨more, out⟩ := appendPair_out p code sym width c
  have total : c.out.length + more.length = (c.cursor.toNat + width + 8) / 8 := by
    rw [← List.length_append, ← out, ok'.out_length, cursor]
  have before := ok.out_length
  exact ⟨more, by omega, out⟩

/-- Settles O24: a completed pair is appended, and the bits held and the pair's make from 9 to 31 bits. -/
theorem aPairCompletesOneToThreeBytes : Obligations.APairCompletesOneToThreeBytes := by
  intro s t i code sym width inv ⟨low, high⟩ hi ht hf
  obtain ⟨room, packed⟩ := answer_packed (exec_answer i ht) hi hf
  obtain ⟨more, length, out⟩ :=
    appendPair_completes (code := code) (sym := sym) (width := width) inv.e.streamOk (by omega)
  exact ⟨by omega, by omega, more, length, by rw [packed, out]⟩

/-! ### The little-endian integer of a byte sequence -/

/-- Under LSB0 a field is a slice of the little-endian integer: they agree bit by bit. -/
theorem readBits_lsb0 (bytes : List Byte) (k n : Nat) : readBits .lsb0 bytes k n = littleEndian bytes / 2 ^ k % 2 ^ n := by
  refine readBits_eq _ _ _ _ _ (Nat.mod_lt _ (Nat.two_pow_pos n)) fun j hj => ?_
  rw [Nat.testBit_mod_two_pow, Nat.testBit_div_two_pow, littleEndian_testBit, Nat.add_comm j k]
  simp [hj]

/-- Settles O26: MSB0 is LSB0 of the bit-reversed bytes. -/
theorem streamsAreLittleEndianIntegers : Obligations.StreamsAreLittleEndianIntegers := by
  intro bytes k n _
  refine ⟨readBits_lsb0 bytes k n, ?_⟩
  rw [← readBits_lsb0]
  exact (readBits_mirror .msb0 bytes k n).symm

/-! ### The history of the output port -/

/-- A command but E.INIT only appends to `E.out`. -/
theorem answer_out (h : Answer s i t) : (∃ more, t.e.out = s.e.out ++ more) ∨ i = .eInit := by
  cases h
  case eInit => exact .inr rfl
  case put => simp only [respond_e]; exact .inl (appendPair_out ..)
  case puta => simp only [respond_e]; exact .inl (appendPair_out ..)
  case flush => simp only [respond_e]; exact .inl (appendBits_out ..)
  case notActive ch _ _ _ => cases ch <;> exact .inl ⟨[], (List.append_nil _).symm⟩
  case eAdv => exact .inl ⟨[], by simp [advanceE]⟩
  case dAdv => exact .inl ⟨[], by simp [advanceD]⟩
  all_goals exact .inl ⟨[], (List.append_nil _).symm⟩

/-- From `s` to `t` the history of `out_byte` grows by what is appended to the stream of channel E, or not at all. -/
def OutPortGrows (s t : State) : Prop :=
  ∃ more : List Byte, t.outPort = s.outPort ++ more ∧ (more = [] ∨ t.e.out = s.e.out ++ more)

theorem OutPortGrows.of_same (h : t.outPort = s.outPort) : OutPortGrows s t := ⟨[], by rw [h, List.append_nil], .inl rfl⟩

/-- A stream of channel E closed, and an empty one put in its place: its bytes stand in the history as they did. -/
theorem outPort_of_closed (out : t.e.out = []) (earlier : t.ports.earlierOut = s.outPort) : t.outPort = s.outPort := by
  rw [State.outPort, out, earlier, List.append_nil]

theorem raise_outPort (ch : Option Channel) (c : Cause) (s : State) : (raise ch c s).outPort = s.outPort := by
  rcases ch with _ | _ | _ <;> rfl

theorem exec_outPortGrows (hx : exec i s = .next t) : OutPortGrows s t := by
  have answer := exec_answer i hx
  by_cases init : i = .eInit
  · subst init; cases hx
    exact .of_same (outPort_of_closed rfl rfl)
  · obtain ⟨more, out⟩ := (answer_out answer).resolve_right init
    have earlier := (answer_ports answer).2.resolve_right init
    exact ⟨more, by rw [State.outPort, State.outPort, out, earlier, List.append_assoc], .inr out⟩

/-- Settles O49, by the kinds of step: only a command that appends to `E.out` changes the history. -/
theorem offeredBytesAreNeverTakenBack : Obligations.OfferedBytesAreNeverTakenBack := by
  intro s t hs
  show OutPortGrows s t
  rcases step_cases hs with ⟨-, rfl⟩ | ⟨-, rfl⟩ | ⟨i, -, hx⟩ | ⟨_, _, -, -, rfl⟩ | ⟨_, _, _, -, -, rfl⟩
  · exact .of_same rfl
  · exact .of_same (outPort_of_closed rfl rfl)
  · exact exec_outPortGrows (s := acceptCommand s) hx
  · exact .of_same (raise_outPort _ _ (acceptCommand s))
  · exact .of_same (raise_outPort _ _ (acceptCommand s))

/-! ### The commands that only read -/

/-- RD answers the register, or BAD_REGISTER, and writes nothing (R170). -/
theorem exec_rd_answered (reg : Byte) (s : State) : ∃ k data, exec (.rd reg) s = .next (answered s k data) := by
  cases hv : registerValue reg s with
  | some v => exact ⟨_, _, exec_rd_some hv⟩
  | none => exact ⟨_, _, exec_rd_none hv⟩

/-- Settles O46: each reading command is a response and nothing else. -/
theorem readingCommandsOnlyAnswer : Obligations.ReadingCommandsOnlyAnswer := by
  rintro s i (⟨n, rfl⟩ | ⟨reg, rfl⟩ | ⟨rfl, active⟩ | ⟨rfl, active⟩)
  · exact ⟨_, _, rfl⟩
  · exact exec_rd_answered reg s
  · exact ⟨_, _, congrArg Host.Outcome.next (whenActive_e active _)⟩
  · exact ⟨_, _, congrArg Host.Outcome.next (whenActive_d active _)⟩

end Sys2Proof.Machine

/-! PROOFS, section file 30_encoding.md. Decoding and encoding are inverse and follow the opcode map; what a word that is no command
does; that every command answers once; the packing of a pair; and what the assembler makes of a line. -/

namespace Sys2Proof.Machine

open Sys2Proof.Spec

variable {s t : State} {i : Instr} {w : Word} {r : OpRow}

/-! ### Encoding and decoding are inverse -/

/-- The fields of a well-formed command name it (R71, R73). -/
theorem commandOf_encodeFields (h : i.WellFormed) : commandOf (encodeFields i) = some i := by
  cases i with
  | ePut code sym width => exact congrArg (fun n => some (Instr.ePut code sym n)) (widthOf_wfOf (of_decide_eq_true h))
  | dGet width => exact congrArg (fun n => some (Instr.dGet n)) (widthOf_wfOf (of_decide_eq_true h))
  | wcalc | eInit | ePuta | eAdv | eFlush | eWidth | rd | dInit | dGeta | dAdv | dWidth => rfl

/-- The encoder leaves zero in every field that the opcode does not use (R75). -/
theorem reservedFieldSet_encodeFields (i : Instr) : reservedFieldSet (encodeFields i) = false := by
  cases i <;> simp [encodeFields, reservedFieldSet, usedFields]

/-- Settles O1: the fields of the word are those the encoder wrote, and they name the command. -/
theorem encodeThenDecodeReturnsTheCommand : Obligations.EncodeThenDecodeReturnsTheCommand := by
  intro i wf
  rw [decode_command_iff, fieldsOf_encode]
  exact ⟨commandOf_encodeFields wf, reservedFieldSet_encodeFields i⟩

/-- A command named by a word's fields is well formed: every `wf` field is a width of 1 to 16 (R72). -/
theorem commandOf_wellFormed {f : Fields} (h : commandOf f = some i) : i.WellFormed := by
  unfold commandOf at h
  split at h <;> cases h
  case h_3 | h_10 => exact decide_eq_true (legalWidth_widthOf f.wf)
  all_goals rfl

/-- The fields that name a command, with zero in those its opcode does not use, are the encoder's: opcode by opcode, the operands
go back to the fields they came from, and the other fields are the zeros. -/
theorem encodeFields_of_commandOf {f : Fields} (h : commandOf f = some i) (zero : reservedFieldSet f = false) :
    encodeFields i = f := by
  obtain ⟨op, wf, code, sym⟩ := f
  rcases op_cases op with rfl | rfl | rfl | rfl | rfl | rfl | rfl | rfl | rfl | rfl | rfl | rfl | rfl | rfl | rfl | rfl <;>
    cases h <;> simp_all [reservedFieldSet, usedFields, encodeFields, wfOf_widthOf]

/-- Settles O2: the word is that of its fields, and its fields are the encoder's. -/
theorem decodedCommandEncodesToItsWord : Obligations.DecodedCommandEncodesToItsWord := by
  intro w i hd
  obtain ⟨named, zero⟩ := (decode_command_iff w i).mp hd
  exact ⟨commandOf_wellFormed named, by rw [encode, encodeFields_of_commandOf named zero, wordOf_fieldsOf]⟩

/-! ### The opcode map -/

/-- The fields a row uses are those the decoder takes for used. -/
theorem usedFields_of_mem_opcodeMap :
    ∀ r ∈ opcodeMap, usedFields r.op = { wf := r.usesWf, code := r.usesCode, sym := r.usesSym } := by decide

/-- A word of a row's opcode names the row's command (R73). -/
theorem commandOf_of_mem_opcodeMap : ∀ r ∈ opcodeMap, ∀ w, opOf w = r.op → commandOf (fieldsOf w) = some (r.command w) := by
  intro r hr w hop
  have fields : fieldsOf w = { fieldsOf w with op := r.op } := by rw [← hop]; rfl
  rw [fields]
  fin_cases hr <;> rfl

/-- A reserved opcode names no command (R74). -/
theorem commandOf_of_reserved {f : Fields} (h : f.op = 0x7 ∨ f.op = 0xD ∨ f.op = 0xF) : commandOf f = none := by
  rcases h with h | h | h <;> simp [commandOf, h]

/-- Every opcode but the reserved ones has a row. -/
theorem exists_row (op : BitVec 4) : (op = 0x7 ∨ op = 0xD ∨ op = 0xF) ∨ ∃ r ∈ opcodeMap, op = r.op := by
  revert op; decide

/-- The row and the decoder agree on which words have a nonzero reserved field (R75). -/
theorem reservedFieldSet_iff (hr : r ∈ opcodeMap) (hop : opOf w = r.op) :
    reservedFieldSet (fieldsOf w) = true ↔ reservedSet r w := by
  have used : usedFields (fieldsOf w).op = { wf := r.usesWf, code := r.usesCode, sym := r.usesSym } :=
    (congrArg usedFields hop).trans (usedFields_of_mem_opcodeMap r hr)
  simp only [reservedFieldSet, used, reservedSet, Bool.or_eq_true, Bool.and_eq_true, Bool.not_eq_true', bne_iff_ne, or_assoc]
  rfl

/-- A row's mask on one field: none of a field the row uses, all of one it does not. -/
def fieldMask (n : Nat) (used : Bool) : BitVec n := if used then 0 else BitVec.allOnes n

theorem and_fieldMask_eq_zero {n : Nat} (x : BitVec n) (used : Bool) :
    x &&& fieldMask n used = 0 ↔ ¬ (used = false ∧ x ≠ 0) := by
  cases used <;> simp [fieldMask]

/-- The match of a row is its opcode alone, and its mask selects the opcode and the fields the row does not use. -/
theorem mask_of_mem_opcodeMap : ∀ r ∈ opcodeMap,
    r.matchWord = wordOf { op := r.op, wf := 0, code := 0, sym := 0 } ∧
    r.mask = wordOf { op := BitVec.allOnes 4, wf := fieldMask 4 r.usesWf, code := fieldMask 16 r.usesCode,
                      sym := fieldMask 8 r.usesSym } := by decide

/-- Words are equal when their fields are (R70). -/
theorem wordOf_inj {f g : Fields} : wordOf f = wordOf g ↔ f = g :=
  ⟨fun h => by rw [← fieldsOf_wordOf f, h, fieldsOf_wordOf], congrArg wordOf⟩

/-- A word of a row's opcode is under the row's mask the row's match just when no reserved field is set (R76). -/
theorem mask_match_iff (hr : r ∈ opcodeMap) (hop : opOf w = r.op) : w &&& r.mask = r.matchWord ↔ ¬ reservedSet r w := by
  obtain ⟨matchWord, mask⟩ := mask_of_mem_opcodeMap r hr
  have masked : w &&& r.mask = wordOf
      { op := (fieldsOf w).op, wf := (fieldsOf w).wf &&& fieldMask 4 r.usesWf,
        code := (fieldsOf w).code &&& fieldMask 16 r.usesCode, sym := (fieldsOf w).sym &&& fieldMask 8 r.usesSym } := by
    rw [mask]
    conv_lhs => rw [← wordOf_fieldsOf w]
    simp only [Laws.TableRow.wordOf_and, BitVec.and_allOnes]
  rw [masked, matchWord, wordOf_inj, Fields.mk.injEq, and_fieldMask_eq_zero, and_fieldMask_eq_zero, and_fieldMask_eq_zero,
    reservedSet, not_or, not_or]
  exact and_iff_right hop

/-- A word of a reserved opcode is illegal (R74). -/
theorem decode_of_reserved (h : opOf w = 0x7 ∨ opOf w = 0xD ∨ opOf w = 0xF) : decode w = .illegalCommand :=
  (decode_illegal_iff w).mpr (commandOf_of_reserved h)

/-- A word of a row with a reserved field set is the reserved-field fault of the row's opcode (R75). -/
theorem decode_of_reservedSet (hr : r ∈ opcodeMap) (hop : opOf w = r.op) (set : reservedSet r w) :
    decode w = .reservedField r.op := by
  rw [decode_reserved_iff, commandOf_of_mem_opcodeMap r hr w hop]
  exact ⟨hop, rfl, (reservedFieldSet_iff hr hop).mpr set⟩

/-- A word of a row with no reserved field set is the row's command (R76). -/
theorem decode_of_not_reservedSet (hr : r ∈ opcodeMap) (hop : opOf w = r.op) (clear : ¬ reservedSet r w) :
    decode w = .command (r.command w) := by
  rw [decode_command_iff, commandOf_of_mem_opcodeMap r hr w hop]
  exact ⟨rfl, Bool.eq_false_iff.mpr fun set => clear ((reservedFieldSet_iff hr hop).mp set)⟩

/-- Settles O3: the decoder's answer for each kind of opcode, and the row's mask field by field. -/
theorem decodingFollowsTheOpcodeMap : Obligations.DecodingFollowsTheOpcodeMap := by
  refine fun w => ⟨decode_of_reserved, (exists_row (opOf w)).resolve_left, fun r hr hop => ?_⟩
  exact ⟨decode_of_reservedSet hr hop, decode_of_not_reservedSet hr hop, mask_match_iff hr hop⟩

/-! ### The words that are no command -/

/-- Settles O7: the word is illegal, and an illegal word names no channel. -/
theorem reservedOpcodeOnlyAnswers : Obligations.ReservedOpcodeOnlyAnswers := by
  intro s w rest hp reserved
  rw [step_illegal hp (decode_of_reserved reserved), acceptCommand_eq hp, rejectIllegal, ← faultNone_eq]
  rfl

/-- Settles O8: the fault is raised from the opcode alone, before any channel's state is read. -/
theorem reservedFieldFaultsFirst : Obligations.ReservedFieldFaultsFirst := by
  intro s w rest r hp hr hop set
  rw [step_reserved hp (decode_of_reservedSet hr hop set), acceptCommand_eq hp, rejectReserved,
    channelOfOp_of_mem_opcodeMap r hr, ← faultNamed_eq]
  rfl

/-! ### One answer for each command -/

/-- `t` is `s` after one response more, with the same moves to come and the same index. -/
def AnswersOnce (s t : State) : Prop :=
  (∃ r, t.ports.responses = s.ports.responses ++ [r]) ∧ t.ports.index = s.ports.index ∧ t.ports.pending = s.ports.pending

theorem raise_answersOnce (ch : Option Channel) (c : Cause) (s : State) : AnswersOnce s (raise ch c s) := by
  rcases ch with _ | _ | _ <;> exact ⟨⟨_, rfl⟩, rfl, rfl⟩

/-- Every answer of a command is one response, and leaves the command port as it is (R80). -/
theorem answer_answersOnce (h : Answer s i t) : AnswersOnce s t := by
  cases h
  case notActive => exact raise_answersOnce ..
  case eAdv | dAdv => exact ⟨⟨_, congrArg (· ++ _) (pulseIf_responses ..)⟩, pulseIf_index .., pulseIf_pending ..⟩
  all_goals exact ⟨⟨_, rfl⟩, rfl, rfl⟩

/-- A command gives a next state, but D.INIT on an input of 2^61 bytes or more, which is refused (assumption log 6). -/
theorem exec_next_or_refused (i : Instr) (s : State) :
    (∃ t, exec i s = .next t) ∨
      (i = .dInit ∧ 2 ^ 61 ≤ (nextDelivery s).length ∧ exec i s = .refused .inputTooLong) := by
  by_cases long : i = .dInit ∧ 2 ^ 61 ≤ (nextDelivery s).length
  · obtain ⟨rfl, long⟩ := long
    exact .inr ⟨rfl, long, if_neg (Nat.not_lt.mpr long)⟩
  · cases i with
    | dInit => exact .inl ⟨_, if_pos (Nat.lt_of_not_le fun h => long ⟨rfl, h⟩)⟩
    | wcalc | eInit | ePut | ePuta | eAdv | eFlush | eWidth | rd | dGet | dGeta | dAdv | dWidth => exact .inl ⟨_, rfl⟩

/-- Settles O9: a command word is a command that answers or is refused, or a fault. -/
theorem everyCommandAnswersExactlyOnce : Obligations.EveryCommandAnswersExactlyOnce := by
  intro s w rest hp
  have once {t : State} (ht : step s = .next t) (h : AnswersOnce (acceptCommand s) t) :
      ∃ t r, step s = .next t ∧ t.ports.responses = s.ports.responses ++ [r] ∧ t.ports.index = s.ports.index + 1 ∧
        t.ports.pending = rest := by
    obtain ⟨⟨r, responses⟩, index, pending⟩ := h
    exact ⟨t, r, ht, responses, index, by rw [pending, acceptCommand_pending, hp, List.tail_cons]⟩
  cases hd : decode w with
  | command i =>
    rcases exec_next_or_refused i (acceptCommand s) with ⟨t, ht⟩ | ⟨rfl, long, refused⟩
    · exact .inl (once ((step_command hp hd).trans ht) (answer_answersOnce (exec_answer i ht)))
    · exact .inr ⟨rfl, long, (step_command hp hd).trans refused⟩
  | illegalCommand => exact .inl (once (step_illegal hp hd) (raise_answersOnce ..))
  | reservedField op => exact .inl (once (step_reserved hp hd) (raise_answersOnce ..))

/-! ### The packing of a pair -/

/-- E.PUT of a code that the checks of R112 let through packs its pair. -/
theorem exec_ePut_active {code : Code} (sym : Byte) {width : Nat} (active : s.e.state = .active)
    (domain : code.toNat < s.cfg.maxCode) (fits : code.toNat < 2 ^ width) :
    exec (.ePut code sym width) s = .next (packPair code sym width s) := by
  refine congrArg _ ((whenActive_e active _).trans ?_)
  rw [if_neg (Nat.not_le.mpr domain), if_neg (Nat.not_le.mpr fits)]

/-- Settles O20: with the checks passed and room in the cursor, the pair is appended. -/
theorem ePutAppendsThePair : Obligations.EPutAppendsThePair := by
  intro s code sym width inv active ⟨_, width_le⟩ domain fits room
  refine ⟨_, appendPair_pairAppended inv.e.streamOk (by omega), ?_⟩
  rw [exec_ePut_active sym active domain fits, packPair_room room, pairNumber_eq (by omega), answered_eq]

/-! ### The assembler -/

/-- The commands of a line are those of its mnemonic, which are well formed (R84). -/
theorem commandsOfLine_wellFormed {line : List Char} {is : List Instr} (read : commandsOfLine line = some is) :
    ∀ i ∈ is, i.WellFormed := by
  simp only [commandsOfLine] at read
  split at read
  · cases read
    exact List.forall_mem_nil _
  · obtain ⟨m, -, hm⟩ := Option.bind_eq_some_iff.mp read
    exact commandsOf_wellFormed hm

/-- Settles O51: a line's commands are well formed, and a well-formed command's word decodes to it. -/
theorem assembledWordsDecodeToTheirCommands : Obligations.AssembledWordsDecodeToTheirCommands := by
  intro line is read
  refine ⟨by rw [assembleLine, read, Option.map_some], fun i hi => ?_⟩
  have wf := commandsOfLine_wellFormed read i hi
  exact ⟨wf, encodeThenDecodeReturnsTheCommand i wf⟩

/-- The second command of a pseudo-instruction is refused where the first has left channel E FAULTED (R85, R186). -/
theorem exec_second_of_faulted (faulted : s.e.state = .faulted) :
    ∀ i ∈ [Instr.eAdv, .eFlush], exec i s = .next (faultE s .notActive) := by
  have refused (body : State) : whenActive .e s body = faultE s .notActive := by
    rw [faultE_eq, whenActive_e_inactive (by rw [faulted]; decide)]
  intro i hi
  rcases List.mem_pair.mp hi with rfl | rfl <;> exact congrArg _ (refused _)

/-- Settles O52: the expansions are the assembler's, and E.ADV and E.FLUSH read the channel that E.PUTA has left. -/
theorem pseudoInstructionsExpand : Obligations.PseudoInstructionsExpand := by
  refine ⟨by decide, fun _ => rfl, fun code sym => ?_, by decide, by decide, by decide, ?_⟩
  · exact (Option.map_map (· ++ [Instr.eAdv]) (fun p => [Instr.ePuta p.1 p.2]) (codeAndSym code sym)).symm
  · exact fun _ _ _ _ _ => exec_second_of_faulted

end Sys2Proof.Machine

/-! PROOFS, section file 40_code_width.md. The width as the least exponent above a value and how it grows with the value; the
commands that answer a width; and one word of each family. -/

namespace Sys2Proof.Machine

open Sys2Proof.Spec

variable {i : Instr} {w : Word} {n m k : Nat}

/-! ### The width function -/

/-- The exponents below the width are those whose power of two the value reaches. -/
theorem lt_codeWidth_iff (hk : 1 ≤ k) : k < codeWidth n ↔ 2 ^ k ≤ n := by
  rw [← not_le, codeWidth_le_iff hk, not_lt]

theorem codeWidth_mono (h : n ≤ m) : codeWidth n ≤ codeWidth m :=
  (codeWidth_le_iff (codeWidth_pos m)).mpr (h.trans_lt (lt_two_pow_codeWidth m))

theorem codeWidth_eq_one_iff : codeWidth n = 1 ↔ n < 2 :=
  (codeWidth_pos n).ge_iff_eq'.symm.trans (codeWidth_le_iff le_rfl)

/-- From 2 bits on, the values of one width are those between two powers of two. -/
theorem codeWidth_eq_iff (hk : 2 ≤ k) : codeWidth n = k ↔ 2 ^ (k - 1) ≤ n ∧ n < 2 ^ k := by
  rw [← lt_codeWidth_iff (by omega), ← codeWidth_le_iff (by omega)]
  omega

/-- Settles O16: the width is the least positive exponent above the value, and each property is one of that exponent. -/
theorem codeWidthProperties : Obligations.CodeWidthProperties := by
  intro n
  refine ⟨codeWidth_pos n, fun m => codeWidth_mono, fun pos => ⟨two_pow_le_of_pos pos, lt_two_pow_codeWidth n⟩,
    fun k hk => ?_, ?_, fun h => ⟨codeWidth_pos n, (codeWidth_le_iff (by decide)).mpr h⟩⟩
  · rw [codeWidth_eq_iff hk, Nat.le_sub_one_iff_lt (Nat.two_pow_pos k)]
  · rw [codeWidth_eq_one_iff]
    omega

/-! ### The width of a counter -/

/-- Adding one makes the width at most one more: the value it makes is still below the next power of two. -/
theorem codeWidth_succ_le (n : Nat) : codeWidth (n + 1) ≤ codeWidth n + 1 := by
  have below := lt_two_pow_codeWidth n
  rw [codeWidth_le_iff (Nat.le_add_left 1 _), pow_succ]
  omega

/-- The width grows just when the value reaches the power of two that was above it. -/
theorem codeWidth_succ_eq_iff : codeWidth (n + 1) = codeWidth n + 1 ↔ n + 1 = 2 ^ codeWidth n := by
  have grows := lt_codeWidth_iff (n := n + 1) (codeWidth_pos n)
  have below := lt_two_pow_codeWidth n
  have le := codeWidth_succ_le n
  omega

/-- A power of two that follows a positive value is the one that was above it. -/
theorem succ_eq_two_pow_codeWidth (pos : 1 ≤ n) (h : n + 1 = 2 ^ k) : n + 1 = 2 ^ codeWidth n := by
  have pos_k : 1 ≤ k := Nat.one_le_iff_ne_zero.mpr fun zero => by rw [zero, pow_zero] at h; omega
  have le : codeWidth n ≤ k := (codeWidth_le_iff pos_k).mpr (by omega)
  exact Nat.le_antisymm (lt_two_pow_codeWidth n) ((Nat.pow_le_pow_right (by decide) le).trans h.ge)

theorem codeWidth_succ_grows_iff (pos : 1 ≤ n) :
    codeWidth (n + 1) = codeWidth n + 1 ↔ ∃ k, n + 1 = 2 ^ k :=
  codeWidth_succ_eq_iff.trans ⟨fun h => ⟨_, h⟩, fun ⟨_, h⟩ => succ_eq_two_pow_codeWidth pos h⟩

/-- Settles O18: the bounds are those of the range, and the width grows onto a power of two only. -/
theorem counterWidthBounds : Obligations.CounterWidthBounds := by
  intro cfg next ⟨_, legal⟩ start_le lt_max
  have fits {c : Nat} (h : c < next.toNat) : c < 2 ^ codeWidth next.toNat := h.trans (lt_two_pow_codeWidth _)
  have grows := codeWidth_succ_grows_iff (Nat.one_le_of_lt start_le)
  refine ⟨(lt_codeWidth_iff le_rfl).mpr start_le, codeWidth_mono (by omega), ?_, fun _ => fits,
    ⟨fits start_le, fits (Nat.zero_lt_of_lt start_le)⟩, grows, fun not_pow => ?_, rfl⟩
  · exact (codeWidth_le_iff (by decide)).mpr (by omega)
  · have le := codeWidth_succ_le next.toNat
    have ge := codeWidth_mono (Nat.le_add_right next.toNat 1)
    have ne := mt grows.mp not_pow
    omega

/-! ### The commands that answer a width -/

/-- The width of a code fits WIDTHDATA, which is then the width as a number (R101). -/
theorem respond_codeWidth (c : Code) (s : State) :
    respond .ok (widthData (codeWidth c.toNat)) s = answered s .ok (BitVec.ofNat 32 (codeWidth c.toNat)) := by
  rw [answered_eq, widthData_eq ((codeWidth_code_le c).trans_lt (by decide))]

/-- Settles O15: the answer is the width, in every state. -/
theorem wcalcAnswersTheBitLength : Obligations.WcalcAnswersTheBitLength := fun n s =>
  ⟨codeWidth n.toNat, congrArg _ (respond_codeWidth n s), codeWidth_pos _, codeWidth_code_le n, codeWidth_of_lt,
    fun h => ⟨two_pow_le_of_pos (Nat.one_le_of_lt h), lt_two_pow_codeWidth _⟩⟩

/-- Settles O17: in ACTIVE the command of each channel answers the width of that channel's counter. -/
theorem widthCommandsAnswerTheCounterWidth : Obligations.WidthCommandsAnswerTheCounterWidth := fun s =>
  ⟨fun active => congrArg _ ((whenActive_e active _).trans (respond_codeWidth s.e.next s)),
    fun active => congrArg _ ((whenActive_d active _).trans (respond_codeWidth s.d.next s))⟩

/-! ### One word of each family -/

theorem decode_of_encode (wf : i.WellFormed) (word : encode i = w) : decode w = .command i :=
  word ▸ encodeThenDecodeReturnsTheCommand i wf

/-- Settles O4: the command words are their commands' encodings; 0x7 is reserved; and E.PUTA does not use its `wf` field. -/
theorem wordsOfEveryFamilyDecode : Obligations.WordsOfEveryFamilyDecode := by
  refine ⟨?wcalc, ?ePut, ?ePuta, ?eAdv, ?rd, ?dGet, ?dGeta, ?illegal, ?reserved⟩
  case illegal => exact decode_of_reserved (.inl rfl)
  case reserved => exact (decode_reserved_iff _ _).mpr (by decide)
  all_goals exact decode_of_encode (by decide) (by decide)

end Sys2Proof.Machine

/-! PROOFS, section file 41_pack.md. What opens a stream, appends to it and closes it: E.INIT, E.PUTA and E.FLUSH; the length of a
finished stream; and what the commands of channel E leave unchanged where they complete. -/

namespace Sys2Proof.Machine

open Sys2Proof.Spec

variable {s t : State} {i : Instr} {p : BitPlacement} {c : EChannel}

/-! ### Opening a stream and appending to it -/

/-- Settles O19: E.INIT checks nothing, and the opened channel is the statement's. -/
theorem eInitOpensAnEmptyStream : Obligations.EInitOpensAnEmptyStream := fun _ => rfl

/-- Settles O21: with a code below the counter, E.PUTA packs its pair at the counter's width, which is at most 16. -/
theorem ePutaAppendsThePairAtTheCounterWidth : Obligations.EPutaAppendsThePairAtTheCounterWidth := by
  intro s code sym inv active below room
  have width_lt : codeWidth s.e.next.toNat < 32 := (codeWidth_code_le s.e.next).trans_lt (by decide)
  refine ⟨_, appendPair_pairAppended inv.e.streamOk (by omega), ?_⟩
  rw [exec_ePuta_active sym active below, packPair_room room, pairNumber_eq width_lt, answered_eq]

/-! ### Closing a stream -/

theorem pos_pos (p : BitPlacement) {j : Nat} (h : j < 8) : pos p (pos p j) = j := by
  cases p with
  | lsb0 => rfl
  | msb0 => simp only [pos]; omega

/-- At a byte boundary the partial byte holds no bit, and is zero (spec/10_state.md R28). -/
theorem StreamOk.acc_eq_zero (ok : StreamOk p c) (boundary : c.cursor.toNat % 8 = 0) : c.acc = 0 := by
  refine BitVec.eq_of_getLsbD_eq fun j hj => ?_
  rw [← pos_pos p hj, ok.acc _ (by omega) (pos_lt p hj)]
  exact BitVec.getLsbD_zero.symm

/-- At a byte boundary every stream bit stands in an emitted byte (spec/10_state.md R40). -/
theorem StreamOk.cursor_eq (ok : StreamOk p c) (boundary : c.cursor.toNat % 8 = 0) : c.cursor.toNat = 8 * c.out.length := by
  have cursor := ok.cursor
  omega

/-- Appending the pad completes the last byte with zero bits, and keeps the bits before it (R114). -/
theorem appendBits_pad (ok : StreamOk p c) (room : c.cursor.toNat + c.padBits < 2 ^ 64) :
    (appendBits p 0 c.padBits c).acc = 0 ∧
    (appendBits p 0 c.padBits c).cursor.toNat = c.cursor.toNat + c.padBits ∧
    (appendBits p 0 c.padBits c).cursor.toNat = 8 * (appendBits p 0 c.padBits c).out.length ∧
    (∀ k, k < c.cursor.toNat → streamBit p (appendBits p 0 c.padBits c).out k = c.bit p k) ∧
    ∀ k, c.cursor.toNat ≤ k → k < (appendBits p 0 c.padBits c).cursor.toNat →
      streamBit p (appendBits p 0 c.padBits c).out k = false := by
  obtain ⟨ok', cursor, pad, earlier⟩ := appendBits_spec p 0 c.padBits ok room
  have boundary : (appendBits p 0 c.padBits c).cursor.toNat % 8 = 0 := by rw [cursor]; exact cursor_add_padBits c
  have length := ok'.cursor_eq boundary
  refine ⟨ok'.acc_eq_zero boundary, cursor, length, fun k hk => ?_, fun k low high => ?_⟩
  · rw [← bit_of_lt p _ (by omega), earlier k hk]
  · rw [← bit_of_lt p _ (by omega), ← Nat.add_sub_cancel' low, pad _ (by omega), Nat.zero_testBit]

theorem exec_eFlush_active (active : s.e.state = .active) : exec .eFlush s = .next (flushE s) :=
  congrArg _ (whenActive_e active _)

/-- Settles O23: the pad completes the last byte, and the flush sets DONE and no other register. -/
theorem eFlushPadsAndCloses : Obligations.EFlushPadsAndCloses := by
  intro s inv active pad room
  obtain ⟨acc, cursor, length, earlier, zero⟩ := appendBits_pad inv.e.streamOk (Nat.lt_of_le_pred (by decide) room)
  refine ⟨{ appendBits s.cfg.bitPlacement 0 s.e.padBits s.e with state := .done }, ?_, rfl, appendBits_cause ..,
    appendBits_next .., appendBits_resets .., acc, cursor, length, fun k hk => ?_, fun k low high => ?_⟩
  · rw [exec_eFlush_active active, flushE_room room, ← padData_eq (padBits_lt s.e)]
    rfl
  · rw [storedBit_eq, eBit_eq, earlier k hk]
  · rw [storedBit_eq, zero k low high]

/-- Settles O25: the pairs fill the stream up to bit Σ (w_i + 8), and the flush pads it to the next byte boundary. -/
theorem finishedStreamLength : Obligations.FinishedStreamLength := by
  intro s ps inv ⟨active, empty, _, _⟩ packable room
  have start : s.e.cursor.toNat = 0 := by rw [empty]; rfl
  obtain ⟨t, packed, cfg, ok, active', cursor, -, -⟩ := pack_run ps s inv.e.streamOk active packable (by omega)
  rw [start, Nat.zero_add] at cursor
  obtain ⟨c, flushed, length, -⟩ := flush_run t (cfg ▸ ok) active' (by omega)
  have pad_lt := padBits_lt t.e
  have bytes : c.out.length = (pairBits ps + 7) / 8 := by omega
  have pad : 8 * c.out.length - pairBits ps = t.e.padBits := by omega
  refine ⟨t, _, packed, flushed, bytes, ?_⟩
  rw [respond_responses, respond_e, pad, padData_eq pad_lt]

/-! ### What the commands of channel E leave unchanged -/

/-- `c'` is channel E `c` with its stream carried on: only the state, the cursor, the partial byte and bytes after those already
emitted are new. -/
def StreamCarriedOn (c c' : EChannel) : Prop :=
  c'.next = c.next ∧ c'.resets = c.resets ∧ c'.cause = c.cause ∧ ∃ more, c'.out = c.out ++ more

theorem appendPair_carriedOn (p : BitPlacement) (code : Code) (sym : Byte) (width : Nat) (c : EChannel) :
    StreamCarriedOn c (appendPair p code sym width c) :=
  ⟨appendPair_next .., appendPair_resets .., appendPair_cause .., appendPair_out ..⟩

theorem appendBits_carriedOn (p : BitPlacement) (v n : Nat) (c : EChannel) (state : ChanState) :
    StreamCarriedOn c { appendBits p v n c with state := state } :=
  ⟨appendBits_next .., appendBits_resets .., appendBits_cause .., appendBits_out ..⟩

/-- Where E.PUT, E.PUTA or E.FLUSH completes, it answers OK and carries the stream on, and does nothing else. -/
theorem answer_carriedOn (h : Answer s i t)
    (hi : (∃ code sym width, i = .ePut code sym width) ∨ (∃ code sym, i = .ePuta code sym) ∨ i = .eFlush)
    (hf : t.e.state ≠ .faulted) :
    ∃ data c, t = respond .ok data { s with e := c } ∧ StreamCarriedOn s.e c := by
  cases h with
  | put | puta => exact ⟨_, _, rfl, appendPair_carriedOn ..⟩
  | flush => exact ⟨_, _, rfl, appendBits_carriedOn ..⟩
  | codeDomain | codeTooWide | putOverflow | putaInvalid | putaOverflow | flushOverflow => exact absurd rfl hf
  | notActive _ ch hch =>
    cases ch with
    | e => exact absurd rfl hf
    | d => rcases hi with ⟨_, _, _, rfl⟩ | ⟨_, _, rfl⟩ | rfl <;> cases hch
  | exhausted _ _ hget | stop _ _ hget | pair _ _ hget => rcases hget with rfl | ⟨rfl, -⟩ <;> simp at hi
  | wcalc | eWidth | dWidth | eInit | dInit | eAdv | dAdv | register | badRegister | getaInvalid => simp at hi

theorem advanceE_e (s : State) :
    (advanceE s).e = { s.e with next := (advanceE s).e.next, resets := (advanceE s).e.resets } := by
  simp [advanceE]

theorem advanceE_ports (s : State) : (advanceE s).ports =
    { s.ports with responses := (advanceE s).ports.responses, pulses := (advanceE s).ports.pulses } := by
  unfold advanceE
  cases counterFires s.cfg s.e.next <;> rfl

/-- Settles O47: a completed command either carries the stream on or is the advance. -/
theorem completedChannelECommandsFrame : Obligations.CompletedChannelECommandsFrame := by
  intro s t i hx hf
  have answer := exec_answer i hx
  refine ⟨fun hi => ?_, ?_⟩
  · obtain ⟨data, c, rfl, next, resets, cause, out⟩ := answer_carriedOn answer hi hf
    exact ⟨rfl, rfl, next, resets, cause, out, rfl⟩
  · rintro rfl
    obtain ⟨-, ⟨hi, -⟩ | ⟨-, rfl⟩⟩ := answer_counterE answer (by simp) hf
    · exact absurd rfl hi
    · exact ⟨answer_cfg answer, by simp [advanceE], advanceE_e s, advanceE_ports s⟩

end Sys2Proof.Machine

/-! PROOFS, section file 42_unpack.md. What opens channel D's stream and what a read of it answers; that a channel which has ended
faults; that the pad is too short for a pair; that reading gives back what was packed; and what the commands of channel D leave
unchanged where they complete. -/

namespace Sys2Proof.Machine

open Sys2Proof.Spec

variable {s t v : State} {i : Instr} {width : Nat} {check : Bool} {q : Pair}

/-! ### Opening a stream, and a channel that is not ACTIVE -/

/-- Settles O27: the length of the next delivery decides between the opened channel and the refusal. -/
theorem dInitBindsTheDelivery : Obligations.DInitBindsTheDelivery := fun _ =>
  ⟨fun short => if_pos short, fun long => if_neg (Nat.not_lt.mpr long)⟩

/-- Every command of channel D but D.INIT makes the ACTIVE check first (spec/60_exceptions.md R186). -/
theorem exec_d_inactive (channel : i.channel = some .d) (not_init : i ≠ .dInit) (inactive : s.d.state ≠ .active) :
    exec i s = .next (faultD s .notActive) := by
  have refused (body : State) : whenActive .d s body = faultD s .notActive := by
    rw [faultD_eq, whenActive_d_inactive inactive]
  cases i with
  | dInit => exact absurd rfl not_init
  | dGet | dGeta | dAdv | dWidth => exact congrArg _ (refused _)
  | wcalc | eInit | ePut | ePuta | eAdv | eFlush | eWidth | rd => cases channel

/-- Settles O29: a channel that is DONE is not ACTIVE, and its first fault is this one. -/
theorem afterDoneReadsFault : Obligations.AfterDoneReadsFault := by
  intro s i done hi
  have of_d (channel : i.channel = some .d) (not_init : i ≠ .dInit) : exec i s =
      .next (faultNone { s with d := { s.d with state := .faulted, cause := some .notActive } } .notActive) := by
    rw [exec_d_inactive channel not_init (by rw [done]; decide), faultD, if_neg (by rw [done]; decide)]
  rcases hi with rfl | rfl | rfl | ⟨width, rfl⟩ <;> exact of_d rfl (by simp)

/-! ### The pair at the cursor -/

theorem exec_dGet_active (width : Nat) (active : s.d.state = .active) :
    exec (.dGet width) s = .next (unpackPair width false s) := congrArg _ (whenActive_d active _)

/-- A read command that runs `UnpackPair` at a legal width answers as R130 says. -/
theorem unpacks_of_exec (legal : legalWidth width) (runs : exec i s = .next (unpackPair width check s)) :
    Unpacks i width check s := by
  obtain ⟨-, width_le⟩ := legal
  have number := pairNumber_eq (show width < 32 by omega) (codeAtCursor s width) (symAtCursor s width)
  refine ⟨fun short => ?_, fun room => ⟨codeAtCursor s width, symAtCursor s width, fun j hj => ?_, fun j hj => ?_,
    fun stop => ?_, fun not_stop checked above => ?_, fun not_stop below => ?_⟩⟩
  · rw [runs, unpackPair_exhausted short, answered_eq, exhData_eq (by omega)]
    rfl
  · rw [codeAtCursor_bit s hj, storedBit_eq]
  · rw [symAtCursor_bit s hj, storedBit_eq]
  · rw [runs, unpackPair_stop room stop, number]
    rfl
  · rw [runs, unpackPair_invalid room not_stop ⟨checked, BitVec.le_def.mpr above⟩, faultD_eq]
  · rw [runs, unpackPair_pair room not_stop fun h => Nat.not_le.mpr (below h.1) (BitVec.le_def.mp h.2), number]
    rfl

/-- Settles O28: both commands run `UnpackPair`, D.GETA at the width of a counter, which is legal. -/
theorem getCommandsUnpackThePairAtTheCursor : Obligations.GetCommandsUnpackThePairAtTheCursor := fun s active =>
  ⟨fun width legal => unpacks_of_exec legal (exec_dGet_active width active),
    unpacks_of_exec (codeWidth_legal s.d.next) (exec_dGeta_active active)⟩

/-! ### The end of a flushed stream -/

/-- A flush that completes emits whole bytes: the stream's bits and the pad (R114). -/
theorem eFlush_done_length (ok : StreamOk s.cfg.bitPlacement s.e) (flushed : exec .eFlush s = .next t)
    (done : t.e.state = .done) : 8 * t.e.out.length = s.e.cursor.toNat + s.e.padBits := by
  cases exec_answer .eFlush flushed with
  | flush _ room =>
    obtain ⟨-, cursor, length, -⟩ := appendBits_pad ok (by omega)
    exact length.symm.trans cursor
  | flushOverflow => cases done
  | notActive _ ch channel =>
    cases channel
    cases done
  | exhausted _ _ read | stop _ _ read | pair _ _ read => simp at read

/-- Settles O30: the bits left are the pad's, at most 7, and the shortest pair has 9. -/
theorem padBitsNeverFormAPair : Obligations.PadBitsNeverFormAPair := by
  intro s t v inv flushed done active src cursor
  have length := eFlush_done_length inv.e.streamOk flushed done
  have pad_lt := padBits_lt s.e
  have left : 8 * v.d.src.length - v.d.cursor.toNat = s.e.padBits := by rw [src, cursor, length, Nat.add_sub_cancel_left]
  obtain ⟨get, geta⟩ := getCommandsUnpackThePairAtTheCursor v active
  have exhausted {i : Instr} {width : Nat} {check : Bool} (unpacks : Unpacks i width check v) :=
    left ▸ unpacks.1 (by omega)
  refine ⟨s.e.padBits, by omega, rfl, ?_⟩
  rintro i (rfl | ⟨width, legal, rfl⟩)
  · exact exhausted geta
  · exact exhausted (get width legal)

/-! ### Reading back what was packed -/

/-- Packing accepted pairs on a fresh stream and flushing it emits bytes that hold the pairs from bit 0 on. -/
theorem pack_flush_run (ps : List Pair) (inv : s.Inv) (fresh : FreshStream s.e) (packable : ∀ q ∈ ps, Packable s.cfg q)
    (room : pairBits ps + 7 < 2 ^ 64) :
    ∃ packed flushed, execAll (ps.map putOf) s = .next packed ∧ exec .eFlush packed = .next flushed ∧
      packed.e.cursor.toNat = pairBits ps ∧ 8 * flushed.e.out.length < 2 ^ 64 ∧
      pairBits ps ≤ 8 * flushed.e.out.length ∧ PairsAt (streamBit s.cfg.bitPlacement flushed.e.out) 0 ps := by
  obtain ⟨active, empty, -, -⟩ := fresh
  have start : s.e.cursor.toNat = 0 := by rw [empty]; rfl
  obtain ⟨packed, pack, cfg, ok, active', cursor, pairs, -⟩ := pack_run ps s inv.e.streamOk active packable (by omega)
  obtain ⟨c, flush, length, emitted⟩ := flush_run packed (cfg ▸ ok) active' (by omega)
  rw [start, Nat.zero_add] at cursor
  rw [start] at pairs
  have pad_lt := padBits_lt packed.e
  have short : 8 * c.out.length < 2 ^ 64 := by omega
  have whole : pairBits ps ≤ 8 * c.out.length := by omega
  exact ⟨packed, _, pack, flush, cursor, short, whole,
    PairsAt_congr (fun k hk => by rw [respond_e, ← cfg, emitted k (by omega)]) pairs⟩

/-- D.GET at the width of the pair that stands at the cursor answers the pair, as STOP if its code is STOP_CODE, and consumes
it. -/
theorem exec_getOf_at (active : v.d.state = .active) (short : 8 * v.d.src.length < 2 ^ 64)
    (room : v.d.cursor.toNat + pairBits [q] ≤ 8 * v.d.src.length) (fits : q.code.toNat < 2 ^ q.width)
    (stands : PairsAt (streamBit v.cfg.bitPlacement v.d.src) v.d.cursor.toNat [q]) :
    ∃ u, exec (getOf q) v = .next u ∧ u.ports.responses = v.ports.responses ++
        [{ rkind := if q.code = stopCode then .stop else .ok, rdata := pairData q.width q.code q.sym }] ∧
      u.d.cursor.toNat = v.d.cursor.toNat + pairBits [q] := by
  obtain ⟨code, sym, -⟩ := stands
  simp only [pairBits] at room ⊢
  obtain ⟨stop, pair, cursor⟩ := unpackPair_at false rfl short (by omega) fits code sym
  refine ⟨_, exec_dGet_active q.width active, ?_⟩
  by_cases is_stop : q.code = stopCode
  · rw [stop is_stop, if_pos is_stop]
    exact ⟨rfl, cursor⟩
  · rw [pair is_stop (by simp), if_neg is_stop]
    exact ⟨rfl, cursor⟩

/-- Reading pairs that stand in the stream from bit 0 on, none of them but the last a STOP pair: the last is answered. -/
theorem read_run_last (before : List Pair) (p : Pair) (active : v.d.state = .active) (start : v.d.cursor = 0)
    (short : 8 * v.d.src.length < 2 ^ 64) (room : pairBits (before ++ [p]) ≤ 8 * v.d.src.length)
    (fits : ∀ q ∈ before ++ [p], q.code.toNat < 2 ^ q.width) (no_stop : ∀ q ∈ before, q.code ≠ stopCode)
    (stand : PairsAt (streamBit v.cfg.bitPlacement v.d.src) 0 (before ++ [p])) :
    ∃ v1 v2, execAll (before.map getOf) v = .next v1 ∧ exec (getOf p) v1 = .next v2 ∧
      v2.ports.responses = v1.ports.responses ++
        [{ rkind := if p.code = stopCode then .stop else .ok, rdata := pairData p.width p.code p.sym }] ∧
      v2.d.cursor.toNat = pairBits (before ++ [p]) := by
  rw [pairBits_append] at room ⊢
  obtain ⟨stand_before, stand_last⟩ := PairsAt_append.mp stand
  obtain ⟨v1, read, cfg, active', src, cursor⟩ := read_run before v v.d.src 0 active rfl (by rw [start]; rfl) short
    (by omega) (fun q hq => ⟨fits q (List.mem_append_left _ hq), no_stop q hq⟩) stand_before
  rw [Nat.zero_add] at cursor stand_last
  rw [← src] at short room
  rw [← cfg, ← src, ← cursor] at stand_last
  rw [← cursor] at room ⊢
  obtain ⟨v2, get⟩ := exec_getOf_at active' short room (fits p (by simp)) stand_last
  exact ⟨v1, v2, read, get⟩

/-- Settles O31: the emitted bytes hold the pairs from bit 0 on, and each cursor is at the end of the pairs up to `p`. -/
theorem unpackingInvertsPacking : Obligations.UnpackingInvertsPacking := by
  intro s v before after p inv fresh packable room no_stop placement active start
  rw [List.append_cons] at packable room ⊢
  have packable_read := fun q hq => packable q (List.mem_append_left after hq)
  have bits := pairBits_append (before ++ [p]) after
  obtain ⟨packed, flushed, pack, flush, -, short, whole, stand⟩ := pack_flush_run _ inv fresh packable room
  obtain ⟨here, -, pack_here, -, cursor, -⟩ := pack_flush_run _ inv fresh packable_read (by omega)
  refine ⟨packed, flushed, here, pack, flush, pack_here, fun src => ?_⟩
  rw [← src] at short whole stand
  rw [← placement] at stand
  obtain ⟨v1, v2, read, get, answer, cursor'⟩ := read_run_last before p active start short (by omega)
    (fun q hq => (packable_read q hq).2.2) no_stop (PairsAt_append.mp stand).1
  have width_lt : p.width < 32 := (packable_read p (by simp)).1.2.trans_lt (by decide)
  exact ⟨v1, v2, read, get, by rw [answer, pairNumber_eq width_lt], BitVec.eq_of_toNat_eq (cursor'.trans cursor.symm)⟩

/-! ### What the commands of channel D leave unchanged -/

/-- Where D.GET or D.GETA completes, it answers and moves channel D's cursor, state and reason, and does nothing else. -/
theorem answer_read (h : Answer s i t) (hi : (∃ width, i = .dGet width) ∨ i = .dGeta) (hf : t.d.state ≠ .faulted) :
    ∃ k data cursor state reason,
      t = respond k data { s with d := { s.d with cursor := cursor, state := state, reason := reason } } := by
  cases h with
  | exhausted | stop | pair => exact ⟨_, _, _, _, _, rfl⟩
  | getaInvalid => exact absurd rfl hf
  | notActive _ ch channel =>
    cases ch with
    | d => exact absurd rfl hf
    | e => rcases hi with ⟨_, rfl⟩ | rfl <;> cases channel
  | wcalc | eWidth | dWidth | eInit | dInit | codeDomain | codeTooWide | putOverflow | put | putaInvalid | putaOverflow
  | puta | flushOverflow | flush | eAdv | dAdv | register | badRegister => simp at hi

theorem advanceD_d (s : State) :
    (advanceD s).d = { s.d with next := (advanceD s).d.next, resets := (advanceD s).d.resets } := by
  simp [advanceD]

theorem advanceD_ports (s : State) : (advanceD s).ports =
    { s.ports with responses := (advanceD s).ports.responses, pulses := (advanceD s).ports.pulses } := by
  unfold advanceD
  cases counterFires s.cfg s.d.next <;> rfl

/-- Settles O48: a completed read moves the cursor, the state and the reason, and a completed D.ADV is the advance. -/
theorem completedChannelDCommandsFrame : Obligations.CompletedChannelDCommandsFrame := by
  intro s t i hx hf
  have answer := exec_answer i hx
  refine ⟨fun hi => ?_, ?_⟩
  · obtain ⟨k, data, cursor, state, reason, rfl⟩ := answer_read answer hi hf
    exact ⟨rfl, rfl, rfl, rfl⟩
  · rintro rfl
    obtain ⟨-, ⟨hi, -⟩ | ⟨-, rfl⟩⟩ := answer_counterD answer (by simp) hf
    · exact absurd rfl hi
    · exact ⟨answer_cfg answer, by simp [advanceD], advanceD_d s, advanceD_ports s⟩

end Sys2Proof.Machine

/-! PROOFS, section file 43_reset_arbiter.md. The round trip; the two advances; and the counter after any number of them, on both
channels at once. -/

namespace Sys2Proof.Machine

open Sys2Proof.Spec

variable {s t u : State} {c : Channel} {i : Instr} {is : List Instr} {k : Nat}

/-! ### The round trip -/

/-- Settles O35: the emitted bytes hold pairs that give a decoder the input, and then the STOP pair at the decoder's width. -/
theorem encodeThenDecodeReturnsTheInput : Obligations.EncodeThenDecodeReturnsTheInput := by
  intro cfg input legal short
  obtain ⟨bytes, pairs, decoder, encoded, read, rfl, length, whole, stand⟩ := encodeStream_run input legal short
  exact ⟨bytes, encoded, decodeStream_run pairs _ bytes legal length whole stand read rfl rfl⟩

/-! ### One advance -/

/-- Below its last value the counter moves on by one, and the response is the new value alone (R150). -/
theorem counterAfter_counts {cfg : Config} {next : Code} (legal : cfg.Legal) (range : counterInRange cfg next)
    (counts : next.toNat + 1 ≠ cfg.maxCode) :
    counterFires cfg next = false ∧ counterAfter cfg next = BitVec.ofNat 16 (next.toNat + 1) ∧
      advData false (counterAfter cfg next) = BitVec.ofNat 32 (next.toNat + 1) := by
  have after := counterAfter_toNat legal range counts
  refine ⟨by simpa [counterFires] using counts, ?_, ?_⟩
  · rw [← after, BitVec.ofNat_toNat, BitVec.setWidth_eq]
  · rw [← advData_eq, after]

/-- The firing advance of channel E. -/
theorem advanceE_fires (fires : s.e.next.toNat + 1 = s.cfg.maxCode) : advanceE s =
    answered { s with
      e := { s.e with next := 2, resets := s.e.resets + 1 }
      ports := { s.ports with pulses := s.ports.pulses ++ [.e] } } .ok 0x00010002 := by
  rw [advanceE, resetsAfter, counterAfter_fires fires, (counterFires_iff _ _).mpr fires]
  rfl

/-- The firing advance of channel D. -/
theorem advanceD_fires (fires : s.d.next.toNat + 1 = s.cfg.maxCode) : advanceD s =
    answered { s with
      d := { s.d with next := 2, resets := s.d.resets + 1 }
      ports := { s.ports with pulses := s.ports.pulses ++ [.d] } } .ok 0x00010002 := by
  rw [advanceD, resetsAfter, counterAfter_fires fires, (counterFires_iff _ _).mpr fires]
  rfl

/-- The advance of channel E below the counter's last value. -/
theorem advanceE_counts (inv : s.Inv) (counts : s.e.next.toNat + 1 ≠ s.cfg.maxCode) : advanceE s =
    answered { s with e := { s.e with next := BitVec.ofNat 16 (s.e.next.toNat + 1) } } .ok
      (BitVec.ofNat 32 (s.e.next.toNat + 1)) := by
  obtain ⟨fires, next, data⟩ := counterAfter_counts inv.legal inv.e.counter counts
  rw [advanceE, resetsAfter, fires, data, next]
  rfl

/-- The advance of channel D below the counter's last value. -/
theorem advanceD_counts (inv : s.Inv) (counts : s.d.next.toNat + 1 ≠ s.cfg.maxCode) : advanceD s =
    answered { s with d := { s.d with next := BitVec.ofNat 16 (s.d.next.toNat + 1) } } .ok
      (BitVec.ofNat 32 (s.d.next.toNat + 1)) := by
  obtain ⟨fires, next, data⟩ := counterAfter_counts inv.legal inv.d.counter counts
  rw [advanceD, resetsAfter, fires, data, next]
  rfl

theorem exec_eAdv_active (active : s.e.state = .active) : exec .eAdv s = .next (advanceE s) :=
  congrArg _ (whenActive_e active _)

theorem exec_dAdv_active (active : s.d.state = .active) : exec .dAdv s = .next (advanceD s) :=
  congrArg _ (whenActive_d active _)

/-- Settles O32: on either channel the advance fires at MAX_CODE - 1 and counts below it. -/
theorem advanceFollowsTheArbiter : Obligations.AdvanceFollowsTheArbiter := by
  intro s inv
  refine ⟨fun active => ?_, fun active => ?_⟩
  · rw [exec_eAdv_active active]
    split
    next fires => rw [advanceE_fires fires]
    next counts => rw [advanceE_counts inv counts]
  · rw [exec_dAdv_active active]
    split
    next fires => rw [advanceD_fires fires]
    next counts => rw [advanceD_counts inv counts]

/-! ### Either channel's counter over one command -/

/-- The reset counter of channel `c`. -/
def resetsOf (c : Channel) (s : State) : BitVec 32 := if c = .e then s.e.resets else s.d.resets

/-- From `s` to `t` channel `c` has advanced once: its counters have, and the pulse is driven if the arbiter fires (R150). -/
structure AdvancedOnce (c : Channel) (s t : State) : Prop where
  counter : counterOf c t = counterAfter s.cfg (counterOf c s)
  resets : resetsOf c t = resetsAfter s.cfg (counterOf c s) (resetsOf c s)
  pulses : t.ports.pulses.count c = s.ports.pulses.count c + (counterFires s.cfg (counterOf c s)).toNat

/-- From `s` to `t` the counters of channel `c` and the number of its pulses have not changed. -/
structure CountersKept (c : Channel) (s t : State) : Prop where
  counter : counterOf c t = counterOf c s
  resets : resetsOf c t = resetsOf c s
  pulses : t.ports.pulses.count c = s.ports.pulses.count c

theorem advancedOnce_e (s : State) : AdvancedOnce .e s (advanceE s) :=
  ⟨advanceE_next s, advanceE_resets s, advanceE_pulses s⟩

theorem advancedOnce_d (s : State) : AdvancedOnce .d s (advanceD s) :=
  ⟨advanceD_next s, advanceD_resets s, advanceD_pulses s⟩

/-- A command other than INIT that does not leave channel `c` FAULTED found it not FAULTED, and advances it exactly if it is its
ADV. -/
theorem answer_counter (h : Answer s i t) (not_init : i ≠ initOf c) (completed : t.channelState c ≠ .faulted) :
    s.channelState c ≠ .faulted ∧ ((i ≠ advOf c ∧ CountersKept c s t) ∨ (i = advOf c ∧ AdvancedOnce c s t)) := by
  cases c with
  | e =>
    obtain ⟨before, ⟨other, next, resets, pulses⟩ | ⟨adv, rfl⟩⟩ := answer_counterE h not_init completed
    · exact ⟨before, .inl ⟨other, next, resets, pulses⟩⟩
    · exact ⟨before, .inr ⟨adv, advancedOnce_e s⟩⟩
  | d =>
    obtain ⟨before, ⟨other, next, resets, pulses⟩ | ⟨adv, rfl⟩⟩ := answer_counterD h not_init completed
    · exact ⟨before, .inl ⟨other, next, resets, pulses⟩⟩
    · exact ⟨before, .inr ⟨adv, advancedOnce_d s⟩⟩

/-! ### The counter after `k` advances -/

/-- Channel `c` of `t` stands where `k` advances put it after its INIT left it in `s` (R154). -/
structure AfterAdvances (c : Channel) (s : State) (k : Nat) (t : State) : Prop where
  cfg : t.cfg = s.cfg
  counter : (counterOf c t).toNat = 2 + k % (s.cfg.maxCode - 2)
  resets : (resetsOf c t).toNat = k / (s.cfg.maxCode - 2) % 2 ^ 32
  pulses : t.ports.pulses.count c = s.ports.pulses.count c + k / (s.cfg.maxCode - 2)

theorem afterAdvances_zero (opened : JustOpened c s) : AfterAdvances c s 0 s := by
  obtain ⟨-, counter, resets⟩ := opened
  exact ⟨rfl, by rw [counter, Nat.zero_mod]; rfl, by rw [resetsOf, resets, Nat.zero_div]; rfl, by rw [Nat.zero_div]; rfl⟩

theorem AfterAdvances.keep (h : AfterAdvances c s k t) (cfg : u.cfg = t.cfg) (kept : CountersKept c t u) :
    AfterAdvances c s k u :=
  ⟨cfg.trans h.cfg, kept.counter ▸ h.counter, kept.resets ▸ h.resets, kept.pulses.trans h.pulses⟩

theorem AfterAdvances.advance (legal : s.cfg.Legal) (h : AfterAdvances c s k t) (cfg : u.cfg = t.cfg)
    (once : AdvancedOnce c t u) : AfterAdvances c s (k + 1) u := by
  obtain ⟨counter, resets, fired, -⟩ := counter_turn legal h.counter h.resets
  exact ⟨cfg.trans h.cfg, by rw [once.counter, h.cfg, counter], by rw [once.resets, h.cfg, resets],
    by rw [once.pulses, h.pulses, h.cfg, Nat.add_assoc, fired]⟩

/-- After any commands with no INIT of the channel that leave it not FAULTED, it stands where its ADVs among them put it. -/
theorem afterAdvances_of_run (legal : s.cfg.Legal) (opened : JustOpened c s) (no_init : initOf c ∉ is)
    (run : execAll is s = .next t) (completed : t.channelState c ≠ .faulted) :
    AfterAdvances c s (is.count (advOf c)) t := by
  induction is using List.reverseRecOn generalizing t with
  | nil =>
    cases run
    exact afterAdvances_zero opened
  | append_singleton is i ih =>
    obtain ⟨u, run_is, run_i⟩ := execAll_snoc run
    have answer := exec_answer i run_i
    have cfg := answer_cfg answer
    rw [List.mem_append, List.mem_singleton, not_or] at no_init
    obtain ⟨no_init_is, not_init_i⟩ := no_init
    rw [List.count_append]
    obtain ⟨before, ⟨other, kept⟩ | ⟨rfl, once⟩⟩ := answer_counter answer (Ne.symm not_init_i) completed
    · rw [List.count_singleton, if_neg (by simpa using other)]
      exact (ih no_init_is run_is before).keep cfg kept
    · rw [List.count_singleton_self]
      exact (ih no_init_is run_is before).advance legal cfg once

/-- The ADV of an ACTIVE channel answers OK, with the counter's advance (R150). -/
theorem exec_advOf_active (active : t.channelState c = .active) :
    ∃ u, exec (advOf c) t = .next u ∧ u.ports.responses = t.ports.responses ++
      [⟨.ok, advData (counterFires t.cfg (counterOf c t)) (counterAfter t.cfg (counterOf c t))⟩] := by
  cases c with
  | e => exact ⟨_, exec_eAdv_active active, by rw [advanceE, respond_responses, pulseIf_responses]; rfl⟩
  | d => exact ⟨_, exec_dAdv_active active, by rw [advanceD, respond_responses, pulseIf_responses]; rfl⟩

/-- After `k` advances the next ADV fires exactly when `P` divides `k + 1` (R154). -/
theorem AfterAdvances.next_adv (legal : s.cfg.Legal) (h : AfterAdvances c s k t) (active : t.channelState c = .active) :
    ∃ u r, exec (advOf c) t = .next u ∧ u.ports.responses = t.ports.responses ++ [r] ∧ r.rkind = .ok ∧
      (r.rdata.getLsbD 16 = true ↔ s.cfg.maxCode - 2 ∣ k + 1) := by
  obtain ⟨u, adv, response⟩ := exec_advOf_active active
  obtain ⟨-, -, -, fires⟩ := counter_turn legal h.counter h.resets
  rw [← h.cfg] at fires ⊢
  have reset_bit := advFired_advData (counterFires t.cfg (counterOf c t)) (counterAfter t.cfg (counterOf c t))
  exact ⟨u, _, adv, response, rfl, (Bool.eq_iff_iff.mp reset_bit).trans fires⟩

/-- Settles O33: the same of either channel, as its ADVs among the commands put it. -/
theorem counterSequence : Obligations.CounterSequence := by
  intro s t is legal run p
  refine ⟨fun active next resets no_init completed => ?_, fun active next resets no_init completed => ?_⟩
  · have after := afterAdvances_of_run (c := .e) legal ⟨active, next, resets⟩ no_init run completed
    exact ⟨after.counter, after.resets, after.pulses, after.next_adv legal⟩
  · have after := afterAdvances_of_run (c := .d) legal ⟨active, next, resets⟩ no_init run completed
    exact ⟨after.counter, after.resets, after.pulses, after.next_adv legal⟩

/-- Settles O34: the counter is a function of MAX_CODE and the number of ADVs, and so are its width and its next firing. -/
theorem equalAdvancesSynchronise : Obligations.EqualAdvancesSynchronise := by
  intro s t u v c c' is js legal max_eq opened no_init run completed opened' no_init' run' completed' advances
  have after := afterAdvances_of_run legal opened no_init run completed
  have legal' : u.cfg.Legal := by rwa [Config.Legal, max_eq]
  have after' := afterAdvances_of_run legal' opened' no_init' run' completed'
  have counter : counterOf c t = counterOf c' v := by
    refine BitVec.eq_of_toNat_eq ?_
    rw [after.counter, after'.counter, advances, max_eq]
  rw [counter, after.cfg, after'.cfg, max_eq]
  exact ⟨rfl, rfl, Iff.rfl⟩

end Sys2Proof.Machine

/-! PROOFS, section file 44_register_access.md. RD answers the register map; what the registers read at the start of a run; and the
two halves of a cursor. -/

namespace Sys2Proof.Machine

open Sys2Proof.Spec

variable {s : State} {cfg : Config} {reg : Byte} {v word : Word}

/-! ### The register map -/

/-- RD answers a register of the map, whatever the form its word is written in (R170). -/
theorem exec_rd_mapped (mapped : registerValue reg s = some v) (form : v = word) :
    exec (.rd reg) s = .next (answered s .ok word) :=
  form ▸ exec_rd_some mapped

/-- The byte count of channel E is read modulo 2^32 (R171). -/
theorem outLengthWord_eq (n : Nat) : BitVec.ofNat 32 n = BitVec.ofNat 32 (n % 2 ^ 32) :=
  BitVec.eq_of_toNat_eq (by simp)

/-- Settles O36: each row of the map, with its word as a number; and the numbers the map does not assign. -/
theorem rdAnswersTheRegisterMap : Obligations.RdAnswersTheRegisterMap := fun s legal =>
  ⟨exec_rd_mapped (registerValue_id s) rfl,
    exec_rd_mapped (registerValue_param s) (paramWord_eq legal),
    exec_rd_mapped (registerValue_eStatus s) (eStatusWord_eq s.e),
    exec_rd_mapped (registerValue_eNext s) (codeWord_eq s.e.next),
    exec_rd_mapped (registerValue_eCurLo s) (cursorLow_eq s.e.cursor),
    exec_rd_mapped (registerValue_eCurHi s) (cursorHigh_eq s.e.cursor),
    exec_rd_mapped (registerValue_eAcc s) (eAccWord_eq s.e),
    exec_rd_mapped (registerValue_eResets s) rfl,
    exec_rd_mapped (registerValue_eOutlen s) (outLengthWord_eq s.e.out.length),
    exec_rd_mapped (registerValue_dStatus s) (dStatusWord_eq s.d),
    exec_rd_mapped (registerValue_dNext s) (codeWord_eq s.d.next),
    exec_rd_mapped (registerValue_dCurLo s) (cursorLow_eq s.d.cursor),
    exec_rd_mapped (registerValue_dCurHi s) (cursorHigh_eq s.d.cursor),
    exec_rd_mapped (registerValue_dResets s) rfl,
    fun _ reserved => (exec_rd_none (registerValue_reserved reserved)).trans
      (congrArg _ (faultNone_eq s .badRegister).symm)⟩

/-! ### The registers at the start of a run -/

/-- MAX_CODE ends below bit 17, so that PARAM is its two fields side by side (R171). -/
theorem paramWord_eq_or (legal : cfg.Legal) :
    paramWord cfg = BitVec.ofNat 32 cfg.maxCode ||| ((if cfg.bitPlacement = .msb0 then 1 else 0) <<< 17) := by
  have fits : cfg.maxCode < 2 ^ 17 := by omega
  have beside : cfg.maxCode + 2 ^ 17 = cfg.maxCode ||| 2 ^ 17 := by
    rw [Nat.or_comm, Nat.add_comm]
    exact Nat.two_pow_add_eq_or_of_lt fits 1
  rw [paramWord_eq legal]
  cases cfg.bitPlacement with
  | lsb0 => simp
  | msb0 => exact (congrArg (BitVec.ofNat 32) beside).trans BitVec.ofNat_or

/-- Every register but PARAM reads the same at the start of every run, whatever the configuration (R43). -/
theorem registerValue_start (param : reg ≠ 0x01) (moves : List HostMove) (deliveries : List (List Byte)) :
    registerValue reg (State.start cfg moves deliveries) = registerValue reg State.reset := by
  have : reg.toNat ≠ 1 := fun h => param (BitVec.eq_of_toNat_eq h)
  unfold registerValue
  split
  case h_2 h => exact absurd h this
  all_goals rfl

/-- Registers that all read one word in `State.reset`: RD answers that word at the start of every run. -/
theorem exec_rd_start {regs : List Byte} (moves : List HostMove) (deliveries : List (List Byte))
    (reset : ∀ reg ∈ regs, reg ≠ 0x01 ∧ registerValue reg State.reset = some word) (mem : reg ∈ regs) :
    exec (.rd reg) (State.start cfg moves deliveries) = .next (answered (State.start cfg moves deliveries) .ok word) := by
  obtain ⟨param, value⟩ := reset reg mem
  exact exec_rd_some ((registerValue_start param moves deliveries).trans value)

/-- Settles O37: ID and PARAM by their rows of the map, the other registers by their values in `State.reset`. -/
theorem registersReadTheirResetValues : Obligations.RegistersReadTheirResetValues := fun _ moves deliveries legal =>
  ⟨exec_rd_mapped (registerValue_id _) rfl,
    exec_rd_mapped (registerValue_param _) (paramWord_eq_or legal),
    fun _ => exec_rd_start moves deliveries (by decide),
    fun _ => exec_rd_start moves deliveries (by decide),
    fun _ => exec_rd_start moves deliveries (by decide)⟩

/-! ### The two halves of a cursor -/

/-- Settles O38: the first RD leaves the cursor as it was, and the two words are the cursor's halves. -/
theorem cursorHalvesMakeTheCursor : Obligations.CursorHalvesMakeTheCursor := by
  rintro s lo hi cursor (⟨rfl, rfl, rfl⟩ | ⟨rfl, rfl, rfl⟩)
  · exact ⟨_, _, _, exec_rd_mapped (registerValue_eCurLo s) rfl, rfl, exec_rd_mapped (registerValue_eCurHi _) rfl,
      BitVec.extractLsb'_append_extractLsb'⟩
  · exact ⟨_, _, _, exec_rd_mapped (registerValue_dCurLo s) rfl, rfl, exec_rd_mapped (registerValue_dCurHi _) rfl,
      BitVec.extractLsb'_append_extractLsb'⟩

end Sys2Proof.Machine

/-! PROOFS, section file 60_exceptions.md. A step with no move; the faults of a channel that is not ACTIVE and of the packing
commands; and of a step that answers a FAULT, that it is precise, that it is sticky, and where its cause comes from. -/

namespace Sys2Proof.Machine

open Sys2Proof.Spec

variable {s t : State} {i : Instr} {w : Word} {rest : List HostMove} {data : Word}

/-! ### A step with no move -/

/-- Settles O6: with no move pending there is no next move. -/
theorem noMoveHoldsTheState : Obligations.NoMoveHoldsTheState := by
  intro s idle
  rw [step, nextMove, idle]
  rfl

/-! ### A channel that is not ACTIVE -/

/-- Every command of channel E but E.INIT makes the ACTIVE check first (R186). -/
theorem exec_e_inactive (channel : i.channel = some .e) (not_init : i ≠ .eInit) (inactive : s.e.state ≠ .active) :
    exec i s = .next (faultE s .notActive) := by
  have refused (body : State) : whenActive .e s body = faultE s .notActive := by
    rw [faultE_eq, whenActive_e_inactive inactive]
  cases i with
  | eInit => exact absurd rfl not_init
  | ePut | ePuta | eAdv | eFlush | eWidth => exact congrArg _ (refused _)
  | wcalc | rd | dInit | dGet | dGeta | dAdv | dWidth => cases channel

/-- Settles O39: each command listed is one of its channel, and none is the INIT. -/
theorem inactiveChannelRefusesItsCommands : Obligations.InactiveChannelRefusesItsCommands := by
  refine fun s => ⟨fun inactive => ?_, fun inactive => ?_⟩
  · refine ⟨fun _ _ _ => ?_, fun _ _ => ?_, ?_, ?_, ?_⟩ <;> exact exec_e_inactive rfl (by simp) inactive
  · refine ⟨fun _ => ?_, ?_, ?_, ?_⟩ <;> exact exec_d_inactive rfl (by simp) inactive

/-! ### The packing commands in ACTIVE -/

section
variable {code : Code} {sym : Byte} {width : Nat}

theorem exec_ePut_codeDomain (active : s.e.state = .active) (above : s.cfg.maxCode ≤ code.toNat) :
    exec (.ePut code sym width) s = .next (faultE s .codeDomain) := by
  rw [faultE_eq]
  exact congrArg _ ((whenActive_e active _).trans (if_pos above))

theorem exec_ePut_codeTooWide (active : s.e.state = .active) (domain : code.toNat < s.cfg.maxCode)
    (wide : 2 ^ width ≤ code.toNat) : exec (.ePut code sym width) s = .next (faultE s .codeTooWide) := by
  rw [faultE_eq]
  exact congrArg _ ((whenActive_e active _).trans ((if_neg (Nat.not_le.mpr domain)).trans (if_pos wide)))

theorem exec_ePuta_invalidCode (active : s.e.state = .active) (above : s.e.next.toNat ≤ code.toNat) :
    exec (.ePuta code sym) s = .next (faultE s .invalidCode) := by
  rw [faultE_eq]
  exact congrArg _ ((whenActive_e active _).trans (if_pos (BitVec.le_def.mpr above)))

end

/-- Settles O22: the checks of a command in their order, each with the earlier ones passed; the cursor's is that of packing a pair
or of the flush. -/
theorem packingFaultsInPriorityOrder : Obligations.PackingFaultsInPriorityOrder := by
  intro s code sym width active _
  refine ⟨exec_ePut_codeDomain active, exec_ePut_codeTooWide active, fun domain fits full => ?_,
    exec_ePuta_invalidCode active, fun below full => ?_, fun full => ?_⟩
  · rw [exec_ePut_active sym active domain fits, packPair_overflow full, faultE_eq]
  · rw [exec_ePuta_active sym active below, packPair_overflow full, faultE_eq]
  · rw [exec_eFlush_active active, flushE_overflow full, faultE_eq]

/-! ### A FAULTED channel -/

/-- A fault changes nothing of a channel E that is FAULTED (R184). -/
theorem raise_e_of_faulted (ch : Option Channel) (c : Cause) (faulted : s.e.state = .faulted) : (raise ch c s).e = s.e := by
  rcases ch with _ | _ | _
  · rfl
  · exact EChannel_faultedBy_of_faulted faulted c
  · rfl

/-- A fault changes nothing of a channel D that is FAULTED (R184). -/
theorem raise_d_of_faulted (ch : Option Channel) (c : Cause) (faulted : s.d.state = .faulted) : (raise ch c s).d = s.d := by
  rcases ch with _ | _ | _
  · rfl
  · rfl
  · exact DChannel_faultedBy_of_faulted faulted c

/-- Every command but E.INIT leaves a FAULTED channel E: what else it writes of the channel, it writes in ACTIVE. -/
theorem answer_e_of_faulted (h : Answer s i t) (faulted : s.e.state = .faulted) : t.e = s.e ∨ i = .eInit := by
  rcases answer_e h with same | ⟨c, rfl, -⟩ | init | ⟨active, -⟩ | ⟨active, -⟩
  · exact .inl same
  · exact .inl (raise_e_of_faulted _ c faulted)
  · exact .inr init
  · cases active.symm.trans faulted
  · cases active.symm.trans faulted

/-- Every command but D.INIT leaves a FAULTED channel D: what else it writes of the channel, it writes in ACTIVE. -/
theorem answer_d_of_faulted (h : Answer s i t) (faulted : s.d.state = .faulted) : t.d = s.d ∨ i = .dInit := by
  rcases answer_d h with same | ⟨c, rfl, -⟩ | init | ⟨active, -⟩ | ⟨active, -⟩
  · exact .inl same
  · exact .inl (raise_d_of_faulted _ c faulted)
  · exact .inr init
  · cases active.symm.trans faulted
  · cases active.symm.trans faulted

/-- Settles O41: a step is a command, which leaves a FAULTED channel unless it is its INIT, or a reset, or a fault, or nothing. -/
theorem faultsAreSticky : Obligations.FaultsAreSticky := by
  intro s t hs
  rcases step_cases hs with ⟨-, rfl⟩ | ⟨move, -⟩ | ⟨i, move, hx⟩ | ⟨_, _, -, -, rfl⟩ | ⟨_, _, _, -, -, rfl⟩
  · exact ⟨fun _ => .inl rfl, fun _ => .inl rfl⟩
  · exact ⟨fun _ => .inr (.inr move), fun _ => .inr (.inr move)⟩
  · have answer := exec_answer i hx
    exact ⟨fun faulted => (answer_e_of_faulted answer faulted).imp_right fun init => .inl (by rwa [← init]),
      fun faulted => (answer_d_of_faulted answer faulted).imp_right fun init => .inl (by rwa [← init])⟩
  · exact ⟨fun _ => .inl rfl, fun _ => .inl rfl⟩
  · exact ⟨fun faulted => .inl (raise_e_of_faulted (s := acceptCommand s) _ _ faulted),
      fun faulted => .inl (raise_d_of_faulted (s := acceptCommand s) _ _ faulted)⟩

/-! ### A step on a command word -/

/-- What a step on a command word can be: the fault of a word that is no command, or the answer of the word's command. -/
theorem step_word_cases (hp : s.ports.pending = .command w :: rest) (hs : step s = .next t) :
    (decode w = .illegalCommand ∧ t = raise none .illegalCommand (acceptCommand s)) ∨
    (∃ op, decode w = .reservedField op ∧ t = raise (channelOfOp op) .reservedField (acceptCommand s)) ∨
    ∃ i, decode w = .command i ∧ Answer (acceptCommand s) i t := by
  cases hd : decode w with
  | illegalCommand => cases (step_illegal hp hd).symm.trans hs; exact .inl ⟨rfl, rfl⟩
  | reservedField op => cases (step_reserved hp hd).symm.trans hs; exact .inr (.inl ⟨op, rfl, rfl⟩)
  | command i => exact .inr (.inr ⟨i, rfl, exec_answer i ((step_command hp hd).symm.trans hs)⟩)

/-- A fault's response is its cause (R181). -/
theorem data_of_raise {ch : Option Channel} {c : Cause}
    (hr : (raise ch c s).ports.responses = s.ports.responses ++ [{ rkind := .fault, rdata := data }]) :
    data = faultData c := by
  rw [raise_responses] at hr
  cases responses_last hr
  rfl

/-! ### Precise faults -/

/-- A step on a command word is the fault record of the channel its opcode names and nothing else, or has a response of another
kind. -/
theorem step_word_kind (hp : s.ports.pending = .command w :: rest) (hs : step s = .next t) :
    (∃ c, t = raise (namedChannel w) c (acceptCommand s)) ∨
      ∃ r, t.ports.responses = s.ports.responses ++ [r] ∧ r.rkind ≠ .fault := by
  rw [namedChannel_eq]
  rcases step_word_cases hp hs with ⟨hd, rfl⟩ | ⟨op, hd, rfl⟩ | ⟨i, hd, answer⟩
  · exact .inl ⟨_, by rw [channelOfOp_of_commandOf_none ((decode_illegal_iff w).mp hd)]⟩
  · obtain ⟨rfl, -, -⟩ := (decode_reserved_iff w op).mp hd
    exact .inl ⟨_, rfl⟩
  · rw [← commandOf_channel ((decode_command_iff w i).mp hd).1]
    exact answer_kind answer

/-- Settles O40: a FAULT response is not of another kind, so the step is the fault record alone. -/
theorem faultsArePrecise : Obligations.FaultsArePrecise := by
  intro s t w rest data hp hs hr
  rcases step_word_kind hp hs with ⟨c, rfl⟩ | ⟨r, other, kind⟩
  · exact ⟨c, by rw [codeOfCause_eq, data_of_raise hr], by rw [faultNamed_eq, acceptCommand_eq hp]⟩
  · cases responses_last (other.symm.trans hr)
    exact absurd rfl kind

/-! ### The table of causes -/

/-- The row of the table of causes (R182): what a word that faults with a cause is, and the condition on the state before it. -/
def CauseRow (s : State) (w : Word) : Cause → Prop
  | .illegalCommand => opOf w = 0x7 ∨ opOf w = 0xD ∨ opOf w = 0xF
  | .reservedField => ∃ r ∈ opcodeMap, opOf w = r.op ∧ reservedSet r w
  | .notActive =>
    (s.e.state ≠ .active ∧ ∃ i, decode w = .command i ∧ i.channel = some .e ∧ i ≠ .eInit) ∨
      (s.d.state ≠ .active ∧ ∃ i, decode w = .command i ∧ i.channel = some .d ∧ i ≠ .dInit)
  | .codeTooWide => ∃ code sym width, decode w = .command (.ePut code sym width) ∧ 2 ^ width ≤ code.toNat
  | .codeDomain => ∃ code sym width, decode w = .command (.ePut code sym width) ∧ s.cfg.maxCode ≤ code.toNat
  | .invalidCode =>
    (∃ code sym, decode w = .command (.ePuta code sym) ∧ s.e.next.toNat ≤ code.toNat) ∨
      (decode w = .command .dGeta ∧ ∃ code : Code, code ≠ stopCode ∧ s.d.next.toNat ≤ code.toNat ∧
        code.toNat = readBits s.cfg.bitPlacement s.d.src s.d.cursor.toNat (codeWidth s.d.next.toNat))
  | .cursorOverflow =>
    (∃ code sym width, decode w = .command (.ePut code sym width) ∧ 2 ^ 64 - 1 < s.e.cursor.toNat + width + 8) ∨
      (∃ code sym, decode w = .command (.ePuta code sym) ∧
        2 ^ 64 - 1 < s.e.cursor.toNat + codeWidth s.e.next.toNat + 8) ∨
      (decode w = .command .eFlush ∧ 2 ^ 64 - 1 < s.e.cursor.toNat + (8 - s.e.cursor.toNat % 8) % 8)
  | .badRegister => ∃ reg, decode w = .command (.rd reg) ∧ 0x0E ≤ reg.toNat

/-- An illegal word has a reserved opcode: the words of a row are its command or its reserved-field fault (R74). -/
theorem reserved_of_decode_illegal (hd : decode w = .illegalCommand) : opOf w = 0x7 ∨ opOf w = 0xD ∨ opOf w = 0xF := by
  refine (exists_row (opOf w)).resolve_right ?_
  rintro ⟨r, hr, hop⟩
  cases (commandOf_of_mem_opcodeMap r hr w hop).symm.trans ((decode_illegal_iff w).mp hd)

/-- A reserved-field fault is of a word of some row, with a field set that the row does not use (R75). -/
theorem exists_row_of_decode_reserved {op : BitVec 4} (hd : decode w = .reservedField op) :
    ∃ r ∈ opcodeMap, opOf w = r.op ∧ reservedSet r w := by
  rcases exists_row (opOf w) with reserved | ⟨r, hr, hop⟩
  · cases hd.symm.trans (decode_of_reserved reserved)
  · refine ⟨r, hr, hop, by_contra fun clear => ?_⟩
    cases hd.symm.trans (decode_of_not_reservedSet hr hop clear)

/-- A code field of at most 16 bits is read whole. -/
theorem codeAtCursor_toNat (s : State) {width : Nat} (le : width ≤ 16) :
    (codeAtCursor s width).toNat = readBits s.cfg.bitPlacement s.d.src s.d.cursor.toNat width := by
  rw [codeAtCursor, BitVec.toNat_ofNat]
  exact Nat.mod_eq_of_lt ((readBits_lt ..).trans_le (Nat.pow_le_pow_right (by decide) le))

/-- A command's FAULT is on the row of its cause. -/
theorem answer_causeRow (hd : decode w = .command i) (h : Answer s i t)
    (hr : t.ports.responses = s.ports.responses ++ [{ rkind := .fault, rdata := data }]) :
    ∃ c, data = faultData c ∧ CauseRow s w c := by
  cases h with
  | notActive _ ch channel not_init inactive =>
    refine ⟨_, data_of_raise hr, ?_⟩
    cases ch with
    | e => exact .inl ⟨inactive, i, hd, channel, not_init.1⟩
    | d => exact .inr ⟨inactive, i, hd, channel, not_init.2⟩
  | codeDomain code sym width _ above => exact ⟨_, data_of_raise hr, code, sym, width, hd, above⟩
  | codeTooWide code sym width _ wide => exact ⟨_, data_of_raise hr, code, sym, width, hd, wide⟩
  | putOverflow code sym width _ full => exact ⟨_, data_of_raise hr, .inl ⟨code, sym, width, hd, full⟩⟩
  | putaInvalid code sym _ above => exact ⟨_, data_of_raise hr, .inl ⟨code, sym, hd, BitVec.le_def.mp above⟩⟩
  | putaOverflow code sym _ full => exact ⟨_, data_of_raise hr, .inr (.inl ⟨code, sym, hd, full⟩)⟩
  | flushOverflow _ full => exact ⟨_, data_of_raise hr, .inr (.inr ⟨hd, full⟩)⟩
  | badRegister reg reserved => exact ⟨_, data_of_raise hr, reg, hd, reserved⟩
  | getaInvalid _ not_stop above =>
    exact ⟨_, data_of_raise hr, .inr ⟨hd, _, not_stop, BitVec.le_def.mp above, codeAtCursor_toNat s (codeWidth_code_le _)⟩⟩
  | eAdv | dAdv => simp [advanceE, advanceD] at hr
  | wcalc | eWidth | dWidth | eInit | dInit | put | puta | flush | register | exhausted | stop | pair =>
    cases responses_last hr

/-- A step on a command word that answers a FAULT is on the row of its cause. -/
theorem step_causeRow (hp : s.ports.pending = .command w :: rest) (hs : step s = .next t)
    (hr : t.ports.responses = s.ports.responses ++ [{ rkind := .fault, rdata := data }]) :
    ∃ c, data = faultData c ∧ CauseRow s w c := by
  rcases step_word_cases hp hs with ⟨hd, rfl⟩ | ⟨op, hd, rfl⟩ | ⟨i, hd, answer⟩
  · exact ⟨_, data_of_raise hr, reserved_of_decode_illegal hd⟩
  · exact ⟨_, data_of_raise hr, exists_row_of_decode_reserved hd⟩
  · exact answer_causeRow (s := acceptCommand s) hd answer hr

/-- Settles O42: the statement is the table of causes row by row. -/
theorem faultCausesComeFromTheirTable : Obligations.FaultCausesComeFromTheirTable := by
  intro s t w rest data hp hs hr
  obtain ⟨c, rfl, row⟩ := step_causeRow hp hs hr
  cases c with
  | illegalCommand => exact .inl ⟨rfl, row⟩
  | reservedField => exact .inr (.inl ⟨rfl, row⟩)
  | notActive => exact .inr (.inr (.inl ⟨rfl, row⟩))
  | codeTooWide => exact .inr (.inr (.inr (.inl ⟨rfl, row⟩)))
  | codeDomain => exact .inr (.inr (.inr (.inr (.inl ⟨rfl, row⟩))))
  | invalidCode => exact .inr (.inr (.inr (.inr (.inr (.inl ⟨rfl, row⟩)))))
  | cursorOverflow => exact .inr (.inr (.inr (.inr (.inr (.inr (.inl ⟨rfl, row⟩))))))
  | badRegister => exact .inr (.inr (.inr (.inr (.inr (.inr (.inr ⟨rfl, row⟩))))))

end Sys2Proof.Machine

/-! PROOFS, section file 70_reset_and_hazards.md. What the reset step makes of every state; and what the commands answer at the start
of a run. -/

namespace Sys2Proof.Machine

open Sys2Proof.Spec

variable {s : State} {rest : List HostMove}

/-! ### The reset step -/

/-- The step on a hardware reset (R210). -/
theorem step_rst (hp : s.ports.pending = .rst :: rest) : step s = .next (hardwareReset (takeMove s)) := by
  simp [step, nextMove, hp]

/-- Settles O10: the step is a hardware reset with the move taken, and its fields are those of the statement. -/
theorem hardwareResetRestoresEveryRegister : Obligations.HardwareResetRestoresEveryRegister := by
  intro s rest hp
  rw [step_rst hp, takeMove_eq hp]
  rfl

/-! ### The start of a run -/

/-- Both channels are IDLE at the start of a run (R43). -/
theorem channelState_start (cfg : Config) (moves : List HostMove) (deliveries : List (List Byte)) (ch : Channel) :
    (State.start cfg moves deliveries).channelState ch = .idle := by
  cases ch <;> rfl

/-- Settles O12: no channel is ACTIVE at the start of a run, so that each refuses its commands (R186), and both status registers
read what they read in `State.reset`. -/
theorem afterResetOnlyInitAndReadingRun : Obligations.AfterResetOnlyInitAndReadingRun := by
  intro cfg moves deliveries
  have inactive (ch : Channel) : (State.start cfg moves deliveries).channelState ch ≠ .active := by
    rw [channelState_start]
    decide
  have status : ∀ reg ∈ ([0x02, 0x09] : List Byte), reg ≠ 0x01 ∧ registerValue reg State.reset = some 0 := by decide
  obtain ⟨ofE, ofD⟩ := inactiveChannelRefusesItsCommands (State.start cfg moves deliveries)
  obtain ⟨put, puta, eAdv, eFlush, eWidth⟩ := ofE (inactive .e)
  obtain ⟨get, geta, dAdv, dWidth⟩ := ofD (inactive .d)
  exact ⟨by simp [eAdv, eFlush, eWidth], put, puta, by simp [geta, dAdv, dWidth], get,
    exec_rd_start moves deliveries status (by decide), exec_rd_start moves deliveries status (by decide)⟩

end Sys2Proof.Machine
